-- ==== Sys2Proof/Word.lean ====
section
/-! DEFINITION. The bit-vector types of the block (`00_scope.md` R9, R10) and their plainest arithmetic. -/

namespace Sys2Proof

/-- A u8: one byte of buffer memory (`20_memory.md` R60). -/
abbrev Byte := BitVec 8
/-- A u16: the LFSR state and the checksum (`00_scope.md` R8). -/
abbrev U16 := BitVec 16
/-- A u32: a register word on the host bus, and a command word (`30_encoding.md` R80, R81). -/
abbrev Word := BitVec 32
/-- A u64: an address, length, capacity or size register (`10_state.md` R39). -/
abbrev U64 := BitVec 64

end Sys2Proof
end

