-- ==== Sys2Proof/Syntax.lean ====
section
/-! DEFINITION. The syntax: the block's eight commands, the names of its registers, the operations the host and the reset
input perform on it, and the assembly statements of `30_encoding.md` R88 and R89. -/

namespace Sys2Proof

/-- The command set (`30_encoding.md` R83): one constructor for each row of the opcode table. -/
inductive Instr
  /-- LFSR.SEED: IMM16 is the new LFSR state (`41_lfsr.md` R113). -/
  | lfsrSeed (seed : U16)
  /-- LFSR.STEP: IMM16 is a step count 0 .. 65535 (`41_lfsr.md` R116). -/
  | lfsrStep (count : Nat)
  /-- CKSUM (`40_checksum.md` R101). -/
  | cksum
  /-- DECRYPT (`42_decrypt.md` R131). -/
  | decrypt
  /-- DECOMPRESS (`43_decompress.md` R147). -/
  | decompress
  /-- FLOAT2 (`44_float.md` R168). -/
  | float2
  /-- FLOAT3 (`44_float.md` R176). -/
  | float3
  /-- HDRPARSE (`45_header.md` R191). -/
  | hdrparse
  deriving DecidableEq, Repr

/-- The 64-bit registers (`10_state.md` R22). -/
inductive Reg64
  | srcAddr | srcLen | src2Addr | src2Len | src3Addr | src3Len | dstAddr | dstCap | outLen | origSize | dataSize
  deriving DecidableEq, Repr

/-- The two 32-bit bus views of a 64-bit register (`10_state.md` R40). -/
inductive Half
  | lo | hi
  deriving DecidableEq, Repr

/-- The named 32-bit registers of the map (`10_state.md` R22); a reserved offset has no name. -/
inductive Reg
  | cmd | status | lfsrState | cksumExp | cksumRes | flags | hdrLen
  | wide (r : Reg64) (h : Half)
  | dict (k : Fin 4)
  deriving DecidableEq, Repr

/-- How the host may access a register (`10_state.md` R23). -/
inductive Access
  | rw | ro | w | w1c
  deriving DecidableEq, Repr

/-- Why a host register access is no block access (`30_encoding.md` R80). -/
inductive AccessError
  | badWidth
  | misaligned
  | outsideSpace
  deriving DecidableEq, Repr

/-- One operation of the outside world on the block: what the host does (`00_scope.md` R15, `30_encoding.md` R80, R89), and
the reset input (`70_reset_and_hazards.md` R240). A register access carries its width in bits. -/
inductive HostOp
  | regWrite (width off : Nat) (w : Word)
  | regRead (width off : Nat)
  | memWrite (addr : Nat) (v : Byte)
  | memRead (addr : Nat)
  | wait
  | reset
  deriving DecidableEq, Repr

/-- What a host read returned: the host's own record ("value noted in the program text", `30_encoding.md` R88). -/
inductive Observed
  | reg (off : Nat) (w : Word)
  | mem (addr : Nat) (v : Byte)
  deriving DecidableEq, Repr

/-- Who moves next where both agents may (`00_scope.md` R15). -/
inductive Agent
  | host | core
  deriving DecidableEq, Repr

/-- The statements of a host program (`30_encoding.md` R88) and its pseudo-instructions (R89). -/
inductive Stmt
  | wr (r : Reg) (w : Word)
  | rd (r : Reg)
  | command (i : Instr)
  | wr64 (r : Reg64) (v : U64)
  | src (a l : U64)
  | src2 (a l : U64)
  | src3 (a l : U64)
  | dst (a c : U64)
  | dictLoad (bs : List Byte)
  | lfsrStepOnce
  | clrhaz
  | wait
  deriving DecidableEq, Repr

end Sys2Proof
end

