-- ==== Sys2Proof/WellFormed.lean ====
section
/-! DEFINITION. When a term of the syntax stands for something the spec lets be encoded or accessed. -/

namespace Sys2Proof

/-- A command is well formed when its immediate fits IMM16 (`30_encoding.md` R82); a seed is 16 bits by its type. -/
def Instr.wf : Instr → Bool
  | .lfsrSeed _ => true
  | .lfsrStep count => count < 65536
  | .cksum => true
  | .decrypt => true
  | .decompress => true
  | .float2 => true
  | .float3 => true
  | .hdrparse => true

/-- A host operation is well formed when the spec gives it an effect: a register access is 32 bits wide, aligned and inside
the 256-byte space (`30_encoding.md` R80), and a buffer access is inside buffer memory (`20_memory.md` R60). -/
def HostOp.wf (memSize : Nat) : HostOp → Bool
  | .regWrite width off _ => width = 32 && off % 4 = 0 && off < 0x100
  | .regRead width off => width = 32 && off % 4 = 0 && off < 0x100
  | .memWrite addr _ => addr < memSize
  | .memRead addr => addr < memSize
  | .wait => true
  | .reset => true

/-- A statement is well formed when its command is, and when `dict.load` gives all 16 bytes (`30_encoding.md` R89). -/
def Stmt.wf : Stmt → Bool
  | .command i => i.wf
  | .dictLoad bs => bs.length = 16
  | .wr _ _ | .rd _ | .wr64 _ _ | .src _ _ | .src2 _ _ | .src3 _ _ | .dst _ _ | .lfsrStepOnce | .clrhaz | .wait => true

end Sys2Proof
end

