-- ==== Sys2Proof/Decode.lean ====
section
/-! DEFINITION. The command word (`30_encoding.md` R81): its fields, the opcode map (R83), the decoder, total on all 2^32
words and rejecting by name (R85, R86), and the encoder. -/

namespace Sys2Proof

/-- OPC, bits 7:0 (R81). -/
def opcField (w : Word) : Byte := w.extractLsb' 0 8
/-- RSVD, bits 15:8 (R81). -/
def rsvdField (w : Word) : Byte := w.extractLsb' 8 8
/-- IMM16, bits 31:16 (R81). -/
def immField (w : Word) : U16 := w.extractLsb' 16 16

/-- `word = {IMM16, RSVD, OPC}` (R81). -/
def commandWord (imm : U16) (rsvd opc : Byte) : Word := imm ++ rsvd ++ opc

/-- The opcodes that are not reserved (R83). -/
def opcodes : List Byte := [0x01, 0x02, 0x10, 0x20, 0x30, 0x40, 0x41, 0x50]

/-- The opcodes that take IMM16 (R82). -/
def immOpcodes : List Byte := [0x01, 0x02]

/-- `legal(w)` (R85). -/
def legal (w : Word) : Bool :=
  opcodes.contains (opcField w) && rsvdField w = 0 && (immOpcodes.contains (opcField w) || immField w = 0)

/-- Why a word is no command (R86); every one of them raises ILLEGAL at the issue step (`60_exceptions.md` R217). -/
inductive DecodeError
  /-- OPC is not in R83's table. -/
  | reservedOpcode
  /-- RSVD is not 0. -/
  | reservedField
  /-- IMM16 is not 0 and the opcode takes none. -/
  | immediateNotTaken
  deriving DecidableEq, Repr

/-- The command of an opcode that takes no immediate (R82, R83). -/
def plainCommand (rsvd : Byte) (imm : U16) (i : Instr) : Except DecodeError Instr :=
  if rsvd ≠ 0 then .error .reservedField
  else if imm ≠ 0 then .error .immediateNotTaken
  else .ok i

/-- The command of an opcode that takes IMM16 (R82, R83). -/
def immCommand (rsvd : Byte) (i : Instr) : Except DecodeError Instr :=
  if rsvd ≠ 0 then .error .reservedField else .ok i

/-- The command of the three fields: one row for each row of R83, everything else reserved (R86). -/
def decodeFields (opc rsvd : Byte) (imm : U16) : Except DecodeError Instr :=
  if opc = 0x01 then immCommand rsvd (.lfsrSeed imm)
  else if opc = 0x02 then immCommand rsvd (.lfsrStep imm.toNat)
  else if opc = 0x10 then plainCommand rsvd imm .cksum
  else if opc = 0x20 then plainCommand rsvd imm .decrypt
  else if opc = 0x30 then plainCommand rsvd imm .decompress
  else if opc = 0x40 then plainCommand rsvd imm .float2
  else if opc = 0x41 then plainCommand rsvd imm .float3
  else if opc = 0x50 then plainCommand rsvd imm .hdrparse
  else .error .reservedOpcode

/-- The decoder, total on all command words. -/
def decode (w : Word) : Except DecodeError Instr := decodeFields (opcField w) (rsvdField w) (immField w)

/-- The command word of a command (R81, R83); faithful for well-formed commands. -/
def encode : Instr → Word
  | .lfsrSeed seed => commandWord seed 0x00 0x01
  | .lfsrStep count => commandWord (BitVec.ofNat 16 count) 0x00 0x02
  | .cksum => commandWord 0 0x00 0x10
  | .decrypt => commandWord 0 0x00 0x20
  | .decompress => commandWord 0 0x00 0x30
  | .float2 => commandWord 0 0x00 0x40
  | .float3 => commandWord 0 0x00 0x41
  | .hdrparse => commandWord 0 0x00 0x50

/-- The 32-bit command word whose low `nbits` bits are those of `w`, all others 0. A command is one register value, so
bit `k` of the opcode table's row is bit `k` of the word; no byte order enters (`20_memory.md` R64; log 17). -/
def tableWord (nbits w : Nat) : Word := BitVec.ofNat 32 (w % 2 ^ nbits)

/-- The command the decoder reads from a word numbered as spec/opcode_table.json numbers it; none where it refuses. The
block has one command length, 32 bits (R87). -/
def decodeTableWord (nbits w : Nat) : Option Instr :=
  if nbits ≤ 32 then (decode (tableWord nbits w)).toOption else none

end Sys2Proof
end

