-- ==== Sys2Proof/Config.lean ====
section
/-! DEFINITION. What an implementation fixes (the parameters of `00_scope.md` R8 and `93_implementation_defined.md` §3)
and the free values: opaque constants with no body, for every value the spec calls "any value". -/

namespace Sys2Proof

/-- SIGN_PACK, the packing of FLOAT3's sign lane (`44_float.md` R175). -/
inductive SignPack
  | byteBit0
  | bitsLsbFirst
  | bitsMsbFirst
  deriving DecidableEq, Repr

/-- The named parameters of one block. They stand in State and no step changes them, so a statement about every state
holds for every value of them (log 3). `memTop` is MEM_SIZE - 1: MEM_SIZE is any integer 1 .. 2^64 (R8). -/
structure Params where
  memTop   : U64
  signPack : SignPack
  regBase  : Nat
  deriving DecidableEq, Repr

/-- MEM_SIZE (R8): the number of bytes of buffer memory. -/
def Params.memSize (p : Params) : Nat := p.memTop.toNat + 1

namespace Config

/-- LFSR_RESET (`00_scope.md` R8, `10_state.md` R33). -/
def lfsrReset : U16 := 0x1337

/-- The places that can receive a value the spec leaves open; one draw number gives each place a value of its own. -/
inductive Slot
  | outLen | lfsr | cksumRes | ckMatch | hdrValid | flags | hdrLen | origSize | dataSize | cksumExp | errCode | hostRead
  | dict (i : Nat)
  | mem (addr : Nat)
  deriving DecidableEq, Repr

/-- Free bits, one for each draw and place ("any value", `93_implementation_defined.md`; log 5). -/
opaque freeBit : Nat → Slot → Bool
/-- Free bytes (log 5). -/
opaque freeByte : Nat → Slot → Byte
/-- Free 16-bit values (log 5). -/
opaque freeU16 : Nat → Slot → U16
/-- Free 32-bit values (log 5). -/
opaque freeU32 : Nat → Slot → Word
/-- Free 64-bit values (log 5). -/
opaque freeU64 : Nat → Slot → U64
/-- Free choices among finitely many things (log 5). -/
opaque freeNat : Nat → Slot → Nat

end Config
end Sys2Proof
end

