-- ==== Sys2Proof/Machine/State.lean ====
section
/-! DEFINITION. The state of the block (`10_state.md` R22, R25, R44, R47) beside its buffer memory (`20_memory.md` R60), its
parameters, and the host's side; the reasons a step can stop; and the state right after reset. -/

namespace Sys2Proof.Machine

/-- STATUS.ERR's codes (`60_exceptions.md` R216); codes 6 to 15 are never written, so they have no name (log 18). -/
inductive ErrCode
  | none | illegal | range | overlap | lane | capacity
  deriving DecidableEq, Repr

/-- Buffer memory: (address, byte) pairs, addresses strictly rising, no entry equal to what an unlisted address reads as
(`Memory.wf`). -/
abbrev Memory := List Host.Cell

/-- The host-written operand registers (`10_state.md` R39). -/
structure Operands where
  srcAddr  : U64
  srcLen   : U64
  src2Addr : U64
  src2Len  : U64
  src3Addr : U64
  src3Len  : U64
  dstAddr  : U64
  dstCap   : U64
  deriving DecidableEq, Repr

/-- The host's side (`00_scope.md` R15): the operations still to come, who moves where both agents may (log 2), and what the
host has read, newest first (log 1). -/
structure HostSide where
  script : List HostOp
  sched  : List Agent
  log    : List Observed
  deriving DecidableEq, Repr

/-- The machine. The fields `cmd` to `dict` are R47's; STATUS.BUSY is `pending ≠ none` (R44, R47). `draws` and `raced` are
the model's own bookkeeping (log 5, log 6). -/
structure State where
  params   : Params
  cmd      : Word
  pending  : Option Word
  done     : Bool
  haz      : Bool
  err      : ErrCode
  ckMatch  : Bool
  hdrValid : Bool
  lfsr     : U16
  cksumExp : U16
  cksumRes : U16
  flags    : Byte
  hdrLen   : Word
  ops      : Operands
  outLen   : U64
  origSize : U64
  dataSize : U64
  dict     : Vector Byte 16
  mem      : Memory
  host     : HostSide
  draws    : Nat
  raced    : Bool
  deriving DecidableEq, Repr

/-- Why the machine stops. -/
inductive Fault
  /-- The host reads or writes buffer memory at or above MEM_SIZE, an address that does not exist (`20_memory.md` R60). Raised
  by `hostMemRead` and `hostMemWrite`; safe (log 9). -/
  | noSuchAddress
  /-- The core completes a pending word that is not legal. Raised by `coreStep`; safe, and it cannot happen in a state of the
  invariant `State.Inv`, since the issue step accepts legal words only (`60_exceptions.md` R215; log 11). -/
  | pendingNotLegal
  deriving DecidableEq, Repr

/-- Why an operation has no meaning. -/
inductive Refusal
  /-- A command with no meaning yet; raised by a refused arm of `exec` only (there is none); safe. -/
  | notModelled (mnemonic : String)
  /-- The host's register access is no block access, and the model refuses it as a host error (`30_encoding.md` R80,
  `60_exceptions.md` R233). Raised by `hostRegWrite` and `hostRegRead`; safe (log 8). -/
  | hostAccess (e : AccessError)
  deriving DecidableEq, Repr

/-- The operand registers right after reset (`10_state.md` R46). -/
def Operands.reset : Operands := ⟨0, 0, 0, 0, 0, 0, 0, 0⟩

/-- The machine right after reset (`10_state.md` R22, R25, R46; `70_reset_and_hazards.md` R240, R242): LFSR_STATE is 0x1337,
every other register and STATUS field 0, PENDING none. The parameters (log 3), the launch memory (log 4), the host's side
(log 1, log 2) and the model's counter (log 5) are named in the log. -/
def State.reset : State where
  params   := ⟨0xFFFF, .byteBit0, 0⟩
  cmd      := 0
  pending  := none
  done     := false
  haz      := false
  err      := .none
  ckMatch  := false
  hdrValid := false
  lfsr     := Config.lfsrReset
  cksumExp := 0
  cksumRes := 0
  flags    := 0
  hdrLen   := 0
  ops      := Operands.reset
  outLen   := 0
  origSize := 0
  dataSize := 0
  dict     := Vector.replicate 16 0
  mem      := []
  host     := ⟨[], [], []⟩
  draws    := 0
  raced    := false

end Sys2Proof.Machine
end

