-- ==== Sys2Proof/Machine/Ops.lean ====
section
/-! DEFINITION. The operations every meaning is built from: buffer memory, free values, the completion step with its errors
(the block's only form of an exception), and reset. -/

namespace Sys2Proof.Machine

/-! ## Buffer memory -/

/-- What an address that is not listed reads as: its launch contents, 0x00 (log 4). -/
def Memory.unlisted : Byte := 0

/-- The canonical form: addresses strictly rising, no entry equal to what an unlisted address reads as. -/
abbrev Memory.wf (m : Memory) : Prop :=
  m.Pairwise (fun c d => c.1 < d.1) ∧ ∀ c ∈ m, c.2 ≠ Memory.unlisted

/-- Every listed address exists: it is below `size` (`20_memory.md` R60). -/
abbrev Memory.within (m : Memory) (size : Nat) : Prop := ∀ c ∈ m, c.1 < size

/-- `MemRead(a, 1)` (`20_memory.md` R62); no side effect (R69). -/
def Memory.read : Memory → Nat → Byte
  | [], _ => Memory.unlisted
  | (k, v) :: t, a => if k = a then v else Memory.read t a

/-- Put a cell at its place in a list of rising addresses. -/
def Memory.place (k : Nat) (v : Byte) : Memory → Memory
  | [] => [(k, v)]
  | c :: t => if k < c.1 then (k, v) :: c :: t else c :: Memory.place k v t

/-- The cells at all other addresses. -/
def Memory.without (m : Memory) (a : Nat) : Memory := m.filter (fun c => c.1 ≠ a)

/-- `MemWrite(a, 1, v)` (`20_memory.md` R62): only the byte at `a` changes (R69). -/
def Memory.write (m : Memory) (a : Nat) (v : Byte) : Memory :=
  if v = Memory.unlisted then m.without a else Memory.place a v (m.without a)

/-- The bytes `MemRead(a + i, 1)` for `0 ≤ i < n` (`20_memory.md` R68). -/
def Memory.readBytes (m : Memory) (a n : Nat) : List Byte :=
  (List.range n).map (fun i => m.read (a + i))

/-- `MemWrite(a + j, 1, bs[j])` for each byte (`20_memory.md` R68). -/
def Memory.writeBytes : Memory → Nat → List Byte → Memory
  | m, _, [] => m
  | m, a, b :: bs => Memory.writeBytes (m.write a b) (a + 1) bs

/-! ## Ranges (`20_memory.md` R66, R67) -/

/-- A range `(a, l)`: the addresses `a .. a + l - 1`, on unbounded integers (R66). -/
structure Range where
  base : Nat
  len  : Nat
  deriving DecidableEq, Repr

/-- `in_range(a, l)` (R66). -/
def Range.within (r : Range) (size : Nat) : Bool := r.base + r.len ≤ size

/-- `overlaps` (R67): both non-empty, and an address in common. -/
def Range.overlaps (r q : Range) : Bool :=
  0 < r.len && 0 < q.len && r.base < q.base + q.len && q.base < r.base + r.len

/-- The range holds the address. -/
def Range.holds (r : Range) (a : Nat) : Bool := r.base ≤ a && a < r.base + r.len

/-! ## Free values -/

/-- MEM_SIZE of this machine. -/
def State.memSize (s : State) : Nat := s.params.memSize

/-- One draw of free values was made; the next draw is another one (log 5). -/
def State.drawn (s : State) : State := { s with draws := s.draws + 1 }

/-- Every byte of a range that exists may hold any value (`60_exceptions.md` R220; log 5, log 7). -/
def Memory.scramble (m : Memory) (r : Range) (size draw : Nat) : Memory :=
  m.writeBytes r.base
    ((List.range (min (r.base + r.len) size - r.base)).map
      (fun i => Config.freeByte draw (.mem (r.base + i))))

/-- The bytes of a range may hold any value, as part of the present draw. -/
def State.scrambleRange (s : State) (r : Range) : State :=
  { s with mem := s.mem.scramble r s.memSize s.draws }

/-- OUT_LEN may hold any value, as part of the present draw (`10_state.md` R41, `60_exceptions.md` R220). -/
def State.freeOutLen (s : State) : State := { s with outLen := Config.freeU64 s.draws .outLen }

/-- DICT0..3 and CKSUM_EXP may hold any value, as part of the present draw (`45_header.md` R198, last row). -/
def State.freeDictAndExpected (s : State) : State :=
  { s with
    dict     := Vector.ofFn (fun i : Fin 16 => Config.freeByte s.draws (.dict i.val))
    cksumExp := Config.freeU16 s.draws .cksumExp }

/-- All header registers may hold any value, as part of the present draw (`45_header.md` R198, first rows). -/
def State.freeHeader (s : State) : State :=
  { s.freeDictAndExpected with
    flags    := Config.freeByte s.draws .flags
    hdrLen   := Config.freeU32 s.draws .hdrLen
    origSize := Config.freeU64 s.draws .origSize
    dataSize := Config.freeU64 s.draws .dataSize }

/-- Any of the codes a command can end with, as part of the present draw (`70_reset_and_hazards.md` R252; log 6). -/
def State.freeErr (s : State) (codes : List ErrCode) : ErrCode :=
  codes.getD (Config.freeNat s.draws .errCode % codes.length) .none

/-! ## The completion step and its errors

Taking an exception, on this block, is recording a code (`60_exceptions.md` R223: no vector, no saved pc, no mode change):
`State.complete` with a code other than NONE. There is no return (R224): the next issue step clears the record. -/

/-- The end of the completion step (`60_exceptions.md` R219): ERR recorded, PENDING none (so BUSY 0), DONE 1. -/
def State.complete (s : State) (e : ErrCode) : State :=
  { s with err := e, pending := none, done := true, raced := false }

/-- The completion step (`60_exceptions.md` R219) from what a command's pseudocode gives: its effects, or the raised code
with the fault effects of R220. -/
def State.finish (s : State) (onFault : ErrCode → State → State) (r : Except ErrCode State) : State :=
  match r with
  | .ok t => t.complete .none
  | .error e => (onFault e s).complete e

/-- Fault effect of DECRYPT, FLOAT2, FLOAT3, and of DECOMPRESS before any write (`60_exceptions.md` R220): OUT_LEN may hold
any value. -/
def State.loseOutLen (s : State) : State := s.freeOutLen.drawn

/-! ## Reset -/

/-- The registers at their reset values (`10_state.md` R46, `70_reset_and_hazards.md` R240). Buffer memory, the parameters,
the host's side and the draw counter are not the block's registers and stay. -/
def State.resetRegisters (s : State) : State :=
  { State.reset with params := s.params, mem := s.mem, host := s.host, draws := s.draws }

end Sys2Proof.Machine
end

