-- ==== Sys2Proof/Machine/Operands.lean ====
section
/-! DEFINITION. The operand forms: the register map and the bus views of the registers (`10_state.md` R22, R23, R40, R42), the
operand ranges of each command (`30_encoding.md` R84), and the range checks they share (`60_exceptions.md` R218). -/

namespace Sys2Proof.Machine

/-! ## The register map -/

/-- The offset of the `lo` word of a 64-bit register (R22). -/
def wideOffset : Reg64 → Nat
  | .srcAddr => 0x20
  | .srcLen => 0x28
  | .src2Addr => 0x30
  | .src2Len => 0x38
  | .src3Addr => 0x40
  | .src3Len => 0x48
  | .dstAddr => 0x50
  | .dstCap => 0x58
  | .outLen => 0x60
  | .origSize => 0x68
  | .dataSize => 0x70

/-- The offset of a register (R22). -/
def regOffset : Reg → Nat
  | .cmd => 0x00
  | .status => 0x04
  | .lfsrState => 0x08
  | .cksumExp => 0x0C
  | .cksumRes => 0x10
  | .flags => 0x14
  | .hdrLen => 0x18
  | .wide r .lo => wideOffset r
  | .wide r .hi => wideOffset r + 4
  | .dict k => 0x80 + 4 * k.val

/-- The 64-bit registers, in the map's order. -/
def allWide : List Reg64 :=
  [.srcAddr, .srcLen, .src2Addr, .src2Len, .src3Addr, .src3Len, .dstAddr, .dstCap, .outLen, .origSize, .dataSize]

/-- The named registers, in the map's order. -/
def allRegs : List Reg :=
  [.cmd, .status, .lfsrState, .cksumExp, .cksumRes, .flags, .hdrLen]
    ++ allWide.flatMap (fun r => [.wide r .lo, .wide r .hi])
    ++ [.dict 0, .dict 1, .dict 2, .dict 3]

/-- The register at an offset; none where the offset is reserved (`10_state.md` R43). -/
def regAt (off : Nat) : Option Reg := allRegs.find? (fun r => regOffset r = off)

/-- The access type of a 64-bit register (R22). -/
def wideAccess : Reg64 → Access
  | .srcAddr | .srcLen | .src2Addr | .src2Len | .src3Addr | .src3Len | .dstAddr | .dstCap => .rw
  | .outLen | .origSize | .dataSize => .ro

/-- The access type of a register (R22, R23). -/
def regAccess : Reg → Access
  | .cmd => .w
  | .status => .w1c
  | .lfsrState => .rw
  | .cksumExp => .rw
  | .cksumRes => .ro
  | .flags => .ro
  | .hdrLen => .ro
  | .wide r _ => wideAccess r
  | .dict _ => .rw

/-- What is wrong with a host register access, if anything (`30_encoding.md` R80). -/
def accessError (width off : Nat) : Option AccessError :=
  if width ≠ 32 then some .badWidth
  else if off % 4 ≠ 0 then some .misaligned
  else if 0x100 ≤ off then some .outsideSpace
  else none

/-- The register-space offset of a platform bus address, when the address is at or above REG_BASE (`20_memory.md` R70). -/
def busOffset (p : Params) (addr : Nat) : Option Nat :=
  if p.regBase ≤ addr then some (addr - p.regBase) else none

/-! ## Bus views of the registers -/

/-- Bits 31:0 or 63:32 of a 64-bit register (`10_state.md` R40). -/
def getHalf (v : U64) : Half → Word
  | .lo => v.extractLsb' 0 32
  | .hi => v.extractLsb' 32 32

/-- A write of one half leaves the other half unchanged (`10_state.md` R40). -/
def setHalf (v : U64) (h : Half) (w : Word) : U64 :=
  match h with
  | .lo => v.extractLsb' 32 32 ++ w
  | .hi => w ++ v.extractLsb' 0 32

/-- The value of a 64-bit register. -/
def getWide (s : State) : Reg64 → U64
  | .srcAddr => s.ops.srcAddr
  | .srcLen => s.ops.srcLen
  | .src2Addr => s.ops.src2Addr
  | .src2Len => s.ops.src2Len
  | .src3Addr => s.ops.src3Addr
  | .src3Len => s.ops.src3Len
  | .dstAddr => s.ops.dstAddr
  | .dstCap => s.ops.dstCap
  | .outLen => s.outLen
  | .origSize => s.origSize
  | .dataSize => s.dataSize

/-- A host write of a whole 64-bit register: operand registers take it, RO registers ignore it (`10_state.md` R23, R39). -/
def setWide (s : State) (r : Reg64) (v : U64) : State :=
  match r with
  | .srcAddr => { s with ops := { s.ops with srcAddr := v } }
  | .srcLen => { s with ops := { s.ops with srcLen := v } }
  | .src2Addr => { s with ops := { s.ops with src2Addr := v } }
  | .src2Len => { s with ops := { s.ops with src2Len := v } }
  | .src3Addr => { s with ops := { s.ops with src3Addr := v } }
  | .src3Len => { s with ops := { s.ops with src3Len := v } }
  | .dstAddr => { s with ops := { s.ops with dstAddr := v } }
  | .dstCap => { s with ops := { s.ops with dstCap := v } }
  | .outLen => s
  | .origSize => s
  | .dataSize => s

/-- DICTk = {dict[4k+3], dict[4k+2], dict[4k+1], dict[4k]} (`10_state.md` R42). -/
def getDict (d : Vector Byte 16) (k : Fin 4) : Word :=
  d[4 * k.val + 3] ++ d[4 * k.val + 2] ++ d[4 * k.val + 1] ++ d[4 * k.val]

/-- `dict[4k+j] <- w[8j+7 : 8j]` for j in 0..3 (`10_state.md` R42). -/
def setDict (d : Vector Byte 16) (k : Fin 4) (w : Word) : Vector Byte 16 :=
  (((d.set (4 * k.val) (w.extractLsb' 0 8)).set (4 * k.val + 1) (w.extractLsb' 8 8)).set
    (4 * k.val + 2) (w.extractLsb' 16 8)).set (4 * k.val + 3) (w.extractLsb' 24 8)

/-! ## Operand ranges (`30_encoding.md` R84) -/

/-- (SRC_ADDR, SRC_LEN). -/
def State.src (s : State) : Range := ⟨s.ops.srcAddr.toNat, s.ops.srcLen.toNat⟩
/-- (SRC2_ADDR, SRC2_LEN). -/
def State.src2 (s : State) : Range := ⟨s.ops.src2Addr.toNat, s.ops.src2Len.toNat⟩
/-- (SRC3_ADDR, SRC3_LEN). -/
def State.src3 (s : State) : Range := ⟨s.ops.src3Addr.toNat, s.ops.src3Len.toNat⟩
/-- (DST_ADDR, DST_CAP). -/
def State.dst (s : State) : Range := ⟨s.ops.dstAddr.toNat, s.ops.dstCap.toNat⟩

/-- The source ranges a command reads, in R84's order. -/
def sourceRanges (i : Instr) (s : State) : List Range :=
  match i with
  | .lfsrSeed _ => []
  | .lfsrStep _ => []
  | .cksum => [s.src]
  | .decrypt => [s.src]
  | .decompress => [s.src]
  | .float2 => [s.src, s.src2]
  | .float3 => [s.src, s.src2, s.src3]
  | .hdrparse => [s.src]

/-- The destination range of a command that has one (R84). -/
def destRange (i : Instr) (s : State) : Option Range :=
  match i with
  | .lfsrSeed _ => none
  | .lfsrStep _ => none
  | .cksum => none
  | .decrypt => some s.dst
  | .decompress => some s.dst
  | .float2 => some s.dst
  | .float3 => some s.dst
  | .hdrparse => none

/-- The checks every command with operands makes before anything else: RANGE over the sources and then the destination,
then OVERLAP of the destination with each source (`60_exceptions.md` R218, items 2 and 3). -/
def rangeChecks (size : Nat) (srcs : List Range) (dst : Option Range) : Option ErrCode :=
  if !(srcs ++ dst.toList).all (fun r => r.within size) then some .range
  else if dst.any (fun d => srcs.any (fun r => d.overlaps r)) then some .overlap
  else none

/-- The range checks of a command (R84, R218). -/
def operandChecks (i : Instr) (s : State) : Option ErrCode :=
  rangeChecks s.memSize (sourceRanges i s) (destRange i s)

/-- The command in flight (`10_state.md` R44). -/
def State.running (s : State) : Option Instr := s.pending.bind (fun w => (decode w).toOption)

/-- A command owns its source ranges and its destination range (`70_reset_and_hazards.md` R251). -/
def ownsByte (i : Instr) (s : State) (a : Nat) : Bool :=
  (sourceRanges i s ++ (destRange i s).toList).any (fun r => r.holds a)

end Sys2Proof.Machine
end

