-- ==== Sys2Proof/Machine/Flags.lean ====
section
/-! DEFINITION. The STATUS fields (`10_state.md` R25): the STATUS word, the error codes, and the codes each command can end
with (`60_exceptions.md` R216). The block has no arithmetic flags (`10_state.md` R45). -/

namespace Sys2Proof.Machine

/-- The 4-bit code of an error (R216). -/
def ErrCode.code : ErrCode → BitVec 4
  | .none => 0
  | .illegal => 1
  | .range => 2
  | .overlap => 3
  | .lane => 4
  | .capacity => 5

/-- One status bit. -/
def bit (b : Bool) : BitVec 1 := BitVec.ofBool b

/-- STATUS.BUSY is 1 exactly when PENDING is not none (`10_state.md` R44). -/
def State.busy (s : State) : Bool := s.pending.isSome

/-- The STATUS word (`10_state.md` R25, `90_conflicts.md` C9): 31:10 reserved, 9 HDR_VALID, 8 CK_MATCH, 7:4 ERR, 3 reserved,
2 HAZ, 1 DONE, 0 BUSY. -/
def statusWord (s : State) : Word :=
  (0 : BitVec 22) ++ bit s.hdrValid ++ bit s.ckMatch ++ s.err.code ++ (0 : BitVec 1) ++ bit s.haz ++ bit s.done ++ bit s.busy

/-- A host write to STATUS: bit 2 = 1 clears HAZ, and nothing else changes (`10_state.md` R32). -/
def writeStatus (s : State) (w : Word) : State := { s with haz := s.haz && !w.getLsbD 2 }

/-- CK_MATCH after a successful CKSUM (`40_checksum.md` R101). -/
def checksumMatches (sum expected : U16) : Bool := sum = expected

/-- The codes a command's completion step can record (`60_exceptions.md` R216). -/
def completionCodes : Instr → List ErrCode
  | .lfsrSeed _ => [.none]
  | .lfsrStep _ => [.none]
  | .cksum => [.none, .range]
  | .decrypt => [.none, .range, .overlap, .capacity]
  | .decompress => [.none, .range, .overlap, .capacity]
  | .float2 => [.none, .range, .overlap, .lane, .capacity]
  | .float3 => [.none, .range, .overlap, .lane, .capacity]
  | .hdrparse => [.none, .range]

/-- The completion step of a command during which the host broke the owned-range rule (`70_reset_and_hazards.md` R252): its
outputs hold any value, and ERR any of the codes the command can end with (log 6). -/
def State.completeRaced (s : State) (i : Instr) (outputs : State → State) : State :=
  (outputs s).drawn.complete (s.freeErr (completionCodes i))

end Sys2Proof.Machine
end

