-- ==== Sys2Proof/Machine/Checksum.lean ====
section
/-! DEFINITION. CKSUM (`40_checksum.md`). -/

namespace Sys2Proof.Machine

/-- The 16-bit additive checksum from a starting sum: each byte is added as an unsigned value, modulo 2^16 (R101, R104). -/
def checksumFrom : U16 → List Byte → U16
  | sum, [] => sum
  | sum, b :: bs => checksumFrom (sum + b.zeroExtend 16) bs

/-- CKSUM's pseudocode (R101). -/
def cksumRun (s : State) : Except ErrCode State :=
  match operandChecks .cksum s with
  | some e => .error e
  | none =>
    let sum := checksumFrom 0 (s.mem.readBytes s.src.base s.src.len)
    .ok { s with cksumRes := sum, ckMatch := checksumMatches sum s.cksumExp }

/-- CKSUM's fault effect (R103, `60_exceptions.md` R220): CK_MATCH <- 0, CKSUM_RES unchanged. -/
def cksumFault (_ : ErrCode) (s : State) : State := { s with ckMatch := false }

/-- CKSUM's outputs after the host broke the owned-range rule (`70_reset_and_hazards.md` R252). -/
def cksumRaced (s : State) : State :=
  { s with cksumRes := Config.freeU16 s.draws .cksumRes, ckMatch := Config.freeBit s.draws .ckMatch }

/-- CKSUM (R101 to R103). -/
def execCksum (s : State) : Host.Outcome State Fault Refusal :=
  .next (if s.raced then s.completeRaced .cksum cksumRaced else s.finish cksumFault (cksumRun s))

end Sys2Proof.Machine
end

