-- ==== Sys2Proof/Machine/Decompress.lean ====
section
/-! DEFINITION. DECOMPRESS (`43_decompress.md`). -/

namespace Sys2Proof.Machine

/-- The escape marker (R146). -/
def escapeMarker : Byte := 0x07

/-- `emit(v)` (R147): CAPACITY when the next output byte would be written at an offset at or above DST_CAP. -/
def emit (cap : Nat) (out : List Byte) (v : Byte) : Except ErrCode (List Byte) :=
  if cap ≤ out.length then .error .capacity else .ok (out ++ [v])

/-- `repeat n times: emit(v)` (R147). -/
def emitRun (cap : Nat) : Nat → List Byte → Byte → Except ErrCode (List Byte)
  | 0, out, _ => .ok out
  | n + 1, out, v =>
    match emit cap out v with
    | .error e => .error e
    | .ok out' => emitRun cap n out' v

/-- `x[7:4]`, the repeat count of a run pair (R146). -/
def runCount (x : Byte) : Nat := (x.extractLsb' 4 4).toNat
/-- `dict[x[3:0]]`, the byte of a run pair (R146). -/
def runByte (dict : Vector Byte 16) (x : Byte) : Byte := dict[(x.extractLsb' 0 4).toNat]

/-- The token loop (R147), from the output bytes emitted so far. -/
def expandInto (dict : Vector Byte 16) (cap : Nat) : List Byte → List Byte → Except ErrCode (List Byte)
  | [], out => .ok out
  | [c], out => if c ≠ escapeMarker then emit cap out c else emit cap out escapeMarker
  | c :: x :: rest, out =>
    if c ≠ escapeMarker then
      match emit cap out c with
      | .error e => .error e
      | .ok out' => expandInto dict cap (x :: rest) out'
    else if x = 0x00 then
      match emit cap out escapeMarker with
      | .error e => .error e
      | .ok out' => expandInto dict cap rest out'
    else
      match emitRun cap (runCount x) out (runByte dict x) with
      | .error e => .error e
      | .ok out' => expandInto dict cap rest out'

/-- R146's token table, without a capacity: the output of a compressed stream. The meaning is `expandInto`; this is what the
statements compare it with. -/
def expandTokens (dict : Vector Byte 16) : List Byte → List Byte
  | [] => []
  | [c] => [c]
  | c :: x :: rest =>
    if c ≠ escapeMarker then c :: expandTokens dict (x :: rest)
    else if x = 0x00 then escapeMarker :: expandTokens dict rest
    else List.replicate (runCount x) (runByte dict x) ++ expandTokens dict rest

/-- The sum over the tokens of `out(t)` (R150): 1 for a literal or an escaped marker, `x[7:4]` for a run pair. -/
def tokenSum : List Byte → Nat
  | [] => 0
  | [_] => 1
  | c :: x :: rest =>
    if c ≠ escapeMarker then 1 + tokenSum (x :: rest)
    else if x = 0x00 then 1 + tokenSum rest
    else runCount x + tokenSum rest

/-- DECOMPRESS's pseudocode (R147). The source is read before the destination is written; the two do not overlap (R72). -/
def decompressRun (s : State) : Except ErrCode State :=
  match operandChecks .decompress s with
  | some e => .error e
  | none =>
    match expandInto s.dict s.dst.len (s.mem.readBytes s.src.base s.src.len) [] with
    | .error e => .error e
    | .ok out => .ok { s with mem := s.mem.writeBytes s.dst.base out, outLen := BitVec.ofNat 64 out.length }

/-- The bytes of the destination range and OUT_LEN may hold any value (R149, `60_exceptions.md` R220). -/
def loseDestination (s : State) : State := (s.scrambleRange s.dst).freeOutLen

/-- DECOMPRESS's fault effect (`60_exceptions.md` R220): after the mid-stream CAPACITY the destination range is lost too. -/
def decompressFault (e : ErrCode) (s : State) : State :=
  match e with
  | .capacity => (loseDestination s).drawn
  | .none | .illegal | .range | .overlap | .lane => s.loseOutLen

/-- DECOMPRESS (R145 to R153); raced, the same outputs are lost (`70_reset_and_hazards.md` R252). -/
def execDecompress (s : State) : Host.Outcome State Fault Refusal :=
  .next (if s.raced then s.completeRaced .decompress loseDestination else s.finish decompressFault (decompressRun s))

end Sys2Proof.Machine
end

