-- ==== Sys2Proof/Machine/Lfsr.lean ====
section
/-! DEFINITION. The LFSR (`41_lfsr.md`): its transition, LFSR.SEED and LFSR.STEP. -/

namespace Sys2Proof.Machine

/-- `step16` (R111): `{s[0] ^ s[6] ^ s[9] ^ s[13], s[15:1]}`. -/
def step16 (s : U16) : U16 :=
  bit (s.getLsbD 0 ^^ s.getLsbD 6 ^^ s.getLsbD 9 ^^ s.getLsbD 13) ++ s.extractLsb' 1 15

/-- `step16` applied a number of times (R116). -/
def lfsrIterate : Nat → U16 → U16
  | 0, s => s
  | n + 1, s => lfsrIterate n (step16 s)

/-- LFSR.SEED (R113): LFSR_STATE <- IMM16, 0 included; it raises nothing at completion (R114). -/
def execLfsrSeed (seed : U16) (s : State) : Host.Outcome State Fault Refusal :=
  .next (State.complete { s with lfsr := seed } .none)

/-- LFSR.STEP (R116): `step16` applied IMM16 times; it raises nothing at completion (R117). -/
def execLfsrStep (count : Nat) (s : State) : Host.Outcome State Fault Refusal :=
  .next (State.complete { s with lfsr := lfsrIterate count s.lfsr } .none)

end Sys2Proof.Machine
end

