-- ==== Sys2Proof/Machine/Decrypt.lean ====
section
/-! DEFINITION. DECRYPT (`42_decrypt.md`). -/

namespace Sys2Proof.Machine

/-- `s[7:0]` of a keystream word. -/
def lowByte (s : U16) : Byte := s.extractLsb' 0 8
/-- `s[15:8]` of a keystream word. -/
def highByte (s : U16) : Byte := s.extractLsb' 8 8

/-- The XOR with the keystream and the final running state (R131): one step before each 2-byte block, low byte first; a
dangling byte takes the low byte of the running state, with no step. -/
def keystreamXor : U16 → List Byte → List Byte × U16
  | s, b0 :: b1 :: rest =>
    let w := step16 s
    let r := keystreamXor w rest
    ((b0 ^^^ lowByte w) :: (b1 ^^^ highByte w) :: r.1, r.2)
  | s, [b] => ([b ^^^ lowByte s], s)
  | s, [] => ([], s)

/-- DECRYPT's pseudocode (R131). The source is read before the destination is written; the two do not overlap (R72). -/
def decryptRun (s : State) : Except ErrCode State :=
  match operandChecks .decrypt s with
  | some e => .error e
  | none =>
    if s.dst.len < s.src.len then .error .capacity
    else
      let r := keystreamXor s.lfsr (s.mem.readBytes s.src.base s.src.len)
      .ok { s with mem := s.mem.writeBytes s.dst.base r.1, lfsr := r.2, outLen := s.ops.srcLen }

/-- DECRYPT's fault effect (R134, `60_exceptions.md` R220). -/
def decryptFault (_ : ErrCode) (s : State) : State := s.loseOutLen

/-- DECRYPT's outputs after the host broke the owned-range rule (`70_reset_and_hazards.md` R252). -/
def decryptRaced (s : State) : State :=
  { (s.scrambleRange s.dst).freeOutLen with lfsr := Config.freeU16 s.draws .lfsr }

/-- DECRYPT (R130 to R136). -/
def execDecrypt (s : State) : Host.Outcome State Fault Refusal :=
  .next (if s.raced then s.completeRaced .decrypt decryptRaced else s.finish decryptFault (decryptRun s))

end Sys2Proof.Machine
end

