-- ==== Sys2Proof/Machine/Float.lean ====
section
/-! DEFINITION. FLOAT2 and FLOAT3 (`44_float.md`). Bits are moved only; no pattern is interpreted (R165). -/

namespace Sys2Proof.Machine

/-- The four output bytes of one float (R168, R176): fraction bytes `f0`, `f1`, `f2`, exponent `e`, and the sign as a byte whose
bit 7 is the sign and whose other bits are 0. -/
def floatBytes (f0 f1 f2 e sign : Byte) : List Byte :=
  [f0, f1, (f2 &&& (0x7F : Byte)) ||| ((e &&& (0x01 : Byte)) <<< 7), (e >>> 1) ||| sign]

/-- Float k of FLOAT2 (R168). -/
def float2Word (m : Memory) (laneA laneB k : Nat) : List Byte :=
  let a2 := m.read (laneA + 3 * k + 2)
  floatBytes (m.read (laneA + 3 * k)) (m.read (laneA + 3 * k + 1)) a2 (m.read (laneB + k)) (a2 &&& 0x80)

/-- The length the sign lane must have for `n` floats (R175). -/
def signLen (p : SignPack) (n : Nat) : Nat :=
  match p with
  | .byteBit0 => n
  | .bitsLsbFirst => (n + 7) / 8
  | .bitsMsbFirst => (n + 7) / 8

/-- The sign of float k in the sign lane (R175). -/
def signBit (p : SignPack) (m : Memory) (lane k : Nat) : Bool :=
  match p with
  | .byteBit0 => (m.read (lane + k)).getLsbD 0
  | .bitsLsbFirst => (m.read (lane + k / 8)).getLsbD (k % 8)
  | .bitsMsbFirst => (m.read (lane + k / 8)).getLsbD (7 - k % 8)

/-- Float k of FLOAT3 (R176). -/
def float3Word (p : SignPack) (m : Memory) (frac exp sign k : Nat) : List Byte :=
  floatBytes (m.read (frac + 3 * k)) (m.read (frac + 3 * k + 1)) (m.read (frac + 3 * k + 2)) (m.read (exp + k))
    (bit (signBit p m sign k) ++ (0 : BitVec 7))

/-- The output of both commands: n floats written at DST_ADDR, OUT_LEN = 4n (R168, R176). -/
def writeFloats (s : State) (n : Nat) (word : Nat → List Byte) : State :=
  { s with
    mem    := s.mem.writeBytes s.dst.base ((List.range n).flatMap word)
    outLen := BitVec.ofNat 64 (4 * n) }

/-- FLOAT2's pseudocode (R168). -/
def float2Run (s : State) : Except ErrCode State :=
  match operandChecks .float2 s with
  | some e => .error e
  | none =>
    let n := s.src.len / 3
    if s.src.len % 3 ≠ 0 then .error .lane
    else if s.src2.len ≠ n then .error .lane
    else if s.dst.len < 4 * n then .error .capacity
    else .ok (writeFloats s n (float2Word s.mem s.src.base s.src2.base))

/-- FLOAT3's pseudocode (R176). -/
def float3Run (s : State) : Except ErrCode State :=
  match operandChecks .float3 s with
  | some e => .error e
  | none =>
    let n := s.src.len / 3
    if s.src.len % 3 ≠ 0 then .error .lane
    else if s.src2.len ≠ n then .error .lane
    else if s.src3.len ≠ signLen s.params.signPack n then .error .lane
    else if s.dst.len < 4 * n then .error .capacity
    else .ok (writeFloats s n (float3Word s.params.signPack s.mem s.src.base s.src2.base s.src3.base))

/-- Fault effect of FLOAT2 and FLOAT3 (R170, R178, `60_exceptions.md` R220). -/
def floatFault (_ : ErrCode) (s : State) : State := s.loseOutLen

/-- The outputs after the host broke the owned-range rule (`70_reset_and_hazards.md` R252). -/
def floatRaced (s : State) : State := (s.scrambleRange s.dst).freeOutLen

/-- FLOAT2 (R166 to R173). -/
def execFloat2 (s : State) : Host.Outcome State Fault Refusal :=
  .next (if s.raced then s.completeRaced .float2 floatRaced else s.finish floatFault (float2Run s))

/-- FLOAT3 (R174 to R180). -/
def execFloat3 (s : State) : Host.Outcome State Fault Refusal :=
  .next (if s.raced then s.completeRaced .float3 floatRaced else s.finish floatFault (float3Run s))

end Sys2Proof.Machine
end

