-- ==== Sys2Proof/Machine/Header.lean ====
section
/-! DEFINITION. HDRPARSE (`45_header.md`). -/

namespace Sys2Proof.Machine

/-- The byte at offset `i` of the container (R191). -/
def containerByte (s : State) (i : Nat) : Byte := s.mem.read (s.src.base + i)

/-- The eight bytes from offset `p`, the lower offset less significant (R193). -/
def le64 (b : Nat → Byte) (p : Nat) : U64 :=
  b (p + 7) ++ b (p + 6) ++ b (p + 5) ++ b (p + 4) ++ b (p + 3) ++ b (p + 2) ++ b (p + 1) ++ b p

/-- A big-endian u16 (R197). -/
def be16 (hi lo : Byte) : U16 := hi ++ lo

/-- The magic and version bytes `02 13 03` at offsets 0 to 2 (R192). -/
def magicMatches (b : Nat → Byte) : Bool := b 0 = 0x02 && b 1 = 0x13 && b 2 = 0x03

/-- FLAGS bit 7, COMPRESSED (`10_state.md` R36). -/
def isCompressed (f : Byte) : Bool := f.getLsbD 7
/-- FLAGS bit 5, CHECKSUMMED (`10_state.md` R36). -/
def isChecksummed (f : Byte) : Bool := f.getLsbD 5

/-- `20 + 16*[is_compressed] + 2*[is_checksummed]` (R194). -/
def headerLen (f : Byte) : Nat := 20 + 16 * (isCompressed f).toNat + 2 * (isChecksummed f).toNat

/-- The offset of the checksum (R197). -/
def checksumOffset (f : Byte) : Nat := if isCompressed f then 36 else 20

/-- Steps 3 to 5 (R191): FLAGS, the sizes, HDR_LEN. -/
def loadFixedHeader (s : State) : State :=
  let b := containerByte s
  { s with
    flags    := b 3
    origSize := le64 b 4
    dataSize := le64 b 12
    hdrLen   := BitVec.ofNat 32 (headerLen (b 3)) }

/-- Step 7's dictionary (R196): written only when the container is compressed. -/
def loadDict (s : State) : State :=
  if isCompressed (containerByte s 3) then
    { s with dict := Vector.ofFn (fun i : Fin 16 => containerByte s (20 + i.val)) }
  else s

/-- The checksum of steps 7 and 8 (R197): written only when the container is checksummed. -/
def loadExpected (s : State) : State :=
  let p := checksumOffset (containerByte s 3)
  if isChecksummed (containerByte s 3) then
    { s with cksumExp := be16 (containerByte s p) (containerByte s (p + 1)) }
  else s

/-- HDR_VALID <- v. -/
def setHdrValid (s : State) (v : Bool) : State := { s with hdrValid := v }

/-- HDRPARSE's pseudocode (R191), with the registers R198 leaves open holding any value. -/
def hdrparseRun (s : State) : Except ErrCode State :=
  match operandChecks .hdrparse s with
  | some e => .error e
  | none =>
    if s.src.len < 20 then .ok (setHdrValid s.freeHeader.drawn false)
    else if !magicMatches (containerByte s) then .ok (setHdrValid s.freeHeader.drawn false)
    else if s.src.len < headerLen (containerByte s 3) then
      .ok (setHdrValid (loadFixedHeader s).freeDictAndExpected.drawn false)
    else .ok (setHdrValid (loadExpected (loadDict (loadFixedHeader s))) true)

/-- HDRPARSE's fault effect (R200, `60_exceptions.md` R220): HDR_VALID <- 0, the header registers unchanged. -/
def hdrparseFault (_ : ErrCode) (s : State) : State := setHdrValid s false

/-- HDRPARSE's outputs after the host broke the owned-range rule (`70_reset_and_hazards.md` R252). -/
def hdrparseRaced (s : State) : State := setHdrValid s.freeHeader (Config.freeBit s.draws .hdrValid)

/-- HDRPARSE (R191 to R204). -/
def execHdrparse (s : State) : Host.Outcome State Fault Refusal :=
  .next (if s.raced then s.completeRaced .hdrparse hdrparseRaced else s.finish hdrparseFault (hdrparseRun s))

end Sys2Proof.Machine
end

