-- ==== Sys2Proof/Machine/Dispatch.lean ====
section
/-! DEFINITION. The meaning of each command: its completion step (`60_exceptions.md` R219), one arm for each row of
`30_encoding.md` R83. -/

namespace Sys2Proof.Machine

def exec (i : Instr) (s : State) : Host.Outcome State Fault Refusal :=
  match i with
  | .lfsrSeed seed => Sys2Proof.Machine.execLfsrSeed seed s
  | .lfsrStep count => Sys2Proof.Machine.execLfsrStep count s
  | .cksum => Sys2Proof.Machine.execCksum s
  | .decrypt => Sys2Proof.Machine.execDecrypt s
  | .decompress => Sys2Proof.Machine.execDecompress s
  | .float2 => Sys2Proof.Machine.execFloat2 s
  | .float3 => Sys2Proof.Machine.execFloat3 s
  | .hdrparse => Sys2Proof.Machine.execHdrparse s

end Sys2Proof.Machine
end

