-- ==== Sys2Proof/Machine/HostSide.lean ====
section
/-! DEFINITION. What the outside world does to the block: register accesses (`10_state.md` R23, R24; `30_encoding.md` R80;
`70_reset_and_hazards.md` R250), the issue step (`60_exceptions.md` R215), buffer-memory accesses (R251, R252), the reset input
(R240), and who moves next (`00_scope.md` R15). -/

namespace Sys2Proof.Machine

/-! ## The issue step -/

/-- The issue step of word `w` (`60_exceptions.md` R215, R217). -/
def issue (s : State) (w : Word) : State :=
  let t := { s with cmd := w, done := false, err := .none }
  if legal w then { t with pending := some w, raced := false }
  else { t with err := .illegal, done := true }

/-! ## Register accesses -/

/-- A host read of a register: used bits, unused bits 0 (`10_state.md` R23, R25). -/
def readReg (s : State) : Reg → Word
  | .cmd => s.cmd
  | .status => statusWord s
  | .lfsrState => s.lfsr.zeroExtend 32
  | .cksumExp => s.cksumExp.zeroExtend 32
  | .cksumRes => s.cksumRes.zeroExtend 32
  | .flags => s.flags.zeroExtend 32
  | .hdrLen => s.hdrLen
  | .wide r h => getHalf (getWide s r) h
  | .dict k => getDict s.dict k

/-- A host write of a register while BUSY is 0, by its access type (`10_state.md` R23, R24, R32). -/
def writeReg (s : State) (r : Reg) (w : Word) : State :=
  match r with
  | .cmd => issue s w
  | .status => writeStatus s w
  | .lfsrState => { s with lfsr := w.extractLsb' 0 16 }
  | .cksumExp => { s with cksumExp := w.extractLsb' 0 16 }
  | .cksumRes => s
  | .flags => s
  | .hdrLen => s
  | .wide q h => setWide s q (setHalf (getWide s q) h w)
  | .dict k => { s with dict := setDict s.dict k w }

/-- `RegRead(off)`: a reserved offset reads 0 (`10_state.md` R43); no side effect. -/
def regRead (s : State) (off : Nat) : Word :=
  match regAt off with
  | none => 0
  | some r => readReg s r

/-- `RegWrite(off, w)`: a reserved offset ignores it (`10_state.md` R43), STATUS always takes it (R32), and the busy rule drops
any other write under BUSY and sets HAZ (`70_reset_and_hazards.md` R250). -/
def regWrite (s : State) (off : Nat) (w : Word) : State :=
  match regAt off with
  | none => s
  | some .status => writeStatus s w
  | some r => if s.busy then { s with haz := true } else writeReg s r w

/-- The host notes what it read. -/
def note (s : State) (o : Observed) : State := { s with host := { s.host with log := o :: s.host.log } }

/-- A host register write (`30_encoding.md` R80). -/
def hostRegWrite (width off : Nat) (w : Word) (s : State) : Host.Outcome State Fault Refusal :=
  match accessError width off with
  | some e => .refused (.hostAccess e)
  | none => .next (regWrite s off w)

/-- A host register read (`30_encoding.md` R80). -/
def hostRegRead (width off : Nat) (s : State) : Host.Outcome State Fault Refusal :=
  match accessError width off with
  | some e => .refused (.hostAccess e)
  | none => .next (note s (.reg off (regRead s off)))

/-! ## Buffer-memory accesses -/

/-- The host writes a byte. If a command in flight owns it, that command's outputs are open from now on
(`70_reset_and_hazards.md` R251, R252). -/
def hostMemWrite (a : Nat) (v : Byte) (s : State) : Host.Outcome State Fault Refusal :=
  if s.memSize ≤ a then .fault .noSuchAddress
  else .next { s with
    mem   := s.mem.write a v
    raced := s.raced || s.running.any (fun i => ownsByte i s a) }

/-- The address is in the destination range of the command in flight. -/
def inRunningDest (s : State) (a : Nat) : Bool :=
  (s.running.bind (fun i => destRange i s)).any (fun r => r.holds a)

/-- The host reads a byte; a byte of the destination of a command in flight reads as any u8 (`70_reset_and_hazards.md`
R252). -/
def hostMemRead (a : Nat) (s : State) : Host.Outcome State Fault Refusal :=
  if s.memSize ≤ a then .fault .noSuchAddress
  else if inRunningDest s a then .next (note s (.mem a (Config.freeByte s.draws .hostRead))).drawn
  else .next (note s (.mem a (s.mem.read a)))

/-! ## Reset -/

/-- The reset input (`70_reset_and_hazards.md` R240): a command in flight is abandoned and the bytes of its destination range
may hold any value; every register goes to its reset value; other memory keeps its contents (log 14). -/
def resetBlock (s : State) : State :=
  match s.running.bind (fun i => destRange i s) with
  | none => s.resetRegisters
  | some r => (s.scrambleRange r).drawn.resetRegisters

/-! ## The host's step, and who moves -/

/-- One operation of the outside world. `wait` is taken when BUSY is 0 (`30_encoding.md` R89; log 12). -/
def hostOp (op : HostOp) (s : State) : Host.Outcome State Fault Refusal :=
  match op with
  | .regWrite width off w => hostRegWrite width off w s
  | .regRead width off => hostRegRead width off s
  | .memWrite a v => hostMemWrite a v s
  | .memRead a => hostMemRead a s
  | .wait => .next s
  | .reset => .next (resetBlock s)

/-- The host's step: the next operation of its script; with none left the block stays idle (`60_exceptions.md` R232; log 13). -/
def hostStep (s : State) : Host.Outcome State Fault Refusal :=
  match s.host.script with
  | [] => .next s
  | op :: rest => hostOp op { s with host := { s.host with script := rest } }

/-- Who moves: only the host while no command is in flight; only the core while the host has nothing to do but wait; else the
schedule says, and the core when the schedule is used up (`00_scope.md` R15, R17; log 2). -/
def mover (s : State) : Agent :=
  match s.pending, s.host.script with
  | none, _ => .host
  | some _, [] => .core
  | some _, .wait :: _ => .core
  | some _, _ :: _ => s.host.sched.headD .core

/-- The schedule entry is used up when there was a choice. -/
def tookTurn (s : State) : State :=
  match s.pending, s.host.script with
  | none, _ => s
  | some _, [] => s
  | some _, .wait :: _ => s
  | some _, _ :: _ => { s with host := { s.host with sched := s.host.sched.tail } }

/-- The machine with a word placed so that the very next step runs it (log 10). A legal word stands where the completion step
takes its command from, PENDING, as its issue step leaves it (`60_exceptions.md` R215), the core moving next. An illegal word
is the host's next CMD write, whose issue step raises ILLEGAL. -/
def placeWord (s : State) (w : Word) : State :=
  if legal w then
    { issue s w with host := { s.host with sched := .core :: s.host.sched } }
  else
    { s with
      pending := none
      raced   := false
      host    := { s.host with script := .regWrite 32 0x00 w :: s.host.script } }

end Sys2Proof.Machine
end

