-- ==== Sys2Proof/Machine/Step.lean ====
section
/-! DEFINITION. The one step of the machine: the agent whose turn it is moves (`00_scope.md` R15). -/

namespace Sys2Proof.Machine

/-- The core's step: the completion step of the command in flight (`60_exceptions.md` R219). -/
def coreStep (s : State) : Host.Outcome State Fault Refusal :=
  match s.pending with
  | none => .next s
  | some w =>
    match decode w with
    | .ok i => exec i s
    | .error _ => .fault .pendingNotLegal

/-- One step. -/
def step (s : State) : Host.Outcome State Fault Refusal :=
  match mover s with
  | .core => coreStep (tookTurn s)
  | .host => hostStep (tookTurn s)

/-- The word of an opcode-table row, placed so that the very next step runs it (log 10). -/
def State.withFetchWord (s : State) (nbits w : Nat) : State := placeWord s (tableWord nbits w)

end Sys2Proof.Machine
end

