-- ==== Sys2Proof/Machine/Assembly.lean ====
section
/-! DEFINITION. The host programs of `30_encoding.md` R88 and R89: each statement's expansion to operations on the block
(log 19). -/

namespace Sys2Proof.Machine

/-- `wr R, w`: one bus write (R88). -/
def wr (r : Reg) (w : Word) : HostOp := .regWrite 32 (regOffset r) w

/-- `wr64 R, v`: the low half, then the high half (R89). -/
def wr64 (r : Reg64) (v : U64) : List HostOp := [wr (.wide r .lo) (getHalf v .lo), wr (.wide r .hi) (getHalf v .hi)]

/-- Byte `i` of a `dict.load` list. -/
def dictByte (bs : List Byte) (i : Nat) : Byte := bs.getD i 0

/-- The word `dict.load` writes to DICTk: `{b(4k+3), b(4k+2), b(4k+1), b(4k)}` (R89). -/
def dictWord (bs : List Byte) (k : Nat) : Word :=
  dictByte bs (4 * k + 3) ++ dictByte bs (4 * k + 2) ++ dictByte bs (4 * k + 1) ++ dictByte bs (4 * k)

/-- The operations a statement stands for (R88, R89). -/
def expandStmt : Stmt → List HostOp
  | .wr r w => [wr r w]
  | .rd r => [.regRead 32 (regOffset r)]
  | .command i => [wr .cmd (encode i)]
  | .wr64 r v => wr64 r v
  | .src a l => wr64 .srcAddr a ++ wr64 .srcLen l
  | .src2 a l => wr64 .src2Addr a ++ wr64 .src2Len l
  | .src3 a l => wr64 .src3Addr a ++ wr64 .src3Len l
  | .dst a c => wr64 .dstAddr a ++ wr64 .dstCap c
  | .dictLoad bs => [wr (.dict 0) (dictWord bs 0), wr (.dict 1) (dictWord bs 1), wr (.dict 2) (dictWord bs 2),
      wr (.dict 3) (dictWord bs 3)]
  | .lfsrStepOnce => [wr .cmd (encode (.lfsrStep 1))]
  | .clrhaz => [wr .status 0x00000004]
  | .wait => [.wait]

/-- A program's operations, in order. -/
def assemble (p : List Stmt) : List HostOp := p.flatMap expandStmt

/-- A host program loaded from outside: the operations the host will perform (log 10). -/
def loadProgram (s : State) (p : List Stmt) : State := { s with host := { s.host with script := assemble p } }

end Sys2Proof.Machine
end

