-- ==== Sys2Proof/Safety.lean ====
section
/-! DEFINITION. What counts as a safe run: the invariant every step keeps, and when the host keeps the hazard rules. -/

namespace Sys2Proof.Machine

/-- The invariant of the machine: buffer memory in canonical form and inside MEM_SIZE (`20_memory.md` R60); a command in
flight is the last accepted word, legal, with DONE = 0 and ERR = NONE (`10_state.md` R24, R27, R29; `60_exceptions.md` R215);
and no race without a command in flight (log 6). -/
structure State.Inv (s : State) : Prop where
  memWf : s.mem.wf
  memWithin : s.mem.within s.memSize
  pendingLegal : ∀ w, s.pending = some w → legal w = true
  pendingIsCmd : ∀ w, s.pending = some w → s.cmd = w
  busyNotDone : s.busy = true → s.done = false
  busyNoError : s.busy = true → s.err = .none
  idleNotRaced : s.busy = false → s.raced = false

/-- The range (a, l) is in range (`20_memory.md` R66): `a + l <= MEM_SIZE` on unbounded integers. -/
def InMemory (s : State) (a l : U64) : Prop := a.toNat + l.toNat ≤ s.params.memTop.toNat + 1

/-- The ranges (a, l) and (b, k) overlap (`20_memory.md` R67). -/
def Overlap (a l b k : U64) : Prop :=
  0 < l.toNat ∧ 0 < k.toNat ∧ a.toNat < b.toNat + k.toNat ∧ b.toNat < a.toNat + l.toNat

/-- SRC and DST are in range and DST does not overlap SRC: what DECRYPT and DECOMPRESS check first (`60_exceptions.md` R218). -/
def SrcDstReady (s : State) : Prop :=
  InMemory s s.ops.srcAddr s.ops.srcLen ∧ InMemory s s.ops.dstAddr s.ops.dstCap ∧
    ¬Overlap s.ops.dstAddr s.ops.dstCap s.ops.srcAddr s.ops.srcLen

/-- DECRYPT passes every check (`42_decrypt.md` R134), and no race is marked (log 6). -/
def DecryptReady (s : State) : Prop := s.raced = false ∧ SrcDstReady s ∧ s.ops.srcLen.toNat ≤ s.ops.dstCap.toNat

/-- The address lies in the range (a, l). -/
def InRange (a l : U64) (x : Nat) : Prop := a.toNat ≤ x ∧ x < a.toNat + l.toNat

/-- The command owns the address (`70_reset_and_hazards.md` R251, ranges of `30_encoding.md` R84). -/
def Owns (i : Instr) (s : State) (x : Nat) : Prop :=
  match i with
  | .lfsrSeed _ | .lfsrStep _ => False
  | .cksum | .hdrparse => InRange s.ops.srcAddr s.ops.srcLen x
  | .decrypt | .decompress => InRange s.ops.srcAddr s.ops.srcLen x ∨ InRange s.ops.dstAddr s.ops.dstCap x
  | .float2 =>
    InRange s.ops.srcAddr s.ops.srcLen x ∨ InRange s.ops.src2Addr s.ops.src2Len x ∨ InRange s.ops.dstAddr s.ops.dstCap x
  | .float3 =>
    InRange s.ops.srcAddr s.ops.srcLen x ∨ InRange s.ops.src2Addr s.ops.src2Len x ∨
      InRange s.ops.src3Addr s.ops.src3Len x ∨ InRange s.ops.dstAddr s.ops.dstCap x

/-- The command has a destination range (`30_encoding.md` R84). -/
def HasDestination : Instr → Prop
  | .decrypt | .decompress | .float2 | .float3 => True
  | .lfsrSeed _ | .lfsrStep _ | .cksum | .hdrparse => False

/-- Byte `i` of the range at `a`. -/
def byteOf (s : State) (a : U64) (i : Nat) : Byte := s.mem.read (a.toNat + i)

/-- The two machines hold the same bytes in the range (a, l). -/
def SameBytes (s u : State) (a l : U64) : Prop := ∀ k, k < l.toNat → byteOf s a k = byteOf u a k

/-- The two machines agree on the parameters and on everything `30_encoding.md` R84 says the command reads; neither is
raced. Nothing else need agree. -/
def SameInputs (i : Instr) (s u : State) : Prop :=
  s.params = u.params ∧ s.raced = false ∧ u.raced = false ∧
  match i with
  | .lfsrSeed _ => True
  | .lfsrStep _ => s.lfsr = u.lfsr
  | .cksum =>
    s.ops.srcAddr = u.ops.srcAddr ∧ s.ops.srcLen = u.ops.srcLen ∧ SameBytes s u s.ops.srcAddr s.ops.srcLen ∧
      s.cksumExp = u.cksumExp
  | .decrypt =>
    s.ops.srcAddr = u.ops.srcAddr ∧ s.ops.srcLen = u.ops.srcLen ∧ SameBytes s u s.ops.srcAddr s.ops.srcLen ∧
      s.ops.dstAddr = u.ops.dstAddr ∧ s.ops.dstCap = u.ops.dstCap ∧ s.lfsr = u.lfsr
  | .decompress =>
    s.ops.srcAddr = u.ops.srcAddr ∧ s.ops.srcLen = u.ops.srcLen ∧ SameBytes s u s.ops.srcAddr s.ops.srcLen ∧
      s.ops.dstAddr = u.ops.dstAddr ∧ s.ops.dstCap = u.ops.dstCap ∧ s.dict = u.dict
  | .float2 =>
    s.ops.srcAddr = u.ops.srcAddr ∧ s.ops.srcLen = u.ops.srcLen ∧ SameBytes s u s.ops.srcAddr s.ops.srcLen ∧
      s.ops.src2Addr = u.ops.src2Addr ∧ s.ops.src2Len = u.ops.src2Len ∧ SameBytes s u s.ops.src2Addr s.ops.src2Len ∧
      s.ops.dstAddr = u.ops.dstAddr ∧ s.ops.dstCap = u.ops.dstCap
  | .float3 => s.ops = u.ops ∧ SameBytes s u s.ops.srcAddr s.ops.srcLen ∧
      SameBytes s u s.ops.src2Addr s.ops.src2Len ∧ SameBytes s u s.ops.src3Addr s.ops.src3Len
  | .hdrparse =>
    s.ops.srcAddr = u.ops.srcAddr ∧ s.ops.srcLen = u.ops.srcLen ∧ SameBytes s u s.ops.srcAddr s.ops.srcLen

/-- HDRPARSE reaches steps 3 to 5 (`45_header.md` R191): the source is in range and holds 20 bytes with the magic; the fields
of these steps then hold the parsed values, whether step 6 fails or not (R198). -/
def HeaderIsParsed (s : State) : Prop :=
  InMemory s s.ops.srcAddr s.ops.srcLen ∧ 20 ≤ s.ops.srcLen.toNat ∧
    byteOf s s.ops.srcAddr 0 = 0x02 ∧ byteOf s s.ops.srcAddr 1 = 0x13 ∧ byteOf s s.ops.srcAddr 2 = 0x03

/-- After the command ran from `before` and from a machine with the same inputs, `s` and `u` agree on everything to which the
spec gives a value computed from those inputs (`30_encoding.md` R84, `60_exceptions.md` R219, R220, `45_header.md` R198). -/
def SameOutputs (i : Instr) (before s u : State) : Prop :=
  s.err = u.err ∧ s.done = u.done ∧ s.pending = u.pending ∧
  match i with
  | .lfsrSeed _ | .lfsrStep _ => s.lfsr = u.lfsr
  | .cksum => s.ckMatch = u.ckMatch ∧ s.cksumExp = u.cksumExp ∧ (s.err = .none → s.cksumRes = u.cksumRes)
  | .decrypt => s.lfsr = u.lfsr ∧ (s.err = .none → s.outLen = u.outLen ∧ SameBytes s u s.ops.dstAddr s.outLen)
  | .decompress => s.dict = u.dict ∧ (s.err = .none → s.outLen = u.outLen ∧ SameBytes s u s.ops.dstAddr s.outLen)
  | .float2 | .float3 => s.err = .none → s.outLen = u.outLen ∧ SameBytes s u s.ops.dstAddr s.outLen
  | .hdrparse =>
    s.hdrValid = u.hdrValid ∧
      (HeaderIsParsed before →
        s.flags = u.flags ∧ s.hdrLen = u.hdrLen ∧ s.origSize = u.origSize ∧ s.dataSize = u.dataSize) ∧
      (s.hdrValid = true →
        (s.flags.getLsbD 7 = true → s.dict = u.dict) ∧ (s.flags.getLsbD 5 = true → s.cksumExp = u.cksumExp))

/-- The operation keeps the owned-range rule (`70_reset_and_hazards.md` R251) in this state: it writes no byte that the
command in flight owns, and reads no byte of its destination. -/
def HostOp.keepsOwnership (op : HostOp) (s : State) : Bool :=
  match op with
  | .memWrite a _ => !s.running.any (fun i => ownsByte i s a)
  | .memRead a => !inRunningDest s a
  | .regWrite _ _ _ | .regRead _ _ | .wait | .reset => true

/-- States a run from `s` can reach. -/
inductive Reaches (s : State) : State → Prop
  | here : Reaches s s
  | after {t u : State} : Reaches s t → step t = .next u → Reaches s u

end Sys2Proof.Machine
end

