-- ==== Sys2Proof/Certificates/Slice0/Obligations.lean ====
section
/-! DEFINITION. The statements for the provers, each from the rules of spec/ its docstring names. A statement about a free
value (log 5) says only that there is a value; it holds for every value. Where a clause rests on the model's own bookkeeping
(`raced`, log 6; the schedule, log 2; the draw counter, log 5) the docstring says so. -/

open Sys2Proof Sys2Proof.Machine

/-! ## Encoding -/

/-- R81, R83: decoding the word of a well-formed command gives the command back, every immediate included. -/
def Obligations.DecodeOfEncode : Prop := ∀ i : Instr, i.wf = true → decode (encode i) = .ok i

/-- R81, R83, R85: a word the decoder accepts is the word of the well-formed command it gives: no other word means it. -/
def Obligations.EncodeOfDecode : Prop := ∀ (w : Word) (i : Instr), decode w = .ok i → encode i = w ∧ i.wf = true

/-- R85: the words the decoder accepts, and the words the issue step accepts, are exactly the legal ones. -/
def Obligations.LegalWordsAreTheDecodableOnes : Prop := ∀ w : Word,
  ((∃ i, decode w = .ok i) ↔
    (w.extractLsb' 0 8 ∈ ([0x01, 0x02, 0x10, 0x20, 0x30, 0x40, 0x41, 0x50] : List Byte) ∧ w.extractLsb' 8 8 = 0 ∧
      (w.extractLsb' 0 8 ∈ ([0x01, 0x02] : List Byte) ∨ w.extractLsb' 16 16 = 0))) ∧
  (legal w = true ↔ ∃ i, decode w = .ok i)

/-- R83, R90: words written out from the opcode map decode to their commands, and R90's illegal words do not decode. -/
def Obligations.WordsOfTheOpcodeMapDecode : Prop :=
  decode 0x13370001 = .ok (.lfsrSeed 0x1337) ∧ decode 0xFFFF0002 = .ok (.lfsrStep 65535) ∧
  decode 0x00000010 = .ok .cksum ∧ decode 0x00000020 = .ok .decrypt ∧ decode 0x00000030 = .ok .decompress ∧
  decode 0x00000040 = .ok .float2 ∧ decode 0x00000041 = .ok .float3 ∧ decode 0x00000050 = .ok .hdrparse ∧
  decode 0x00010010 = .error .immediateNotTaken ∧ decode 0x00000110 = .error .reservedField ∧
  decode 0x00000000 = .error .reservedOpcode

/-! ## The issue step and the registers -/

/-- R215: the issue step of word `w`, run by a host write to CMD while BUSY is 0. (`raced := false`: the model's own
bookkeeping, log 6; an idle machine of the invariant has it false already.) -/
def Obligations.IssueStepOfCmdWrite : Prop := ∀ (s : State) (w : Word) (rest : List HostOp),
  s.pending = none → s.host.script = .regWrite 32 0x00 w :: rest →
  ((∃ i, decode w = .ok i) → step s = .next { s with
    cmd := w, done := false, err := .none, pending := some w, raced := false, host := { s.host with script := rest } }) ∧
  ((¬∃ i, decode w = .ok i) → step s = .next { s with
    cmd := w, done := true, err := .illegal, host := { s.host with script := rest } })

/-- R217: an illegal word changes CMD, ERR and DONE and nothing else. -/
def Obligations.IllegalWordDoesNothingElse : Prop := ∀ (s : State) (w : Word),
  s.pending = none → (∀ i, encode i ≠ w) →
  hostOp (.regWrite 32 0x00 w) s = .next { s with cmd := w, err := .illegal, done := true }

/-- R250: under BUSY a write to any register but STATUS (CMD included) is dropped and sets HAZ. A read of any offset is
allowed, BUSY or not: the host notes the register's value (what `regRead` is for each register: StatusWordLayout,
HalfWriteKeepsTheOtherHalf, AccessTypesOfRegisters, DictionaryPacking, ReservedOffsetsAreHarmless) and nothing changes. -/
def Obligations.BusyRegisterWriteIsDropped : Prop := ∀ (s : State) (off : Nat) (w : Word),
  (s.pending ≠ none → ∀ r, regAt off = some r → r ≠ .status →
    hostOp (.regWrite 32 off w) s = .next { s with haz := true }) ∧
  (off % 4 = 0 → off < 0x100 → hostOp (.regRead 32 off) s =
    .next { s with host := { s.host with log := .reg off (regRead s off) :: s.host.log } })

/-- R22: the register map; every other offset is reserved. -/
def Obligations.RegisterMapOffsets : Prop :=
  [0x00, 0x04, 0x08, 0x0C, 0x10, 0x14, 0x18].map regAt =
    [some .cmd, some .status, some .lfsrState, some .cksumExp, some .cksumRes, some .flags, some .hdrLen] ∧
  [0x20, 0x28, 0x30, 0x38, 0x40, 0x48, 0x50, 0x58, 0x60, 0x68, 0x70].map regAt =
    ([.srcAddr, .srcLen, .src2Addr, .src2Len, .src3Addr, .src3Len, .dstAddr, .dstCap, .outLen, .origSize, .dataSize] :
      List Reg64).map (fun r => some (.wide r .lo)) ∧
  [0x24, 0x2C, 0x34, 0x3C, 0x44, 0x4C, 0x54, 0x5C, 0x64, 0x6C, 0x74].map regAt =
    ([.srcAddr, .srcLen, .src2Addr, .src2Len, .src3Addr, .src3Len, .dstAddr, .dstCap, .outLen, .origSize, .dataSize] :
      List Reg64).map (fun r => some (.wide r .hi)) ∧
  [0x80, 0x84, 0x88, 0x8C].map regAt = [some (.dict 0), some (.dict 1), some (.dict 2), some (.dict 3)] ∧
  ∀ off, (off % 4 ≠ 0 ∨ off = 0x1C ∨ off = 0x78 ∨ off = 0x7C ∨ 0x90 ≤ off) → regAt off = none

/-- R43: a reserved offset reads 0; a write there is ignored and never sets HAZ, even under BUSY. -/
def Obligations.ReservedOffsetsAreHarmless : Prop := ∀ (s : State) (off : Nat) (w : Word),
  (off = 0x1C ∨ off = 0x78 ∨ off = 0x7C ∨ 0x90 ≤ off ∧ off ≤ 0xFC ∧ off % 4 = 0) →
  hostOp (.regRead 32 off) s = .next { s with host := { s.host with log := .reg off 0 :: s.host.log } } ∧
  hostOp (.regWrite 32 off w) s = .next s

/-- R32: a write to STATUS, BUSY or not, clears HAZ when bit 2 is 1 and changes nothing else; a read notes the STATUS
word and changes nothing of the block. -/
def Obligations.StatusWriteClearsOnlyHaz : Prop := ∀ (s : State) (w : Word),
  (w.getLsbD 2 = true → hostOp (.regWrite 32 0x04 w) s = .next { s with haz := false }) ∧
  (w.getLsbD 2 = false → hostOp (.regWrite 32 0x04 w) s = .next s) ∧
  hostOp (.regRead 32 0x04) s = .next { s with host := { s.host with log := .reg 0x04 (regRead s 0x04) :: s.host.log } }

/-- R25, R216, R44 (`90_conflicts.md` C9): the STATUS word bit by bit, the ERR codes, BUSY from PENDING. -/
def Obligations.StatusWordLayout : Prop := ∀ s : State,
  (regRead s 0x04).getLsbD 0 = s.pending.isSome ∧ (regRead s 0x04).getLsbD 1 = s.done ∧
  (regRead s 0x04).getLsbD 2 = s.haz ∧ (regRead s 0x04).getLsbD 3 = false ∧
  (regRead s 0x04).extractLsb' 4 4 = (match s.err with
    | .none => 0 | .illegal => 1 | .range => 2 | .overlap => 3 | .lane => 4 | .capacity => 5) ∧
  (regRead s 0x04).getLsbD 8 = s.ckMatch ∧ (regRead s 0x04).getLsbD 9 = s.hdrValid ∧
  ∀ j, 10 ≤ j → (regRead s 0x04).getLsbD j = false

/-- R40: every 64-bit register reads as its `lo` word (bits 31:0), and at offset + 4 its `hi` word (bits 63:32); a write to one
half of an operand register sets that half and leaves the other half, and everything else, unchanged. -/
def Obligations.HalfWriteKeepsTheOtherHalf : Prop :=
  (∀ (s : State) (r : Reg64), regOffset (.wide r .hi) = regOffset (.wide r .lo) + 4 ∧
    regRead s (regOffset (.wide r .lo)) = (getWide s r).extractLsb' 0 32 ∧
    regRead s (regOffset (.wide r .hi)) = (getWide s r).extractLsb' 32 32) ∧
  ∀ (s : State) (r : Reg64) (w : Word), s.pending = none → r ∉ ([.outLen, .origSize, .dataSize] : List Reg64) →
  (∃ t, hostOp (.regWrite 32 (regOffset (.wide r .lo)) w) s = .next t ∧ t = { s with ops := t.ops } ∧
    (getWide t r).extractLsb' 0 32 = w ∧ (getWide t r).extractLsb' 32 32 = (getWide s r).extractLsb' 32 32 ∧
    ∀ q, q ≠ r → getWide t q = getWide s q) ∧
  (∃ t, hostOp (.regWrite 32 (regOffset (.wide r .hi)) w) s = .next t ∧ t = { s with ops := t.ops } ∧
    (getWide t r).extractLsb' 32 32 = w ∧ (getWide t r).extractLsb' 0 32 = (getWide s r).extractLsb' 0 32 ∧
    ∀ q, q ≠ r → getWide t q = getWide s q)

/-- R23: with BUSY 0, RO registers ignore a write, and the 16-bit RW registers take the used bits and read back with the unused
bits 0. BUSY or not, every register of less than 32 bits, CMD and HDR_LEN read as their value. -/
def Obligations.AccessTypesOfRegisters : Prop := ∀ (s : State) (w : Word),
  (s.pending = none →
    (∀ off ∈ [0x10, 0x14, 0x18, 0x60, 0x64, 0x68, 0x6C, 0x70, 0x74], hostOp (.regWrite 32 off w) s = .next s) ∧
    (∃ t, hostOp (.regWrite 32 0x08 w) s = .next t ∧ t = { s with lfsr := w.extractLsb' 0 16 } ∧
      regRead t 0x08 = w &&& 0xFFFF) ∧
    (∃ t, hostOp (.regWrite 32 0x0C w) s = .next t ∧ t = { s with cksumExp := w.extractLsb' 0 16 } ∧
      regRead t 0x0C = w &&& 0xFFFF)) ∧
  regRead s 0x00 = s.cmd ∧ (regRead s 0x08).toNat = s.lfsr.toNat ∧ (regRead s 0x0C).toNat = s.cksumExp.toNat ∧
  (regRead s 0x10).toNat = s.cksumRes.toNat ∧ (regRead s 0x14).toNat = s.flags.toNat ∧ regRead s 0x18 = s.hdrLen

/-- R42: DICTk holds dict[4k+j] in bits 8j+7:8j, BUSY or not, and with BUSY 0 a write of DICTk sets those four bytes and no
others. -/
def Obligations.DictionaryPacking : Prop := ∀ (s : State) (w : Word) (k : Fin 4),
  (∀ j : Fin 4, (regRead s (0x80 + 4 * k.val)).extractLsb' (8 * j.val) 8 = s.dict[4 * k.val + j.val]) ∧
  (s.pending = none →
    ∃ t, hostOp (.regWrite 32 (0x80 + 4 * k.val) w) s = .next t ∧ t = { s with dict := t.dict } ∧
      (∀ j : Fin 4, t.dict[4 * k.val + j.val] = w.extractLsb' (8 * j.val) 8) ∧
      ∀ i : Fin 16, i.val / 4 ≠ k.val → t.dict[i.val] = s.dict[i.val])

/-- R80, R233: an access of the wrong width, misaligned or at 0x100 or above is refused as a host error; every other access is
served, a read with the register's value and no other effect. (That the refusal ends the run: log 8.) -/
def Obligations.BadAccessesAreRefused : Prop := ∀ (s : State) (width off : Nat) (w : Word),
  (¬(width = 32 ∧ off % 4 = 0 ∧ off < 0x100) →
    (∃ e, hostOp (.regWrite width off w) s = .refused (.hostAccess e)) ∧
    ∃ e, hostOp (.regRead width off) s = .refused (.hostAccess e)) ∧
  (width = 32 ∧ off % 4 = 0 ∧ off < 0x100 →
    (∃ t, hostOp (.regWrite width off w) s = .next t) ∧ hostOp (.regRead width off) s =
      .next { s with host := { s.host with log := .reg off (regRead s off) :: s.host.log } })

/-- R89 (`wr64`) over R40: its two bus writes set the whole 64-bit register and nothing else. -/
def Obligations.WriteSixtyFourSetsTheRegister : Prop := ∀ (s : State) (r : Reg64) (v : U64),
  s.pending = none → r ∉ ([.outLen, .origSize, .dataSize] : List Reg64) →
  ∃ a b t u, expandStmt (.wr64 r v) = [a, b] ∧ hostOp a s = .next t ∧ hostOp b t = .next u ∧
    u = { s with ops := u.ops } ∧ getWide u r = v ∧ ∀ q, q ≠ r → getWide u q = getWide s q

/-- R60, R69: a host write to buffer memory of an idle machine changes that byte alone and a host read gives the byte (under
BUSY: OwnedRangesUnderBusy); BUSY or not, an address at or above MEM_SIZE does not exist (that it faults: log 9). -/
def Obligations.HostMemoryAccess : Prop := ∀ (s : State) (a : Nat) (v : Byte),
  (s.pending = none → a ≤ s.params.memTop.toNat →
    (∃ t, hostOp (.memWrite a v) s = .next t ∧ t = { s with mem := t.mem } ∧
      ∀ b, t.mem.read b = if b = a then v else s.mem.read b) ∧
    hostOp (.memRead a) s = .next { s with host := { s.host with log := .mem a (s.mem.read a) :: s.host.log } }) ∧
  (s.params.memTop.toNat < a →
    hostOp (.memWrite a v) s = .fault .noSuchAddress ∧ hostOp (.memRead a) s = .fault .noSuchAddress)

/-! ## The step, reset and the invariant -/

/-- R15, R219: a step is the completion step of the pending command or the host's next operation. With nothing left for the
host, or `wait` next (R89), the core moves; where both may move, the schedule says, and the core when it is used up (log 2);
an idle machine stays as it is (R232), and `wait` there leaves the state as it is but for being taken (R89; log 12). -/
def Obligations.StepRunsThePendingCommand : Prop := ∀ (s : State) (w : Word) (i : Instr),
  (s.pending = some w → decode w = .ok i →
    (s.host.script = [] → step s = exec i s) ∧
    (∀ rest, s.host.script = .wait :: rest → step s = exec i s) ∧
    (∀ op rest, s.host.script = op :: rest → op ≠ .wait →
      (s.host.sched = [] → step s = exec i s) ∧
      (∀ q, s.host.sched = .core :: q → step s = exec i { s with host := { s.host with sched := q } }) ∧
      (∀ q, s.host.sched = .host :: q →
        step s = hostOp op { s with host := { s.host with script := rest, sched := q } }))) ∧
  (s.pending = none →
    (s.host.script = [] → step s = .next s) ∧
    ∀ op rest, s.host.script = op :: rest → step s = hostOp op { s with host := { s.host with script := rest } }) ∧
  hostOp .wait s = .next s

/-- The placed word of a command is run by the very next step, from the state its issue step leaves (R215; log 10). -/
def Obligations.PlacedWordRunsNext : Prop := ∀ (s : State) (w : Nat) (i : Instr),
  w < 2 ^ 32 → decodeTableWord 32 w = some i →
  ∃ h, step (s.withFetchWord 32 w) = exec i { s with
    cmd := BitVec.ofNat 32 w, pending := some (BitVec.ofNat 32 w), done := false, err := .none, raced := false, host := h }

/-- Every step keeps the invariant: memory canonical and inside MEM_SIZE, and what is in flight is legal, is CMD, and has
DONE = 0 and ERR = NONE (R24, R27, R29, R44, R60). -/
def Obligations.StepKeepsInvariant : Prop := ∀ s t : State, s.Inv → step s = .next t → t.Inv

/-- The machine right after reset meets the invariant. -/
def Obligations.ResetMeetsInvariant : Prop := State.reset.Inv

/-- R46, R240: the reset input puts every register at its reset value, with LFSR_STATE 0x1337 and PENDING none, and changes no
byte of buffer memory outside the destination range of a command in flight. That it keeps the host's side and the parameters,
and frees no byte for an abandoned command without a destination, is the model's reading of R240 (log 14, DEDUCED). -/
def Obligations.ResetInputSetsEveryRegister : Prop := ∀ s : State,
  ∃ t, hostOp .reset s = .next t ∧ t.pending = none ∧ t.cmd = 0 ∧ t.lfsr = 0x1337 ∧ t.done = false ∧ t.haz = false ∧
    t.err = .none ∧ t.ckMatch = false ∧ t.hdrValid = false ∧ t.cksumExp = 0 ∧ t.cksumRes = 0 ∧ t.flags = 0 ∧ t.hdrLen = 0 ∧
    t.ops = ⟨0, 0, 0, 0, 0, 0, 0, 0⟩ ∧ t.outLen = 0 ∧ t.origSize = 0 ∧ t.dataSize = 0 ∧ (∀ i : Fin 16, t.dict[i.val] = 0) ∧
    t.params = s.params ∧ t.host = s.host ∧
    (s.pending = none → t.mem = s.mem) ∧
    ∀ w i, s.pending = some w → decode w = .ok i →
      ∀ a, ¬(HasDestination i ∧ InRange s.ops.dstAddr s.ops.dstCap a) → t.mem.read a = s.mem.read a

/-- R22, R46: the machine right after reset, read over the bus: LFSR_STATE reads 0x1337 and every other offset 0; no byte of
memory is listed (log 4). -/
def Obligations.ResetStateReadsAsTheMap : Prop :=
  regRead State.reset 0x08 = 0x1337 ∧ (∀ off, off ≠ 0x08 → regRead State.reset off = 0) ∧
  State.reset.pending = none ∧ State.reset.mem = []

/-! ## LFSR -/

/-- R113: LFSR.SEED sets LFSR_STATE, 0 included, and touches nothing else but the completion record; at 0 the generator is at
its fixed point: every LFSR.STEP leaves 0 and every keystream word is 0; a host write of LFSR_STATE sets it too and no
DONE. -/
def Obligations.SeedSetsTheState : Prop :=
  (∀ (seed : U16) (s : State), exec (.lfsrSeed seed) s =
    .next { s with lfsr := seed, pending := none, done := true, err := .none, raced := false }) ∧
  (∀ (n : Nat) (s : State), s.lfsr = 0 → ∃ t, exec (.lfsrStep n) s = .next t ∧ t.lfsr = 0) ∧
  (∀ n : Nat, step16^[n] 0 = 0) ∧
  (∀ (s : State) (seed : U16), s.pending = none →
    hostOp (.regWrite 32 0x08 (seed.zeroExtend 32)) s = .next { s with lfsr := seed })

/-- R116: LFSR.STEP applies `step16` IMM16 times, from 0 (which leaves LFSR_STATE unchanged) on, and touches nothing else but
the completion record. -/
def Obligations.StepAppliesTheTransition : Prop := ∀ (n : Nat) (s : State),
  exec (.lfsrStep n) s =
    .next { s with lfsr := step16^[n] s.lfsr, pending := none, done := true, err := .none, raced := false }

/-- R111: bit 15 of the new state is bit0 XOR bit6 XOR bit9 XOR bit13 of the old one, every other bit the next higher bit of
the old one; equally `(s >> 1) | (new_bit << 15)`. -/
def Obligations.TransitionBits : Prop := ∀ s : U16,
  (step16 s).getLsbD 15 = (s.getLsbD 0 ^^ s.getLsbD 6 ^^ s.getLsbD 9 ^^ s.getLsbD 13) ∧
  (∀ j, j < 15 → (step16 s).getLsbD j = s.getLsbD (j + 1)) ∧
  step16 s = (s >>> 1) ||| (((s ^^^ (s >>> 6) ^^^ (s >>> 9) ^^^ (s >>> 13)) &&& 1) <<< 15)

/-- R120: `step16` is a bijection with the inverse `{t[14:0], t[15] ^ t[5] ^ t[8] ^ t[12]}`; the only predecessor of 0 is 0;
the predecessor of 0x1337 is 0x266F, the state 65534 steps after it. -/
def Obligations.TransitionInverse : Prop :=
  (∀ s t : U16, step16 s = t ↔
    s = (t.extractLsb' 0 15 ++ BitVec.ofBool (t.getLsbD 15 ^^ t.getLsbD 5 ^^ t.getLsbD 8 ^^ t.getLsbD 12) : BitVec 16)) ∧
  (∀ s : U16, step16 s = 0 ↔ s = 0) ∧ step16 0x266F = 0x1337 ∧ step16^[65534] 0x1337 = 0x266F

/-- R119 (`90_conflicts.md` C2): the generator is maximal-length. From 0x1337 the first return is after 65535 steps, every
nonzero state is visited and 0 never; every nonzero state has period 65535, so LFSR.STEP with count 65535 leaves it. -/
def Obligations.MaximalPeriod : Prop :=
  step16^[65535] 0x1337 = 0x1337 ∧ (∀ k, 0 < k → k < 65535 → step16^[k] 0x1337 ≠ 0x1337) ∧
  (∀ s : U16, s ≠ 0 ↔ ∃ k, k < 65535 ∧ step16^[k] 0x1337 = s) ∧
  (∀ s : U16, s ≠ 0 → step16^[65535] s = s ∧ ∀ k, 0 < k → k < 65535 → step16^[k] s ≠ s) ∧
  ∀ s : State, exec (.lfsrStep 65535) s = .next { s with pending := none, done := true, err := .none, raced := false }

/-! ## CKSUM -/

/-- R101, R102: CKSUM writes the sum of the bytes modulo 65536 and whether it equals CKSUM_EXP; nothing else but the
completion record changes, no byte of memory among it. -/
def Obligations.ChecksumResult : Prop := ∀ s : State,
  s.raced = false → InMemory s s.ops.srcAddr s.ops.srcLen →
  ∃ sum : U16, sum.toNat = ((List.range s.ops.srcLen.toNat).map (fun i => (byteOf s s.ops.srcAddr i).toNat)).sum % 65536 ∧
    exec .cksum s = .next { s with
      cksumRes := sum, ckMatch := decide (sum = s.cksumExp), pending := none, done := true, err := .none }

/-- R103: a source out of range raises RANGE: CK_MATCH is 0, CKSUM_RES and everything else unchanged. -/
def Obligations.ChecksumRangeFault : Prop := ∀ s : State,
  s.raced = false → ¬InMemory s s.ops.srcAddr s.ops.srcLen →
  exec .cksum s = .next { s with ckMatch := false, pending := none, done := true, err := .range }

/-- R104: the sum does not depend on the order of the bytes. -/
def Obligations.ChecksumIgnoresOrder : Prop := ∀ s t s' t' : State,
  s.raced = false → t.raced = false →
  InMemory s s.ops.srcAddr s.ops.srcLen → InMemory t t.ops.srcAddr t.ops.srcLen →
  List.Perm ((List.range s.ops.srcLen.toNat).map (byteOf s s.ops.srcAddr))
    ((List.range t.ops.srcLen.toNat).map (byteOf t t.ops.srcAddr)) →
  exec .cksum s = .next s' → exec .cksum t = .next t' → s'.cksumRes = t'.cksumRes

/-! ## DECRYPT -/

/-- R131, R132, R69: on success byte `i` of the output is byte `i` of the source XOR the low (even `i`) or high (odd `i`) byte
of keystream word `i/2 + 1`, a dangling last byte taking the low byte of word `i/2`; the final state is
`step16^floor(SRC_LEN/2)(key)`; OUT_LEN is SRC_LEN; no other byte of memory and nothing else but the completion record
changes. -/
def Obligations.DecryptResult : Prop := ∀ s : State,
  s.raced = false → SrcDstReady s → s.ops.srcLen.toNat ≤ s.ops.dstCap.toNat →
  ∃ t, exec .decrypt s = .next t ∧
    t = { s with
      mem := t.mem, lfsr := step16^[s.ops.srcLen.toNat / 2] s.lfsr, outLen := s.ops.srcLen
      pending := none, done := true, err := .none } ∧
    (∀ i, i < s.ops.srcLen.toNat → byteOf t s.ops.dstAddr i = byteOf s s.ops.srcAddr i ^^^
      (if i % 2 = 1 then (step16^[i / 2 + 1] s.lfsr).extractLsb' 8 8
       else if i + 1 < s.ops.srcLen.toNat then (step16^[i / 2 + 1] s.lfsr).extractLsb' 0 8
       else (step16^[i / 2] s.lfsr).extractLsb' 0 8)) ∧
    ∀ a, ¬InRange s.ops.dstAddr s.ops.srcLen a → t.mem.read a = s.mem.read a

/-- R134, R218, R220: DECRYPT's errors in their order; a faulted DECRYPT leaves memory, LFSR_STATE and everything else but
OUT_LEN (any value) and the completion record unchanged. -/
def Obligations.DecryptFaults : Prop := ∀ s : State, s.raced = false →
  ¬(SrcDstReady s ∧ s.ops.srcLen.toNat ≤ s.ops.dstCap.toNat) →
  ∃ v d e, exec .decrypt s =
      .next { s with outLen := v, draws := d, pending := none, done := true, err := e } ∧
    (¬(InMemory s s.ops.srcAddr s.ops.srcLen ∧ InMemory s s.ops.dstAddr s.ops.dstCap) → e = .range) ∧
    (InMemory s s.ops.srcAddr s.ops.srcLen → InMemory s s.ops.dstAddr s.ops.dstCap →
      Overlap s.ops.dstAddr s.ops.dstCap s.ops.srcAddr s.ops.srcLen → e = .overlap) ∧
    (SrcDstReady s → e = .capacity)

/-- R133: DECRYPT is its own inverse, for every length: run over its own output with the same starting LFSR_STATE it gives the
input back. -/
def Obligations.DecryptTwiceRestores : Prop := ∀ (s s₁ : State) (q : Operands),
  s.raced = false → SrcDstReady s → s.ops.srcLen.toNat ≤ s.ops.dstCap.toNat → exec .decrypt s = .next s₁ →
  q.srcAddr = s.ops.dstAddr → q.srcLen = s₁.outLen → q.srcLen.toNat ≤ q.dstCap.toNat →
  SrcDstReady { s₁ with ops := q, lfsr := s.lfsr } →
  ∃ t, exec .decrypt { s₁ with ops := q, lfsr := s.lfsr } = .next t ∧ t.err = .none ∧ t.outLen = s.ops.srcLen ∧
    ∀ i, i < s.ops.srcLen.toNat → byteOf t q.dstAddr i = byteOf s s.ops.srcAddr i

/-- R136, R131: a DECRYPT of P (machine `s`), then a DECRYPT of Q from the LFSR_STATE it left (machine `v`), against one DECRYPT
of P ++ Q from the first LFSR_STATE (machine `u`). If P has even length the outputs, the final state and the lengths agree. If
it has odd length and Q is not empty, the dangling byte of P uses a word without the further step it gets in P ++ Q, and Q
starts one byte out of phase: with the low byte of a word where P ++ Q uses the high byte. -/
def Obligations.KeystreamContinues : Prop := ∀ s v u s' v' u' : State,
  DecryptReady s → DecryptReady v → DecryptReady u →
  exec .decrypt s = .next s' → v.lfsr = s'.lfsr → exec .decrypt v = .next v' →
  u.lfsr = s.lfsr → u.ops.srcLen.toNat = s.ops.srcLen.toNat + v.ops.srcLen.toNat →
  (∀ i, i < s.ops.srcLen.toNat → byteOf u u.ops.srcAddr i = byteOf s s.ops.srcAddr i) →
  (∀ j, j < v.ops.srcLen.toNat → byteOf u u.ops.srcAddr (s.ops.srcLen.toNat + j) = byteOf v v.ops.srcAddr j) →
  exec .decrypt u = .next u' →
  (s.ops.srcLen.toNat % 2 = 0 →
    (∀ i, i < s.ops.srcLen.toNat → byteOf u' u.ops.dstAddr i = byteOf s' s.ops.dstAddr i) ∧
    (∀ j, j < v.ops.srcLen.toNat → byteOf u' u.ops.dstAddr (s.ops.srcLen.toNat + j) = byteOf v' v.ops.dstAddr j) ∧
    u'.lfsr = v'.lfsr ∧ u'.outLen.toNat = s'.outLen.toNat + v'.outLen.toNat) ∧
  (s.ops.srcLen.toNat % 2 = 1 → 0 < v.ops.srcLen.toNat →
    let k := s.ops.srcLen.toNat / 2
    byteOf s' s.ops.dstAddr (2 * k) = byteOf s s.ops.srcAddr (2 * k) ^^^ (step16^[k] s.lfsr).extractLsb' 0 8 ∧
    byteOf u' u.ops.dstAddr (2 * k) = byteOf s s.ops.srcAddr (2 * k) ^^^ (step16^[k + 1] s.lfsr).extractLsb' 0 8 ∧
    byteOf v' v.ops.dstAddr 0 = byteOf v v.ops.srcAddr 0 ^^^
      (step16^[if v.ops.srcLen.toNat = 1 then k else k + 1] s.lfsr).extractLsb' 0 8 ∧
    byteOf u' u.ops.dstAddr (2 * k + 1) = byteOf v v.ops.srcAddr 0 ^^^ (step16^[k + 1] s.lfsr).extractLsb' 8 8)

/-! ## DECOMPRESS -/

/-- R147, R148, R69: on success the output is R146's token table applied to the source, OUT_LEN its length, no other byte of
memory and nothing else but the completion record changed. -/
def Obligations.DecompressResult : Prop := ∀ (s : State) (out : List Byte),
  s.raced = false → SrcDstReady s →
  out = expandTokens s.dict ((List.range s.ops.srcLen.toNat).map (byteOf s s.ops.srcAddr)) →
  out.length ≤ s.ops.dstCap.toNat →
  ∃ t, exec .decompress s = .next t ∧
    t = { s with mem := t.mem, outLen := t.outLen, pending := none, done := true, err := .none } ∧
    t.outLen.toNat = out.length ∧ (∀ i (h : i < out.length), byteOf t s.ops.dstAddr i = out[i]) ∧
    ∀ a, ¬InRange s.ops.dstAddr t.outLen a → t.mem.read a = s.mem.read a

/-- R150: OUT_LEN is the sum over the tokens of their output lengths (1 for a literal or an escaped 0x07, x[7:4] for a run
pair), and CAPACITY is raised exactly when that sum exceeds DST_CAP. -/
def Obligations.DecompressCapacityIsExact : Prop := ∀ s : State, s.raced = false → SrcDstReady s →
  ∃ t, exec .decompress s = .next t ∧
    (t.err = .capacity ↔
      s.ops.dstCap.toNat < tokenSum ((List.range s.ops.srcLen.toNat).map (byteOf s s.ops.srcAddr))) ∧
    (t.err = .none ↔
      tokenSum ((List.range s.ops.srcLen.toNat).map (byteOf s s.ops.srcAddr)) ≤ s.ops.dstCap.toNat) ∧
    (t.err = .none →
      t.outLen.toNat = tokenSum ((List.range s.ops.srcLen.toNat).map (byteOf s s.ops.srcAddr)))

/-- R149, R220, R222: DECOMPRESS's RANGE and OVERLAP, in that order, change no byte of memory; its CAPACITY changes none
outside the destination range; OUT_LEN is any value; everything else but the completion record is unchanged. -/
def Obligations.DecompressFaults : Prop := ∀ s : State, s.raced = false →
  (¬SrcDstReady s → ∃ v d e, exec .decompress s =
      .next { s with outLen := v, draws := d, pending := none, done := true, err := e } ∧
    (¬(InMemory s s.ops.srcAddr s.ops.srcLen ∧ InMemory s s.ops.dstAddr s.ops.dstCap) → e = .range) ∧
    (InMemory s s.ops.srcAddr s.ops.srcLen → InMemory s s.ops.dstAddr s.ops.dstCap → e = .overlap)) ∧
  (SrcDstReady s →
    s.ops.dstCap.toNat < (expandTokens s.dict ((List.range s.ops.srcLen.toNat).map (byteOf s s.ops.srcAddr))).length →
    ∃ t, exec .decompress s = .next t ∧
      t = { s with mem := t.mem, outLen := t.outLen, draws := t.draws, pending := none, done := true, err := .capacity } ∧
      ∀ a, ¬InRange s.ops.dstAddr s.ops.dstCap a → t.mem.read a = s.mem.read a)

/-- R152: a stream of literals (no byte 0x07) that fits decompresses to itself. -/
def Obligations.LiteralsPassThrough : Prop := ∀ s : State, s.raced = false → SrcDstReady s →
  (∀ i, i < s.ops.srcLen.toNat → byteOf s s.ops.srcAddr i ≠ 0x07) → s.ops.srcLen.toNat ≤ s.ops.dstCap.toNat →
  ∃ t, exec .decompress s = .next t ∧ t.err = .none ∧ t.outLen = s.ops.srcLen ∧
    ∀ i, i < s.ops.srcLen.toNat → byteOf t s.ops.dstAddr i = byteOf s s.ops.srcAddr i

/-! ## FLOAT2 and FLOAT3 -/

/-- R167 to R169, R172: float k of FLOAT2 is the little-endian word {A[3k+2][7], B[k], A[3k+2][6:0], A[3k+1], A[3k]} at
DST_ADDR + 4k; OUT_LEN is 4n; no other byte of memory and nothing else but the completion record changes. -/
def Obligations.Float2Words : Prop := ∀ (s : State) (n : Nat), s.raced = false →
  InMemory s s.ops.srcAddr s.ops.srcLen → InMemory s s.ops.src2Addr s.ops.src2Len →
  InMemory s s.ops.dstAddr s.ops.dstCap →
  ¬Overlap s.ops.dstAddr s.ops.dstCap s.ops.srcAddr s.ops.srcLen →
  ¬Overlap s.ops.dstAddr s.ops.dstCap s.ops.src2Addr s.ops.src2Len →
  s.ops.srcLen.toNat = 3 * n → s.ops.src2Len.toNat = n → 4 * n ≤ s.ops.dstCap.toNat →
  ∃ t, exec .float2 s = .next t ∧
    t = { s with mem := t.mem, outLen := BitVec.ofNat 64 (4 * n), pending := none, done := true, err := .none } ∧
    (∀ k, k < n →
      (byteOf t s.ops.dstAddr (4 * k + 3) ++ byteOf t s.ops.dstAddr (4 * k + 2) ++ byteOf t s.ops.dstAddr (4 * k + 1) ++
        byteOf t s.ops.dstAddr (4 * k) : BitVec 32) =
      ((byteOf s s.ops.srcAddr (3 * k + 2)).extractLsb' 7 1 ++ byteOf s s.ops.src2Addr k ++
        (byteOf s s.ops.srcAddr (3 * k + 2)).extractLsb' 0 7 ++ byteOf s s.ops.srcAddr (3 * k + 1) ++
        byteOf s s.ops.srcAddr (3 * k) : BitVec 32)) ∧
    ∀ a, ¬(s.ops.dstAddr.toNat ≤ a ∧ a < s.ops.dstAddr.toNat + 4 * n) → t.mem.read a = s.mem.read a

/-- R170, R218, R220: FLOAT2's errors in their order; a faulted FLOAT2 changes nothing but OUT_LEN (any value) and the
completion record. -/
def Obligations.Float2Faults : Prop := ∀ s : State, s.raced = false →
  let inMem := InMemory s s.ops.srcAddr s.ops.srcLen ∧ InMemory s s.ops.src2Addr s.ops.src2Len ∧
    InMemory s s.ops.dstAddr s.ops.dstCap
  let clash := Overlap s.ops.dstAddr s.ops.dstCap s.ops.srcAddr s.ops.srcLen ∨
    Overlap s.ops.dstAddr s.ops.dstCap s.ops.src2Addr s.ops.src2Len
  let lanes := s.ops.srcLen.toNat % 3 = 0 ∧ s.ops.src2Len.toNat = s.ops.srcLen.toNat / 3
  let fits := 4 * (s.ops.srcLen.toNat / 3) ≤ s.ops.dstCap.toNat
  ¬(inMem ∧ ¬clash ∧ lanes ∧ fits) →
  ∃ v d e, exec .float2 s =
      .next { s with outLen := v, draws := d, pending := none, done := true, err := e } ∧
    (¬inMem → e = .range) ∧ (inMem → clash → e = .overlap) ∧ (inMem → ¬clash → ¬lanes → e = .lane) ∧
    (inMem → ¬clash → lanes → e = .capacity)

/-- R175 to R177: float k of FLOAT3 is the little-endian word {sign, EX[k], FR[3k+2][6:0], FR[3k+1], FR[3k]} at DST_ADDR + 4k,
the sign taken from the sign lane by SIGN_PACK; OUT_LEN is 4n; no other byte of memory and nothing else but the completion
record changes. For every SIGN_PACK. -/
def Obligations.Float3Words : Prop := ∀ (s : State) (n : Nat), s.raced = false →
  InMemory s s.ops.srcAddr s.ops.srcLen → InMemory s s.ops.src2Addr s.ops.src2Len →
  InMemory s s.ops.src3Addr s.ops.src3Len → InMemory s s.ops.dstAddr s.ops.dstCap →
  ¬Overlap s.ops.dstAddr s.ops.dstCap s.ops.srcAddr s.ops.srcLen →
  ¬Overlap s.ops.dstAddr s.ops.dstCap s.ops.src2Addr s.ops.src2Len →
  ¬Overlap s.ops.dstAddr s.ops.dstCap s.ops.src3Addr s.ops.src3Len →
  s.ops.srcLen.toNat = 3 * n → s.ops.src2Len.toNat = n →
  s.ops.src3Len.toNat = (match s.params.signPack with
    | .byteBit0 => n | .bitsLsbFirst => (n + 7) / 8 | .bitsMsbFirst => (n + 7) / 8) →
  4 * n ≤ s.ops.dstCap.toNat →
  ∃ t, exec .float3 s = .next t ∧
    t = { s with mem := t.mem, outLen := BitVec.ofNat 64 (4 * n), pending := none, done := true, err := .none } ∧
    (∀ k, k < n →
      (byteOf t s.ops.dstAddr (4 * k + 3) ++ byteOf t s.ops.dstAddr (4 * k + 2) ++ byteOf t s.ops.dstAddr (4 * k + 1) ++
        byteOf t s.ops.dstAddr (4 * k) : BitVec 32) =
      (BitVec.ofBool (match s.params.signPack with
          | .byteBit0 => (byteOf s s.ops.src3Addr k).getLsbD 0
          | .bitsLsbFirst => (byteOf s s.ops.src3Addr (k / 8)).getLsbD (k % 8)
          | .bitsMsbFirst => (byteOf s s.ops.src3Addr (k / 8)).getLsbD (7 - k % 8)) ++
        byteOf s s.ops.src2Addr k ++ (byteOf s s.ops.srcAddr (3 * k + 2)).extractLsb' 0 7 ++
        byteOf s s.ops.srcAddr (3 * k + 1) ++ byteOf s s.ops.srcAddr (3 * k) : BitVec 32)) ∧
    ∀ a, ¬(s.ops.dstAddr.toNat ≤ a ∧ a < s.ops.dstAddr.toNat + 4 * n) → t.mem.read a = s.mem.read a

/-- R178, R218, R220: FLOAT3's errors in their order; a faulted FLOAT3 changes nothing but OUT_LEN (any value) and the
completion record. -/
def Obligations.Float3Faults : Prop := ∀ s : State, s.raced = false →
  let n := s.ops.srcLen.toNat / 3
  let inMem := InMemory s s.ops.srcAddr s.ops.srcLen ∧ InMemory s s.ops.src2Addr s.ops.src2Len ∧
    InMemory s s.ops.src3Addr s.ops.src3Len ∧ InMemory s s.ops.dstAddr s.ops.dstCap
  let clash := Overlap s.ops.dstAddr s.ops.dstCap s.ops.srcAddr s.ops.srcLen ∨
    Overlap s.ops.dstAddr s.ops.dstCap s.ops.src2Addr s.ops.src2Len ∨
    Overlap s.ops.dstAddr s.ops.dstCap s.ops.src3Addr s.ops.src3Len
  let lanes := s.ops.srcLen.toNat % 3 = 0 ∧ s.ops.src2Len.toNat = n ∧
    s.ops.src3Len.toNat = (match s.params.signPack with
      | .byteBit0 => n | .bitsLsbFirst => (n + 7) / 8 | .bitsMsbFirst => (n + 7) / 8)
  let fits := 4 * n ≤ s.ops.dstCap.toNat
  ¬(inMem ∧ ¬clash ∧ lanes ∧ fits) →
  ∃ v d e, exec .float3 s =
      .next { s with outLen := v, draws := d, pending := none, done := true, err := e } ∧
    (¬inMem → e = .range) ∧ (inMem → clash → e = .overlap) ∧ (inMem → ¬clash → ¬lanes → e = .lane) ∧
    (inMem → ¬clash → lanes → e = .capacity)

/-! ## HDRPARSE -/

/-- R191, R193 to R197, R199: a valid header loads FLAGS, the little-endian sizes, HDR_LEN, the dictionary if compressed and
the big-endian checksum if checksummed (DICT or CKSUM_EXP unchanged if not); nothing else but HDR_VALID = 1 and the completion
record changes, no byte of memory among it. -/
def Obligations.ValidHeaderIsLoaded : Prop := ∀ (s : State) (b : Nat → Byte), s.raced = false →
  InMemory s s.ops.srcAddr s.ops.srcLen → b = byteOf s s.ops.srcAddr → 20 ≤ s.ops.srcLen.toNat →
  b 0 = 0x02 → b 1 = 0x13 → b 2 = 0x03 →
  20 + (if (b 3).getLsbD 7 then 16 else 0) + (if (b 3).getLsbD 5 then 2 else 0) ≤ s.ops.srcLen.toNat →
  ∃ t, exec .hdrparse s = .next t ∧
    t = { s with
      flags := b 3, origSize := t.origSize, dataSize := t.dataSize, hdrLen := t.hdrLen, dict := t.dict
      cksumExp := t.cksumExp, hdrValid := true, pending := none, done := true, err := .none } ∧
    t.origSize.toNat = ((List.range 8).map (fun j => (b (4 + j)).toNat * 256 ^ j)).sum ∧
    t.dataSize.toNat = ((List.range 8).map (fun j => (b (12 + j)).toNat * 256 ^ j)).sum ∧
    t.hdrLen.toNat = 20 + (if (b 3).getLsbD 7 then 16 else 0) + (if (b 3).getLsbD 5 then 2 else 0) ∧
    (∀ i : Fin 16, t.dict[i.val] = if (b 3).getLsbD 7 then b (20 + i.val) else s.dict[i.val]) ∧
    ((b 3).getLsbD 5 = false → t.cksumExp = s.cksumExp) ∧
    ((b 3).getLsbD 5 = true → (b 3).getLsbD 7 = true → t.cksumExp.toNat = (b 36).toNat * 256 + (b 37).toNat) ∧
    ((b 3).getLsbD 5 = true → (b 3).getLsbD 7 = false → t.cksumExp.toNat = (b 20).toNat * 256 + (b 21).toNat)

/-- R192, R198 (rows 1 and 2), R199, R221: a source shorter than 20 bytes, or a wrong magic, gives HDR_VALID = 0 with ERR =
NONE; only the header registers (any value) and the completion record change besides. -/
def Obligations.ShortOrForeignHeaderIsInvalid : Prop := ∀ s : State, s.raced = false →
  InMemory s s.ops.srcAddr s.ops.srcLen →
  (s.ops.srcLen.toNat < 20 ∨ byteOf s s.ops.srcAddr 0 ≠ 0x02 ∨ byteOf s s.ops.srcAddr 1 ≠ 0x13 ∨
    byteOf s s.ops.srcAddr 2 ≠ 0x03) →
  ∃ f o dz h dc c d, exec .hdrparse s = .next { s with
    flags := f, origSize := o, dataSize := dz, hdrLen := h, dict := dc, cksumExp := c, draws := d
    hdrValid := false, pending := none, done := true, err := .none }

/-- R194, R195, R198 (row 3): a source shorter than its own header length gives HDR_VALID = 0 with ERR = NONE; FLAGS, the sizes
and HDR_LEN hold the parsed values, DICT and CKSUM_EXP any value. -/
def Obligations.HeaderLongerThanSourceIsInvalid : Prop := ∀ (s : State) (b : Nat → Byte), s.raced = false →
  InMemory s s.ops.srcAddr s.ops.srcLen → b = byteOf s s.ops.srcAddr → 20 ≤ s.ops.srcLen.toNat →
  b 0 = 0x02 → b 1 = 0x13 → b 2 = 0x03 →
  s.ops.srcLen.toNat < 20 + (if (b 3).getLsbD 7 then 16 else 0) + (if (b 3).getLsbD 5 then 2 else 0) →
  ∃ o dz h dc c d, exec .hdrparse s = .next { s with
      flags := b 3, origSize := o, dataSize := dz, hdrLen := h, dict := dc, cksumExp := c, draws := d
      hdrValid := false, pending := none, done := true, err := .none } ∧
    o.toNat = ((List.range 8).map (fun j => (b (4 + j)).toNat * 256 ^ j)).sum ∧
    dz.toNat = ((List.range 8).map (fun j => (b (12 + j)).toNat * 256 ^ j)).sum ∧
    h.toNat = 20 + (if (b 3).getLsbD 7 then 16 else 0) + (if (b 3).getLsbD 5 then 2 else 0)

/-- R200, R220: a source out of range raises RANGE; HDR_VALID is 0 and every header register unchanged. -/
def Obligations.HeaderRangeFault : Prop := ∀ s : State, s.raced = false →
  ¬InMemory s s.ops.srcAddr s.ops.srcLen →
  exec .hdrparse s = .next { s with hdrValid := false, pending := none, done := true, err := .range }

/-! ## All commands, and the two agents -/

/-- R17, R219, R39, R28, R8: every command, raced or not, completes: BUSY 0 and DONE 1; and no command writes an operand
register, CMD, HAZ, a parameter or the host's side. -/
def Obligations.EveryCommandCompletes : Prop := ∀ (i : Instr) (s : State),
  ∃ t, exec i s = .next t ∧ t.pending = none ∧ t.done = true ∧ t.raced = false ∧ t.ops = s.ops ∧ t.cmd = s.cmd ∧
    t.haz = s.haz ∧ t.params = s.params ∧ t.host = s.host

/-- R30, R31, R35, R41, R45, R33: who writes what. Only CKSUM writes CK_MATCH and CKSUM_RES, only HDRPARSE HDR_VALID, FLAGS,
the sizes, HDR_LEN, the dictionary and CKSUM_EXP, only the commands with a destination OUT_LEN, only LFSR.SEED, LFSR.STEP and
DECRYPT LFSR_STATE. -/
def Obligations.RegisterWriters : Prop := ∀ (i : Instr) (s t : State), exec i s = .next t →
  (i ≠ .cksum → t.ckMatch = s.ckMatch ∧ t.cksumRes = s.cksumRes) ∧
  (i ≠ .hdrparse → t.hdrValid = s.hdrValid ∧ t.flags = s.flags ∧ t.origSize = s.origSize ∧ t.dataSize = s.dataSize ∧
    t.hdrLen = s.hdrLen ∧ t.dict = s.dict ∧ t.cksumExp = s.cksumExp) ∧
  (¬HasDestination i → t.outLen = s.outLen) ∧
  ((∀ v, i ≠ .lfsrSeed v) → (∀ n, i ≠ .lfsrStep n) → i ≠ .decrypt → t.lfsr = s.lfsr)

/-- R69, R220, R252: whatever happens, a command changes no byte outside its destination range, and a command without a
destination changes no memory at all. -/
def Obligations.OnlyTheDestinationIsWritten : Prop := ∀ (i : Instr) (s t : State), exec i s = .next t →
  (¬HasDestination i → t.mem = s.mem) ∧
  ∀ a, ¬InRange s.ops.dstAddr s.ops.dstCap a → t.mem.read a = s.mem.read a

/-- R69 (V18): a command with a destination that succeeds writes at most DST_CAP bytes, and the bytes from DST_ADDR + OUT_LEN on
keep their values. -/
def Obligations.SuccessWritesOutLenBytes : Prop := ∀ (i : Instr) (s t : State), HasDestination i → s.raced = false →
  exec i s = .next t → t.err = .none →
  t.outLen.toNat ≤ s.ops.dstCap.toNat ∧ ∀ a, ¬InRange s.ops.dstAddr t.outLen a → t.mem.read a = s.mem.read a

/-- R216, R252: the codes each command can complete with, raced or not (that a raced command may also end with NONE: log 6). -/
def Obligations.CompletionCodesOfEachCommand : Prop := ∀ (i : Instr) (s t : State), exec i s = .next t →
  t.err ∈ (match i with
    | .lfsrSeed _ | .lfsrStep _ => [.none]
    | .cksum | .hdrparse => [.none, .range]
    | .decrypt | .decompress => [.none, .range, .overlap, .capacity]
    | .float2 | .float3 => [.none, .range, .overlap, .lane, .capacity] : List ErrCode)

/-- R84, R16, R45: a command ignores every register and every byte its row of R84 does not name: two machines that agree on
what the row names end with the same error code and completion record, and agree on every register and byte to which the
spec gives a value computed from what the row names, a register the fault keeps among them where the row names it
(R220: LFSR_STATE after a faulted DECRYPT) and the fields an invalid header still parses (R198, row 3). What a command keeps
and does not read, each machine keeps for itself; that the operand registers are kept is EveryCommandCompletes. -/
def Obligations.CommandDependsOnItsOperandsOnly : Prop := ∀ (i : Instr) (s u s' u' : State),
  SameInputs i s u → exec i s = .next s' → exec i u = .next u' → SameOutputs i s s' u'

/-- R251, R252: while a command is in flight, a host write to a byte it owns marks it raced (log 6), a write to any other byte
does not, and the byte is written; a host read of a destination byte gives some u8. -/
def Obligations.OwnedRangesUnderBusy : Prop := ∀ (s : State) (w : Word) (i : Instr) (a : Nat) (v : Byte),
  s.pending = some w → decode w = .ok i → a ≤ s.params.memTop.toNat →
  (∃ t, hostOp (.memWrite a v) s = .next t ∧ t = { s with mem := t.mem, raced := t.raced } ∧
    (Owns i s a → t.raced = true) ∧ (¬Owns i s a → t.raced = s.raced) ∧
    ∀ b, t.mem.read b = if b = a then v else s.mem.read b) ∧
  (¬(HasDestination i ∧ InRange s.ops.dstAddr s.ops.dstCap a) →
    hostOp (.memRead a) s = .next { s with host := { s.host with log := .mem a (s.mem.read a) :: s.host.log } }) ∧
  ∃ x d, hostOp (.memRead a) s =
    .next { s with host := { s.host with log := .mem a x :: s.host.log }, draws := d }

/-- R252: what a raced command may change: its destination range, OUT_LEN, LFSR_STATE for DECRYPT, CKSUM_RES and CK_MATCH for
CKSUM, the header registers and HDR_VALID for HDRPARSE, and the completion record; nothing else. -/
def Obligations.RaceStaysInsideTheOutputs : Prop := ∀ (i : Instr) (s t : State), s.raced = true → exec i s = .next t →
  match i with
  | .lfsrSeed v => t = { s with lfsr := v, pending := none, done := true, err := .none, raced := false }
  | .lfsrStep n =>
    t = { s with lfsr := step16^[n] s.lfsr, pending := none, done := true, err := .none, raced := false }
  | .cksum => t = { s with
      cksumRes := t.cksumRes, ckMatch := t.ckMatch, draws := t.draws
      pending := none, done := true, err := t.err, raced := false }
  | .decrypt => t = { s with
      mem := t.mem, lfsr := t.lfsr, outLen := t.outLen, draws := t.draws
      pending := none, done := true, err := t.err, raced := false } ∧
      ∀ a, ¬InRange s.ops.dstAddr s.ops.dstCap a → t.mem.read a = s.mem.read a
  | .decompress | .float2 | .float3 => t = { s with
      mem := t.mem, outLen := t.outLen, draws := t.draws, pending := none, done := true, err := t.err, raced := false } ∧
      ∀ a, ¬InRange s.ops.dstAddr s.ops.dstCap a → t.mem.read a = s.mem.read a
  | .hdrparse => t = { s with
      flags := t.flags, origSize := t.origSize, dataSize := t.dataSize, hdrLen := t.hdrLen, dict := t.dict
      cksumExp := t.cksumExp, hdrValid := t.hdrValid, draws := t.draws
      pending := none, done := true, err := t.err, raced := false }

/-- R250, R16: nothing the host does under BUSY, short of the reset input, changes a register; only HAZ can change, beside
memory, the model's own bookkeeping and the host's side. -/
def Obligations.BusyRegistersAreStable : Prop := ∀ (s t : State) (op : HostOp), s.pending ≠ none → op ≠ .reset →
  hostOp op s = .next t →
  t = { s with haz := t.haz, mem := t.mem, raced := t.raced, host := t.host, draws := t.draws } ∧
  (s.haz = true → (∀ w, op ≠ .regWrite 32 0x04 w) → t.haz = true)

/-- R28: HAZ is set only by a host write to a register other than STATUS under BUSY, and cleared only by a host write to STATUS
with bit 2 = 1 or by reset; no command touches it. -/
def Obligations.HazIsSticky : Prop := ∀ s t : State, step s = .next t →
  (s.haz = false → t.haz = true → s.pending ≠ none ∧ ∃ off w rest r,
    s.host.script = .regWrite 32 off w :: rest ∧ regAt off = some r ∧ r ≠ .status) ∧
  (s.haz = true → t.haz = false → ∃ rest, s.host.script = .reset :: rest ∨
    ∃ w, s.host.script = .regWrite 32 0x04 w :: rest ∧ w.getLsbD 2 = true)

/-- R250, R219 (`95_test_vectors.md` P6): a host write to an operand register after a command was issued may come before or
after its completion, and the model admits both (by its schedule, log 2): before, it is dropped with HAZ set; after, it takes effect; the command has
the same effect either way. -/
def Obligations.BothOrdersAreAdmitted : Prop := ∀ (s : State) (w v : Word) (i : Instr) (r : Reg64) (h : Half),
  s.pending = some w → decode w = .ok i → r ∉ ([.outLen, .origSize, .dataSize] : List Reg64) →
  (∃ a, step { s with host := { s.host with script := [.regWrite 32 (regOffset (.wide r h)) v], sched := [.host] } } =
      .next a ∧ a = { s with haz := true, host := { s.host with script := [], sched := [] } } ∧ step a = exec i a) ∧
  (∃ b c, step { s with host := { s.host with script := [.regWrite 32 (regOffset (.wide r h)) v], sched := [.core] } } =
      .next b ∧ exec i { s with host := { s.host with
        script := [.regWrite 32 (regOffset (.wide r h)) v], sched := [] } } = .next b ∧
      step b = .next c ∧ c.haz = b.haz ∧ readReg c (.wide r h) = v)

/-- From a state of the invariant with a command in flight, whatever the schedule, the command has completed or was abandoned
by reset after at most one step more than the schedule is long, unless the host's own bad access stops the run first (logs 8
and 9). R17 and R256 ask only that it completes eventually (weak fairness); the bound is the model's choice (log 2, DESIGN
CHOICE): the schedule is a finite list and the core moves when it is used up. -/
def Obligations.PendingCommandCompletes : Prop := ∀ s : State, s.Inv → s.pending ≠ none →
  ∃ k, k ≤ s.host.sched.length + 1 ∧
    ((∃ t : State, Host.Core.run Sys2Proof.core k s = .next t ∧ t.pending = none) ∨
      Host.Core.run Sys2Proof.core k s = .fault Fault.noSuchAddress ∨
      ∃ e, Host.Core.run Sys2Proof.core k s = .refused (Refusal.hostAccess e))

/-- R16, R224, R233: from a state of the invariant the machine stops only on the host's own bad access: never on a
command. (That such an access ends the run: logs 8 and 9.) -/
def Obligations.OnlyBadHostAccessesStop : Prop := ∀ s : State, s.Inv →
  (∀ f, step s = .fault f → f = .noSuchAddress ∧ ∃ op rest, s.host.script = op :: rest ∧ op.wf s.memSize = false) ∧
  ∀ e, step s = .refused e →
    (∃ x, e = .hostAccess x) ∧ ∃ op rest, s.host.script = op :: rest ∧ op.wf s.memSize = false
end

