-- ==== Sys2Proof/Laws/Memory.lean ====
section
/-! SUPPORT. Buffer memory: read over write, the canonical form and the bound are kept by every operation. -/

namespace Sys2Proof.Machine

@[simp] theorem Memory.read_nil (a : Nat) : Memory.read [] a = Memory.unlisted := rfl

theorem Memory.read_cons (k : Nat) (v : Byte) (t : Memory) (a : Nat) :
    Memory.read ((k, v) :: t) a = if k = a then v else Memory.read t a := rfl

theorem Memory.read_without (m : Memory) (a b : Nat) :
    Memory.read (m.without a) b = if b = a then Memory.unlisted else Memory.read m b := by
  unfold Memory.without
  induction m with
  | nil => simp
  | cons c t ih =>
    obtain ⟨k, v⟩ := c
    by_cases hk : k = a <;> by_cases hb : b = a <;> simp_all [Memory.read_cons]
    omega

theorem Memory.read_place_of_ne (m : Memory) {k b : Nat} (v : Byte) (h : k ≠ b) :
    Memory.read (Memory.place k v m) b = Memory.read m b := by
  induction m with
  | nil => simp [Memory.place, Memory.read_cons, h]
  | cons c t ih =>
    obtain ⟨j, x⟩ := c
    unfold Memory.place
    split <;> simp [Memory.read_cons, h, ih]

theorem Memory.read_place_same (m : Memory) (k : Nat) (v : Byte) (h : ∀ c ∈ m, c.1 ≠ k) :
    Memory.read (Memory.place k v m) k = v := by
  induction m with
  | nil => simp [Memory.place, Memory.read_cons]
  | cons c t ih =>
    obtain ⟨j, x⟩ := c
    have hj : j ≠ k := h (j, x) (by simp)
    unfold Memory.place
    split
    · simp [Memory.read_cons]
    · simp only [Memory.read_cons, if_neg hj]
      exact ih (fun c hc => h c (by simp [hc]))

/-- A read after a write (`20_memory.md` R69): the byte written there, every other byte as before. -/
theorem Memory.read_write (m : Memory) (a b : Nat) (v : Byte) :
    Memory.read (Memory.write m a v) b = if b = a then v else Memory.read m b := by
  unfold Memory.write
  by_cases hv : v = Memory.unlisted
  · simp [hv, Memory.read_without]
  · by_cases hb : b = a
    · subst hb
      simp only [hv, if_false, if_true]
      exact Memory.read_place_same _ _ _ (by intro c hc; simpa using (List.mem_filter.1 hc).2)
    · simp only [hv, if_false, if_neg hb]
      rw [Memory.read_place_of_ne _ _ (Ne.symm hb), Memory.read_without, if_neg hb]

@[simp] theorem Memory.read_write_same (m : Memory) (a : Nat) (v : Byte) : Memory.read (Memory.write m a v) a = v := by
  simp [Memory.read_write]

theorem Memory.read_write_of_ne (m : Memory) {a b : Nat} (v : Byte) (h : b ≠ a) :
    Memory.read (Memory.write m a v) b = Memory.read m b := by
  simp [Memory.read_write, h]

theorem Memory.mem_place {m : Memory} {k : Nat} {v : Byte} {c : Host.Cell} :
    c ∈ Memory.place k v m ↔ c = (k, v) ∨ c ∈ m := by
  induction m with
  | nil => simp [Memory.place]
  | cons d t ih =>
    unfold Memory.place
    split <;> simp [ih]
    tauto

theorem Memory.place_rising {m : Memory} {k : Nat} {v : Byte} (h : m.Pairwise (fun c d => c.1 < d.1))
    (hk : ∀ c ∈ m, c.1 ≠ k) : (Memory.place k v m).Pairwise (fun c d => c.1 < d.1) := by
  induction m with
  | nil => simp [Memory.place]
  | cons d t ih =>
    obtain ⟨hd, ht⟩ := List.pairwise_cons.1 h
    have hne : d.1 ≠ k := hk d (by simp)
    unfold Memory.place
    split
    · rename_i hlt
      refine List.pairwise_cons.2 ⟨fun c hc => ?_, h⟩
      rcases List.mem_cons.1 hc with rfl | hc
      · exact hlt
      · exact Nat.lt_trans hlt (hd c hc)
    · rename_i hlt
      refine List.pairwise_cons.2 ⟨fun c hc => ?_, ih ht (fun c hc => hk c (by simp [hc]))⟩
      rcases Memory.mem_place.1 hc with rfl | hc
      · simp only; omega
      · exact hd c hc

/-- The memory right after reset is in canonical form. -/
theorem State.reset_mem_wf : State.reset.mem.wf := ⟨List.Pairwise.nil, by simp [State.reset]⟩

/-- A write keeps the canonical form. -/
theorem Memory.write_wf {m : Memory} (h : m.wf) (a : Nat) (v : Byte) : (m.write a v).wf := by
  have hf : (m.without a).wf :=
    ⟨h.1.filter _, fun c hc => h.2 c (List.mem_filter.1 hc).1⟩
  unfold Memory.write
  by_cases hv : v = Memory.unlisted
  · simpa [hv] using hf
  · simp only [hv, if_false]
    refine ⟨Memory.place_rising hf.1 (fun c hc => by simpa using (List.mem_filter.1 hc).2), fun c hc => ?_⟩
    rcases Memory.mem_place.1 hc with rfl | hc
    · exact hv
    · exact hf.2 c hc

/-- A write inside a size lists no address outside it. -/
theorem Memory.write_within {m : Memory} {size a : Nat} (h : m.within size) (ha : a < size) (v : Byte) :
    (m.write a v).within size := by
  intro c hc
  unfold Memory.write at hc
  by_cases hv : v = Memory.unlisted
  · simp only [hv, if_true] at hc
    exact h c (List.mem_filter.1 hc).1
  · simp only [hv, if_false] at hc
    rcases Memory.mem_place.1 hc with rfl | hc
    · exact ha
    · exact h c (List.mem_filter.1 hc).1

theorem Memory.writeBytes_wf {m : Memory} (h : m.wf) (a : Nat) (bs : List Byte) : (m.writeBytes a bs).wf := by
  induction bs generalizing m a with
  | nil => exact h
  | cons b bs ih => exact ih (Memory.write_wf h a b) (a + 1)

theorem Memory.writeBytes_within {m : Memory} {size a : Nat} {bs : List Byte} (h : m.within size)
    (ha : a + bs.length ≤ size) : (m.writeBytes a bs).within size := by
  induction bs generalizing m a with
  | nil => exact h
  | cons b bs ih =>
    simp only [List.length_cons] at ha
    exact ih (Memory.write_within h (by omega) b) (by omega)

/-- A read after the bytes `bs` were written from `a` on: the byte of `bs` that lies there, else what was there. -/
theorem Memory.read_writeBytes (m : Memory) (a b : Nat) (bs : List Byte) :
    Memory.read (m.writeBytes a bs) b =
      if a ≤ b ∧ b < a + bs.length then bs.getD (b - a) 0 else Memory.read m b := by
  induction bs generalizing m a with
  | nil => simp [Memory.writeBytes]
  | cons x bs ih =>
    simp only [Memory.writeBytes, ih, Memory.read_write, List.length_cons]
    by_cases hba : b = a
    · subst hba; simp
    · by_cases hin : a + 1 ≤ b ∧ b < a + 1 + bs.length
      · have : b - a = (b - (a + 1)) + 1 := by omega
        rw [if_pos hin, if_pos (by omega), this]; simp
      · rw [if_neg hin, if_neg hba, if_neg (by omega)]

theorem Memory.read_writeBytes_outside (m : Memory) {a b : Nat} {bs : List Byte} (h : ¬(a ≤ b ∧ b < a + bs.length)) :
    Memory.read (m.writeBytes a bs) b = Memory.read m b := by
  rw [Memory.read_writeBytes, if_neg h]

@[simp] theorem Memory.length_readBytes (m : Memory) (a n : Nat) : (m.readBytes a n).length = n := by
  simp [Memory.readBytes]

theorem Memory.getElem_readBytes (m : Memory) (a n i : Nat) (h : i < (m.readBytes a n).length) :
    (m.readBytes a n)[i] = m.read (a + i) := by
  simp [Memory.readBytes]

/-- A range is read back as it was written. -/
theorem Memory.readBytes_writeBytes_same (m : Memory) (a : Nat) (bs : List Byte) :
    (m.writeBytes a bs).readBytes a bs.length = bs := by
  apply List.ext_getElem
  · simp
  · intro i h₁ h₂
    rw [Memory.getElem_readBytes, Memory.read_writeBytes, if_pos (by omega)]
    simp [h₂]

/-- A range that a write does not touch reads as before. -/
theorem Memory.readBytes_writeBytes_of_disjoint (m : Memory) (a b n : Nat) (bs : List Byte)
    (h : b + n ≤ a ∨ a + bs.length ≤ b) : (m.writeBytes a bs).readBytes b n = m.readBytes b n := by
  unfold Memory.readBytes
  refine List.map_congr_left (fun i hi => ?_)
  have := List.mem_range.1 hi
  exact Memory.read_writeBytes_outside _ (by omega)

theorem Memory.scramble_wf {m : Memory} (h : m.wf) (r : Range) (size d : Nat) : (m.scramble r size d).wf :=
  Memory.writeBytes_wf h _ _

theorem Memory.scramble_within {m : Memory} {size : Nat} (h : m.within size) (r : Range) (d : Nat) :
    (m.scramble r size d).within size := by
  by_cases hr : r.base ≤ size
  · exact Memory.writeBytes_within h (by simp; omega)
  · have hz : min (r.base + r.len) size - r.base = 0 := by omega
    unfold Memory.scramble
    rw [hz]
    exact h

/-- A range that may hold any value changes no byte outside it. -/
theorem Memory.read_scramble_outside (m : Memory) {r : Range} (size d : Nat) {a : Nat} (h : r.holds a = false) :
    (m.scramble r size d).read a = m.read a := by
  refine Memory.read_writeBytes_outside _ ?_
  simp [Range.holds] at h ⊢
  omega

end Sys2Proof.Machine
end

