-- ==== Sys2Proof/Laws/State.lean ====
section
/-! SUPPORT. What each named update of State leaves in each field; every lemma is true by computation. -/

namespace Sys2Proof.Machine

@[simp] theorem State.complete_params (s : State) (e : ErrCode) : (s.complete e).params = s.params := rfl
@[simp] theorem State.complete_cmd (s : State) (e : ErrCode) : (s.complete e).cmd = s.cmd := rfl
@[simp] theorem State.complete_pending (s : State) (e : ErrCode) : (s.complete e).pending = none := rfl
@[simp] theorem State.complete_done (s : State) (e : ErrCode) : (s.complete e).done = true := rfl
@[simp] theorem State.complete_haz (s : State) (e : ErrCode) : (s.complete e).haz = s.haz := rfl
@[simp] theorem State.complete_err (s : State) (e : ErrCode) : (s.complete e).err = e := rfl
@[simp] theorem State.complete_ckMatch (s : State) (e : ErrCode) : (s.complete e).ckMatch = s.ckMatch := rfl
@[simp] theorem State.complete_hdrValid (s : State) (e : ErrCode) : (s.complete e).hdrValid = s.hdrValid := rfl
@[simp] theorem State.complete_lfsr (s : State) (e : ErrCode) : (s.complete e).lfsr = s.lfsr := rfl
@[simp] theorem State.complete_cksumExp (s : State) (e : ErrCode) : (s.complete e).cksumExp = s.cksumExp := rfl
@[simp] theorem State.complete_cksumRes (s : State) (e : ErrCode) : (s.complete e).cksumRes = s.cksumRes := rfl
@[simp] theorem State.complete_flags (s : State) (e : ErrCode) : (s.complete e).flags = s.flags := rfl
@[simp] theorem State.complete_hdrLen (s : State) (e : ErrCode) : (s.complete e).hdrLen = s.hdrLen := rfl
@[simp] theorem State.complete_ops (s : State) (e : ErrCode) : (s.complete e).ops = s.ops := rfl
@[simp] theorem State.complete_outLen (s : State) (e : ErrCode) : (s.complete e).outLen = s.outLen := rfl
@[simp] theorem State.complete_origSize (s : State) (e : ErrCode) : (s.complete e).origSize = s.origSize := rfl
@[simp] theorem State.complete_dataSize (s : State) (e : ErrCode) : (s.complete e).dataSize = s.dataSize := rfl
@[simp] theorem State.complete_dict (s : State) (e : ErrCode) : (s.complete e).dict = s.dict := rfl
@[simp] theorem State.complete_mem (s : State) (e : ErrCode) : (s.complete e).mem = s.mem := rfl
@[simp] theorem State.complete_host (s : State) (e : ErrCode) : (s.complete e).host = s.host := rfl
@[simp] theorem State.complete_draws (s : State) (e : ErrCode) : (s.complete e).draws = s.draws := rfl
@[simp] theorem State.complete_raced (s : State) (e : ErrCode) : (s.complete e).raced = false := rfl

@[simp] theorem State.drawn_params (s : State) : s.drawn.params = s.params := rfl
@[simp] theorem State.drawn_cmd (s : State) : s.drawn.cmd = s.cmd := rfl
@[simp] theorem State.drawn_pending (s : State) : s.drawn.pending = s.pending := rfl
@[simp] theorem State.drawn_done (s : State) : s.drawn.done = s.done := rfl
@[simp] theorem State.drawn_haz (s : State) : s.drawn.haz = s.haz := rfl
@[simp] theorem State.drawn_err (s : State) : s.drawn.err = s.err := rfl
@[simp] theorem State.drawn_ckMatch (s : State) : s.drawn.ckMatch = s.ckMatch := rfl
@[simp] theorem State.drawn_hdrValid (s : State) : s.drawn.hdrValid = s.hdrValid := rfl
@[simp] theorem State.drawn_lfsr (s : State) : s.drawn.lfsr = s.lfsr := rfl
@[simp] theorem State.drawn_cksumExp (s : State) : s.drawn.cksumExp = s.cksumExp := rfl
@[simp] theorem State.drawn_cksumRes (s : State) : s.drawn.cksumRes = s.cksumRes := rfl
@[simp] theorem State.drawn_flags (s : State) : s.drawn.flags = s.flags := rfl
@[simp] theorem State.drawn_hdrLen (s : State) : s.drawn.hdrLen = s.hdrLen := rfl
@[simp] theorem State.drawn_ops (s : State) : s.drawn.ops = s.ops := rfl
@[simp] theorem State.drawn_outLen (s : State) : s.drawn.outLen = s.outLen := rfl
@[simp] theorem State.drawn_origSize (s : State) : s.drawn.origSize = s.origSize := rfl
@[simp] theorem State.drawn_dataSize (s : State) : s.drawn.dataSize = s.dataSize := rfl
@[simp] theorem State.drawn_dict (s : State) : s.drawn.dict = s.dict := rfl
@[simp] theorem State.drawn_mem (s : State) : s.drawn.mem = s.mem := rfl
@[simp] theorem State.drawn_host (s : State) : s.drawn.host = s.host := rfl
@[simp] theorem State.drawn_draws (s : State) : s.drawn.draws = s.draws + 1 := rfl
@[simp] theorem State.drawn_raced (s : State) : s.drawn.raced = s.raced := rfl

@[simp] theorem State.scrambleRange_params (s : State) (r : Range) : (s.scrambleRange r).params = s.params := rfl
@[simp] theorem State.scrambleRange_cmd (s : State) (r : Range) : (s.scrambleRange r).cmd = s.cmd := rfl
@[simp] theorem State.scrambleRange_pending (s : State) (r : Range) : (s.scrambleRange r).pending = s.pending := rfl
@[simp] theorem State.scrambleRange_done (s : State) (r : Range) : (s.scrambleRange r).done = s.done := rfl
@[simp] theorem State.scrambleRange_haz (s : State) (r : Range) : (s.scrambleRange r).haz = s.haz := rfl
@[simp] theorem State.scrambleRange_err (s : State) (r : Range) : (s.scrambleRange r).err = s.err := rfl
@[simp] theorem State.scrambleRange_ckMatch (s : State) (r : Range) : (s.scrambleRange r).ckMatch = s.ckMatch := rfl
@[simp] theorem State.scrambleRange_hdrValid (s : State) (r : Range) : (s.scrambleRange r).hdrValid = s.hdrValid := rfl
@[simp] theorem State.scrambleRange_lfsr (s : State) (r : Range) : (s.scrambleRange r).lfsr = s.lfsr := rfl
@[simp] theorem State.scrambleRange_cksumExp (s : State) (r : Range) : (s.scrambleRange r).cksumExp = s.cksumExp := rfl
@[simp] theorem State.scrambleRange_cksumRes (s : State) (r : Range) : (s.scrambleRange r).cksumRes = s.cksumRes := rfl
@[simp] theorem State.scrambleRange_flags (s : State) (r : Range) : (s.scrambleRange r).flags = s.flags := rfl
@[simp] theorem State.scrambleRange_hdrLen (s : State) (r : Range) : (s.scrambleRange r).hdrLen = s.hdrLen := rfl
@[simp] theorem State.scrambleRange_ops (s : State) (r : Range) : (s.scrambleRange r).ops = s.ops := rfl
@[simp] theorem State.scrambleRange_outLen (s : State) (r : Range) : (s.scrambleRange r).outLen = s.outLen := rfl
@[simp] theorem State.scrambleRange_origSize (s : State) (r : Range) : (s.scrambleRange r).origSize = s.origSize := rfl
@[simp] theorem State.scrambleRange_dataSize (s : State) (r : Range) : (s.scrambleRange r).dataSize = s.dataSize := rfl
@[simp] theorem State.scrambleRange_dict (s : State) (r : Range) : (s.scrambleRange r).dict = s.dict := rfl
@[simp] theorem State.scrambleRange_mem (s : State) (r : Range) : (s.scrambleRange r).mem = s.mem.scramble r s.memSize s.draws := rfl
@[simp] theorem State.scrambleRange_host (s : State) (r : Range) : (s.scrambleRange r).host = s.host := rfl
@[simp] theorem State.scrambleRange_draws (s : State) (r : Range) : (s.scrambleRange r).draws = s.draws := rfl
@[simp] theorem State.scrambleRange_raced (s : State) (r : Range) : (s.scrambleRange r).raced = s.raced := rfl

@[simp] theorem State.freeOutLen_params (s : State) : s.freeOutLen.params = s.params := rfl
@[simp] theorem State.freeOutLen_cmd (s : State) : s.freeOutLen.cmd = s.cmd := rfl
@[simp] theorem State.freeOutLen_pending (s : State) : s.freeOutLen.pending = s.pending := rfl
@[simp] theorem State.freeOutLen_done (s : State) : s.freeOutLen.done = s.done := rfl
@[simp] theorem State.freeOutLen_haz (s : State) : s.freeOutLen.haz = s.haz := rfl
@[simp] theorem State.freeOutLen_err (s : State) : s.freeOutLen.err = s.err := rfl
@[simp] theorem State.freeOutLen_ckMatch (s : State) : s.freeOutLen.ckMatch = s.ckMatch := rfl
@[simp] theorem State.freeOutLen_hdrValid (s : State) : s.freeOutLen.hdrValid = s.hdrValid := rfl
@[simp] theorem State.freeOutLen_lfsr (s : State) : s.freeOutLen.lfsr = s.lfsr := rfl
@[simp] theorem State.freeOutLen_cksumExp (s : State) : s.freeOutLen.cksumExp = s.cksumExp := rfl
@[simp] theorem State.freeOutLen_cksumRes (s : State) : s.freeOutLen.cksumRes = s.cksumRes := rfl
@[simp] theorem State.freeOutLen_flags (s : State) : s.freeOutLen.flags = s.flags := rfl
@[simp] theorem State.freeOutLen_hdrLen (s : State) : s.freeOutLen.hdrLen = s.hdrLen := rfl
@[simp] theorem State.freeOutLen_ops (s : State) : s.freeOutLen.ops = s.ops := rfl
@[simp] theorem State.freeOutLen_outLen (s : State) : s.freeOutLen.outLen = Config.freeU64 s.draws .outLen := rfl
@[simp] theorem State.freeOutLen_origSize (s : State) : s.freeOutLen.origSize = s.origSize := rfl
@[simp] theorem State.freeOutLen_dataSize (s : State) : s.freeOutLen.dataSize = s.dataSize := rfl
@[simp] theorem State.freeOutLen_dict (s : State) : s.freeOutLen.dict = s.dict := rfl
@[simp] theorem State.freeOutLen_mem (s : State) : s.freeOutLen.mem = s.mem := rfl
@[simp] theorem State.freeOutLen_host (s : State) : s.freeOutLen.host = s.host := rfl
@[simp] theorem State.freeOutLen_draws (s : State) : s.freeOutLen.draws = s.draws := rfl
@[simp] theorem State.freeOutLen_raced (s : State) : s.freeOutLen.raced = s.raced := rfl

@[simp] theorem State.loseOutLen_params (s : State) : s.loseOutLen.params = s.params := rfl
@[simp] theorem State.loseOutLen_cmd (s : State) : s.loseOutLen.cmd = s.cmd := rfl
@[simp] theorem State.loseOutLen_pending (s : State) : s.loseOutLen.pending = s.pending := rfl
@[simp] theorem State.loseOutLen_done (s : State) : s.loseOutLen.done = s.done := rfl
@[simp] theorem State.loseOutLen_haz (s : State) : s.loseOutLen.haz = s.haz := rfl
@[simp] theorem State.loseOutLen_err (s : State) : s.loseOutLen.err = s.err := rfl
@[simp] theorem State.loseOutLen_ckMatch (s : State) : s.loseOutLen.ckMatch = s.ckMatch := rfl
@[simp] theorem State.loseOutLen_hdrValid (s : State) : s.loseOutLen.hdrValid = s.hdrValid := rfl
@[simp] theorem State.loseOutLen_lfsr (s : State) : s.loseOutLen.lfsr = s.lfsr := rfl
@[simp] theorem State.loseOutLen_cksumExp (s : State) : s.loseOutLen.cksumExp = s.cksumExp := rfl
@[simp] theorem State.loseOutLen_cksumRes (s : State) : s.loseOutLen.cksumRes = s.cksumRes := rfl
@[simp] theorem State.loseOutLen_flags (s : State) : s.loseOutLen.flags = s.flags := rfl
@[simp] theorem State.loseOutLen_hdrLen (s : State) : s.loseOutLen.hdrLen = s.hdrLen := rfl
@[simp] theorem State.loseOutLen_ops (s : State) : s.loseOutLen.ops = s.ops := rfl
@[simp] theorem State.loseOutLen_outLen (s : State) : s.loseOutLen.outLen = Config.freeU64 s.draws .outLen := rfl
@[simp] theorem State.loseOutLen_origSize (s : State) : s.loseOutLen.origSize = s.origSize := rfl
@[simp] theorem State.loseOutLen_dataSize (s : State) : s.loseOutLen.dataSize = s.dataSize := rfl
@[simp] theorem State.loseOutLen_dict (s : State) : s.loseOutLen.dict = s.dict := rfl
@[simp] theorem State.loseOutLen_mem (s : State) : s.loseOutLen.mem = s.mem := rfl
@[simp] theorem State.loseOutLen_host (s : State) : s.loseOutLen.host = s.host := rfl
@[simp] theorem State.loseOutLen_draws (s : State) : s.loseOutLen.draws = s.draws + 1 := rfl
@[simp] theorem State.loseOutLen_raced (s : State) : s.loseOutLen.raced = s.raced := rfl

@[simp] theorem State.freeDictAndExpected_params (s : State) : s.freeDictAndExpected.params = s.params := rfl
@[simp] theorem State.freeDictAndExpected_cmd (s : State) : s.freeDictAndExpected.cmd = s.cmd := rfl
@[simp] theorem State.freeDictAndExpected_pending (s : State) : s.freeDictAndExpected.pending = s.pending := rfl
@[simp] theorem State.freeDictAndExpected_done (s : State) : s.freeDictAndExpected.done = s.done := rfl
@[simp] theorem State.freeDictAndExpected_haz (s : State) : s.freeDictAndExpected.haz = s.haz := rfl
@[simp] theorem State.freeDictAndExpected_err (s : State) : s.freeDictAndExpected.err = s.err := rfl
@[simp] theorem State.freeDictAndExpected_ckMatch (s : State) : s.freeDictAndExpected.ckMatch = s.ckMatch := rfl
@[simp] theorem State.freeDictAndExpected_hdrValid (s : State) : s.freeDictAndExpected.hdrValid = s.hdrValid := rfl
@[simp] theorem State.freeDictAndExpected_lfsr (s : State) : s.freeDictAndExpected.lfsr = s.lfsr := rfl
@[simp] theorem State.freeDictAndExpected_cksumExp (s : State) : s.freeDictAndExpected.cksumExp = Config.freeU16 s.draws .cksumExp := rfl
@[simp] theorem State.freeDictAndExpected_cksumRes (s : State) : s.freeDictAndExpected.cksumRes = s.cksumRes := rfl
@[simp] theorem State.freeDictAndExpected_flags (s : State) : s.freeDictAndExpected.flags = s.flags := rfl
@[simp] theorem State.freeDictAndExpected_hdrLen (s : State) : s.freeDictAndExpected.hdrLen = s.hdrLen := rfl
@[simp] theorem State.freeDictAndExpected_ops (s : State) : s.freeDictAndExpected.ops = s.ops := rfl
@[simp] theorem State.freeDictAndExpected_outLen (s : State) : s.freeDictAndExpected.outLen = s.outLen := rfl
@[simp] theorem State.freeDictAndExpected_origSize (s : State) : s.freeDictAndExpected.origSize = s.origSize := rfl
@[simp] theorem State.freeDictAndExpected_dataSize (s : State) : s.freeDictAndExpected.dataSize = s.dataSize := rfl
@[simp] theorem State.freeDictAndExpected_dict (s : State) : s.freeDictAndExpected.dict = Vector.ofFn (fun i : Fin 16 => Config.freeByte s.draws (.dict i.val)) := rfl
@[simp] theorem State.freeDictAndExpected_mem (s : State) : s.freeDictAndExpected.mem = s.mem := rfl
@[simp] theorem State.freeDictAndExpected_host (s : State) : s.freeDictAndExpected.host = s.host := rfl
@[simp] theorem State.freeDictAndExpected_draws (s : State) : s.freeDictAndExpected.draws = s.draws := rfl
@[simp] theorem State.freeDictAndExpected_raced (s : State) : s.freeDictAndExpected.raced = s.raced := rfl

@[simp] theorem State.freeHeader_params (s : State) : s.freeHeader.params = s.params := rfl
@[simp] theorem State.freeHeader_cmd (s : State) : s.freeHeader.cmd = s.cmd := rfl
@[simp] theorem State.freeHeader_pending (s : State) : s.freeHeader.pending = s.pending := rfl
@[simp] theorem State.freeHeader_done (s : State) : s.freeHeader.done = s.done := rfl
@[simp] theorem State.freeHeader_haz (s : State) : s.freeHeader.haz = s.haz := rfl
@[simp] theorem State.freeHeader_err (s : State) : s.freeHeader.err = s.err := rfl
@[simp] theorem State.freeHeader_ckMatch (s : State) : s.freeHeader.ckMatch = s.ckMatch := rfl
@[simp] theorem State.freeHeader_hdrValid (s : State) : s.freeHeader.hdrValid = s.hdrValid := rfl
@[simp] theorem State.freeHeader_lfsr (s : State) : s.freeHeader.lfsr = s.lfsr := rfl
@[simp] theorem State.freeHeader_cksumExp (s : State) : s.freeHeader.cksumExp = Config.freeU16 s.draws .cksumExp := rfl
@[simp] theorem State.freeHeader_cksumRes (s : State) : s.freeHeader.cksumRes = s.cksumRes := rfl
@[simp] theorem State.freeHeader_flags (s : State) : s.freeHeader.flags = Config.freeByte s.draws .flags := rfl
@[simp] theorem State.freeHeader_hdrLen (s : State) : s.freeHeader.hdrLen = Config.freeU32 s.draws .hdrLen := rfl
@[simp] theorem State.freeHeader_ops (s : State) : s.freeHeader.ops = s.ops := rfl
@[simp] theorem State.freeHeader_outLen (s : State) : s.freeHeader.outLen = s.outLen := rfl
@[simp] theorem State.freeHeader_origSize (s : State) : s.freeHeader.origSize = Config.freeU64 s.draws .origSize := rfl
@[simp] theorem State.freeHeader_dataSize (s : State) : s.freeHeader.dataSize = Config.freeU64 s.draws .dataSize := rfl
@[simp] theorem State.freeHeader_dict (s : State) : s.freeHeader.dict = Vector.ofFn (fun i : Fin 16 => Config.freeByte s.draws (.dict i.val)) := rfl
@[simp] theorem State.freeHeader_mem (s : State) : s.freeHeader.mem = s.mem := rfl
@[simp] theorem State.freeHeader_host (s : State) : s.freeHeader.host = s.host := rfl
@[simp] theorem State.freeHeader_draws (s : State) : s.freeHeader.draws = s.draws := rfl
@[simp] theorem State.freeHeader_raced (s : State) : s.freeHeader.raced = s.raced := rfl

@[simp] theorem State.resetRegisters_params (s : State) : s.resetRegisters.params = s.params := rfl
@[simp] theorem State.resetRegisters_cmd (s : State) : s.resetRegisters.cmd = State.reset.cmd := rfl
@[simp] theorem State.resetRegisters_pending (s : State) : s.resetRegisters.pending = State.reset.pending := rfl
@[simp] theorem State.resetRegisters_done (s : State) : s.resetRegisters.done = State.reset.done := rfl
@[simp] theorem State.resetRegisters_haz (s : State) : s.resetRegisters.haz = State.reset.haz := rfl
@[simp] theorem State.resetRegisters_err (s : State) : s.resetRegisters.err = State.reset.err := rfl
@[simp] theorem State.resetRegisters_ckMatch (s : State) : s.resetRegisters.ckMatch = State.reset.ckMatch := rfl
@[simp] theorem State.resetRegisters_hdrValid (s : State) : s.resetRegisters.hdrValid = State.reset.hdrValid := rfl
@[simp] theorem State.resetRegisters_lfsr (s : State) : s.resetRegisters.lfsr = State.reset.lfsr := rfl
@[simp] theorem State.resetRegisters_cksumExp (s : State) : s.resetRegisters.cksumExp = State.reset.cksumExp := rfl
@[simp] theorem State.resetRegisters_cksumRes (s : State) : s.resetRegisters.cksumRes = State.reset.cksumRes := rfl
@[simp] theorem State.resetRegisters_flags (s : State) : s.resetRegisters.flags = State.reset.flags := rfl
@[simp] theorem State.resetRegisters_hdrLen (s : State) : s.resetRegisters.hdrLen = State.reset.hdrLen := rfl
@[simp] theorem State.resetRegisters_ops (s : State) : s.resetRegisters.ops = State.reset.ops := rfl
@[simp] theorem State.resetRegisters_outLen (s : State) : s.resetRegisters.outLen = State.reset.outLen := rfl
@[simp] theorem State.resetRegisters_origSize (s : State) : s.resetRegisters.origSize = State.reset.origSize := rfl
@[simp] theorem State.resetRegisters_dataSize (s : State) : s.resetRegisters.dataSize = State.reset.dataSize := rfl
@[simp] theorem State.resetRegisters_dict (s : State) : s.resetRegisters.dict = State.reset.dict := rfl
@[simp] theorem State.resetRegisters_mem (s : State) : s.resetRegisters.mem = s.mem := rfl
@[simp] theorem State.resetRegisters_host (s : State) : s.resetRegisters.host = s.host := rfl
@[simp] theorem State.resetRegisters_draws (s : State) : s.resetRegisters.draws = s.draws := rfl
@[simp] theorem State.resetRegisters_raced (s : State) : s.resetRegisters.raced = State.reset.raced := rfl

@[simp] theorem note_params (s : State) (o : Observed) : (note s o).params = s.params := rfl
@[simp] theorem note_cmd (s : State) (o : Observed) : (note s o).cmd = s.cmd := rfl
@[simp] theorem note_pending (s : State) (o : Observed) : (note s o).pending = s.pending := rfl
@[simp] theorem note_done (s : State) (o : Observed) : (note s o).done = s.done := rfl
@[simp] theorem note_haz (s : State) (o : Observed) : (note s o).haz = s.haz := rfl
@[simp] theorem note_err (s : State) (o : Observed) : (note s o).err = s.err := rfl
@[simp] theorem note_ckMatch (s : State) (o : Observed) : (note s o).ckMatch = s.ckMatch := rfl
@[simp] theorem note_hdrValid (s : State) (o : Observed) : (note s o).hdrValid = s.hdrValid := rfl
@[simp] theorem note_lfsr (s : State) (o : Observed) : (note s o).lfsr = s.lfsr := rfl
@[simp] theorem note_cksumExp (s : State) (o : Observed) : (note s o).cksumExp = s.cksumExp := rfl
@[simp] theorem note_cksumRes (s : State) (o : Observed) : (note s o).cksumRes = s.cksumRes := rfl
@[simp] theorem note_flags (s : State) (o : Observed) : (note s o).flags = s.flags := rfl
@[simp] theorem note_hdrLen (s : State) (o : Observed) : (note s o).hdrLen = s.hdrLen := rfl
@[simp] theorem note_ops (s : State) (o : Observed) : (note s o).ops = s.ops := rfl
@[simp] theorem note_outLen (s : State) (o : Observed) : (note s o).outLen = s.outLen := rfl
@[simp] theorem note_origSize (s : State) (o : Observed) : (note s o).origSize = s.origSize := rfl
@[simp] theorem note_dataSize (s : State) (o : Observed) : (note s o).dataSize = s.dataSize := rfl
@[simp] theorem note_dict (s : State) (o : Observed) : (note s o).dict = s.dict := rfl
@[simp] theorem note_mem (s : State) (o : Observed) : (note s o).mem = s.mem := rfl
@[simp] theorem note_host (s : State) (o : Observed) : (note s o).host = { s.host with log := o :: s.host.log } := rfl
@[simp] theorem note_draws (s : State) (o : Observed) : (note s o).draws = s.draws := rfl
@[simp] theorem note_raced (s : State) (o : Observed) : (note s o).raced = s.raced := rfl

@[simp] theorem setHdrValid_params (s : State) (v : Bool) : (setHdrValid s v).params = s.params := rfl
@[simp] theorem setHdrValid_cmd (s : State) (v : Bool) : (setHdrValid s v).cmd = s.cmd := rfl
@[simp] theorem setHdrValid_pending (s : State) (v : Bool) : (setHdrValid s v).pending = s.pending := rfl
@[simp] theorem setHdrValid_done (s : State) (v : Bool) : (setHdrValid s v).done = s.done := rfl
@[simp] theorem setHdrValid_haz (s : State) (v : Bool) : (setHdrValid s v).haz = s.haz := rfl
@[simp] theorem setHdrValid_err (s : State) (v : Bool) : (setHdrValid s v).err = s.err := rfl
@[simp] theorem setHdrValid_ckMatch (s : State) (v : Bool) : (setHdrValid s v).ckMatch = s.ckMatch := rfl
@[simp] theorem setHdrValid_hdrValid (s : State) (v : Bool) : (setHdrValid s v).hdrValid = v := rfl
@[simp] theorem setHdrValid_lfsr (s : State) (v : Bool) : (setHdrValid s v).lfsr = s.lfsr := rfl
@[simp] theorem setHdrValid_cksumExp (s : State) (v : Bool) : (setHdrValid s v).cksumExp = s.cksumExp := rfl
@[simp] theorem setHdrValid_cksumRes (s : State) (v : Bool) : (setHdrValid s v).cksumRes = s.cksumRes := rfl
@[simp] theorem setHdrValid_flags (s : State) (v : Bool) : (setHdrValid s v).flags = s.flags := rfl
@[simp] theorem setHdrValid_hdrLen (s : State) (v : Bool) : (setHdrValid s v).hdrLen = s.hdrLen := rfl
@[simp] theorem setHdrValid_ops (s : State) (v : Bool) : (setHdrValid s v).ops = s.ops := rfl
@[simp] theorem setHdrValid_outLen (s : State) (v : Bool) : (setHdrValid s v).outLen = s.outLen := rfl
@[simp] theorem setHdrValid_origSize (s : State) (v : Bool) : (setHdrValid s v).origSize = s.origSize := rfl
@[simp] theorem setHdrValid_dataSize (s : State) (v : Bool) : (setHdrValid s v).dataSize = s.dataSize := rfl
@[simp] theorem setHdrValid_dict (s : State) (v : Bool) : (setHdrValid s v).dict = s.dict := rfl
@[simp] theorem setHdrValid_mem (s : State) (v : Bool) : (setHdrValid s v).mem = s.mem := rfl
@[simp] theorem setHdrValid_host (s : State) (v : Bool) : (setHdrValid s v).host = s.host := rfl
@[simp] theorem setHdrValid_draws (s : State) (v : Bool) : (setHdrValid s v).draws = s.draws := rfl
@[simp] theorem setHdrValid_raced (s : State) (v : Bool) : (setHdrValid s v).raced = s.raced := rfl

@[simp] theorem writeStatus_params (s : State) (w : Word) : (writeStatus s w).params = s.params := rfl
@[simp] theorem writeStatus_cmd (s : State) (w : Word) : (writeStatus s w).cmd = s.cmd := rfl
@[simp] theorem writeStatus_pending (s : State) (w : Word) : (writeStatus s w).pending = s.pending := rfl
@[simp] theorem writeStatus_done (s : State) (w : Word) : (writeStatus s w).done = s.done := rfl
@[simp] theorem writeStatus_haz (s : State) (w : Word) : (writeStatus s w).haz = (s.haz && !w.getLsbD 2) := rfl
@[simp] theorem writeStatus_err (s : State) (w : Word) : (writeStatus s w).err = s.err := rfl
@[simp] theorem writeStatus_ckMatch (s : State) (w : Word) : (writeStatus s w).ckMatch = s.ckMatch := rfl
@[simp] theorem writeStatus_hdrValid (s : State) (w : Word) : (writeStatus s w).hdrValid = s.hdrValid := rfl
@[simp] theorem writeStatus_lfsr (s : State) (w : Word) : (writeStatus s w).lfsr = s.lfsr := rfl
@[simp] theorem writeStatus_cksumExp (s : State) (w : Word) : (writeStatus s w).cksumExp = s.cksumExp := rfl
@[simp] theorem writeStatus_cksumRes (s : State) (w : Word) : (writeStatus s w).cksumRes = s.cksumRes := rfl
@[simp] theorem writeStatus_flags (s : State) (w : Word) : (writeStatus s w).flags = s.flags := rfl
@[simp] theorem writeStatus_hdrLen (s : State) (w : Word) : (writeStatus s w).hdrLen = s.hdrLen := rfl
@[simp] theorem writeStatus_ops (s : State) (w : Word) : (writeStatus s w).ops = s.ops := rfl
@[simp] theorem writeStatus_outLen (s : State) (w : Word) : (writeStatus s w).outLen = s.outLen := rfl
@[simp] theorem writeStatus_origSize (s : State) (w : Word) : (writeStatus s w).origSize = s.origSize := rfl
@[simp] theorem writeStatus_dataSize (s : State) (w : Word) : (writeStatus s w).dataSize = s.dataSize := rfl
@[simp] theorem writeStatus_dict (s : State) (w : Word) : (writeStatus s w).dict = s.dict := rfl
@[simp] theorem writeStatus_mem (s : State) (w : Word) : (writeStatus s w).mem = s.mem := rfl
@[simp] theorem writeStatus_host (s : State) (w : Word) : (writeStatus s w).host = s.host := rfl
@[simp] theorem writeStatus_draws (s : State) (w : Word) : (writeStatus s w).draws = s.draws := rfl
@[simp] theorem writeStatus_raced (s : State) (w : Word) : (writeStatus s w).raced = s.raced := rfl

@[simp] theorem State.complete_memSize (s : State) (e : ErrCode) : (s.complete e).memSize = s.memSize := rfl
@[simp] theorem State.drawn_memSize (s : State) : s.drawn.memSize = s.memSize := rfl
@[simp] theorem State.freeOutLen_memSize (s : State) : s.freeOutLen.memSize = s.memSize := rfl
@[simp] theorem State.loseOutLen_memSize (s : State) : s.loseOutLen.memSize = s.memSize := rfl
@[simp] theorem State.freeDictAndExpected_memSize (s : State) : s.freeDictAndExpected.memSize = s.memSize := rfl
@[simp] theorem State.freeHeader_memSize (s : State) : s.freeHeader.memSize = s.memSize := rfl
@[simp] theorem State.scrambleRange_memSize (s : State) (r : Range) : (s.scrambleRange r).memSize = s.memSize := rfl

/-- Taking a turn changes nothing but the schedule. -/
theorem tookTurn_eq (s : State) : ∃ q, tookTurn s = { s with host := { s.host with sched := q } } := by
  unfold tookTurn
  split
  · exact ⟨s.host.sched, rfl⟩
  · exact ⟨s.host.sched, rfl⟩
  · exact ⟨s.host.sched, rfl⟩
  · exact ⟨s.host.sched.tail, rfl⟩

@[simp] theorem tookTurn_params (s : State) : (tookTurn s).params = s.params := by
  obtain ⟨q, hq⟩ := tookTurn_eq s; rw [hq]
@[simp] theorem tookTurn_cmd (s : State) : (tookTurn s).cmd = s.cmd := by
  obtain ⟨q, hq⟩ := tookTurn_eq s; rw [hq]
@[simp] theorem tookTurn_pending (s : State) : (tookTurn s).pending = s.pending := by
  obtain ⟨q, hq⟩ := tookTurn_eq s; rw [hq]
@[simp] theorem tookTurn_done (s : State) : (tookTurn s).done = s.done := by
  obtain ⟨q, hq⟩ := tookTurn_eq s; rw [hq]
@[simp] theorem tookTurn_haz (s : State) : (tookTurn s).haz = s.haz := by
  obtain ⟨q, hq⟩ := tookTurn_eq s; rw [hq]
@[simp] theorem tookTurn_err (s : State) : (tookTurn s).err = s.err := by
  obtain ⟨q, hq⟩ := tookTurn_eq s; rw [hq]
@[simp] theorem tookTurn_ckMatch (s : State) : (tookTurn s).ckMatch = s.ckMatch := by
  obtain ⟨q, hq⟩ := tookTurn_eq s; rw [hq]
@[simp] theorem tookTurn_hdrValid (s : State) : (tookTurn s).hdrValid = s.hdrValid := by
  obtain ⟨q, hq⟩ := tookTurn_eq s; rw [hq]
@[simp] theorem tookTurn_lfsr (s : State) : (tookTurn s).lfsr = s.lfsr := by
  obtain ⟨q, hq⟩ := tookTurn_eq s; rw [hq]
@[simp] theorem tookTurn_cksumExp (s : State) : (tookTurn s).cksumExp = s.cksumExp := by
  obtain ⟨q, hq⟩ := tookTurn_eq s; rw [hq]
@[simp] theorem tookTurn_cksumRes (s : State) : (tookTurn s).cksumRes = s.cksumRes := by
  obtain ⟨q, hq⟩ := tookTurn_eq s; rw [hq]
@[simp] theorem tookTurn_flags (s : State) : (tookTurn s).flags = s.flags := by
  obtain ⟨q, hq⟩ := tookTurn_eq s; rw [hq]
@[simp] theorem tookTurn_hdrLen (s : State) : (tookTurn s).hdrLen = s.hdrLen := by
  obtain ⟨q, hq⟩ := tookTurn_eq s; rw [hq]
@[simp] theorem tookTurn_ops (s : State) : (tookTurn s).ops = s.ops := by
  obtain ⟨q, hq⟩ := tookTurn_eq s; rw [hq]
@[simp] theorem tookTurn_outLen (s : State) : (tookTurn s).outLen = s.outLen := by
  obtain ⟨q, hq⟩ := tookTurn_eq s; rw [hq]
@[simp] theorem tookTurn_origSize (s : State) : (tookTurn s).origSize = s.origSize := by
  obtain ⟨q, hq⟩ := tookTurn_eq s; rw [hq]
@[simp] theorem tookTurn_dataSize (s : State) : (tookTurn s).dataSize = s.dataSize := by
  obtain ⟨q, hq⟩ := tookTurn_eq s; rw [hq]
@[simp] theorem tookTurn_dict (s : State) : (tookTurn s).dict = s.dict := by
  obtain ⟨q, hq⟩ := tookTurn_eq s; rw [hq]
@[simp] theorem tookTurn_mem (s : State) : (tookTurn s).mem = s.mem := by
  obtain ⟨q, hq⟩ := tookTurn_eq s; rw [hq]
@[simp] theorem tookTurn_draws (s : State) : (tookTurn s).draws = s.draws := by
  obtain ⟨q, hq⟩ := tookTurn_eq s; rw [hq]
@[simp] theorem tookTurn_raced (s : State) : (tookTurn s).raced = s.raced := by
  obtain ⟨q, hq⟩ := tookTurn_eq s; rw [hq]
@[simp] theorem tookTurn_script (s : State) : (tookTurn s).host.script = s.host.script := by
  obtain ⟨q, hq⟩ := tookTurn_eq s; rw [hq]
@[simp] theorem tookTurn_log (s : State) : (tookTurn s).host.log = s.host.log := by
  obtain ⟨q, hq⟩ := tookTurn_eq s; rw [hq]

end Sys2Proof.Machine
end

