-- ==== Sys2Proof/Laws/Commands.lean ====
section
/-! SUPPORT. One lemma for each shared operation of the commands: what the range checks answer, how a command finishes, and
what each command's pseudocode gives when it raises nothing. -/

namespace Sys2Proof.Machine

/-! ## Ranges -/

theorem Range.within_iff (r : Range) (size : Nat) : r.within size = true ↔ r.base + r.len ≤ size := by
  simp [Range.within]

theorem Range.overlaps_iff (r q : Range) :
    r.overlaps q = true ↔ 0 < r.len ∧ 0 < q.len ∧ r.base < q.base + q.len ∧ q.base < r.base + r.len := by
  simp [Range.overlaps, and_assoc]

theorem Range.holds_iff (r : Range) (a : Nat) : r.holds a = true ↔ r.base ≤ a ∧ a < r.base + r.len := by
  simp [Range.holds]

/-- Ranges that do not overlap share no address. -/
theorem Range.disjoint_of_not_overlaps {r q : Range} (h : r.overlaps q = false) {a : Nat} (hr : r.holds a = true) :
    q.holds a = false := by
  have h' : ¬(r.overlaps q = true) := by simp [h]
  rw [Range.overlaps_iff] at h'
  rw [Range.holds_iff] at hr
  rw [Bool.eq_false_iff]
  intro hq
  rw [Range.holds_iff] at hq
  omega

theorem rangeChecks_eq_none {size : Nat} {srcs : List Range} {dst : Option Range} :
    rangeChecks size srcs dst = none ↔
      (∀ r ∈ srcs ++ dst.toList, r.within size = true) ∧ (∀ d ∈ dst, ∀ r ∈ srcs, d.overlaps r = false) := by
  unfold rangeChecks
  split
  · rename_i h
    simp only [Bool.not_eq_true', List.all_eq_false] at h
    obtain ⟨r, hr, hw⟩ := h
    refine ⟨fun h => (by cases h), fun h => absurd (h.1 r hr) hw⟩
  · rename_i h
    simp only [Bool.not_eq_true', Bool.not_eq_false, List.all_eq_true] at h
    split
    · rename_i hd
      refine ⟨fun h => (by cases h), fun h' => ?_⟩
      cases dst with
      | none => simp at hd
      | some d =>
        simp only [Option.any_some, List.any_eq_true] at hd
        obtain ⟨r, hr, ho⟩ := hd
        have := h'.2 d rfl r hr
        simp [ho] at this
    · rename_i hd
      refine ⟨fun _ => ⟨h, fun d hd' r hr => ?_⟩, fun _ => rfl⟩
      cases hd'
      simp only [Option.any_some, List.any_eq_true, not_exists, not_and] at hd
      simpa using hd r hr

/-- RANGE is answered when, and only when, some range is not in range (`60_exceptions.md` R218). -/
theorem rangeChecks_eq_range {size : Nat} {srcs : List Range} {dst : Option Range} :
    rangeChecks size srcs dst = some .range ↔ ∃ r ∈ srcs ++ dst.toList, r.within size = false := by
  unfold rangeChecks
  split
  · rename_i h
    simp only [Bool.not_eq_true', List.all_eq_false] at h
    obtain ⟨r, hr, hw⟩ := h
    exact ⟨fun _ => ⟨r, hr, by simpa using hw⟩, fun _ => rfl⟩
  · rename_i h
    simp only [Bool.not_eq_true', Bool.not_eq_false, List.all_eq_true] at h
    refine ⟨fun h' => ?_, fun ⟨r, hr, hw⟩ => ?_⟩
    · split at h' <;> cases h'
    · rw [h r hr] at hw; cases hw

/-- The range checks answer nothing but RANGE or OVERLAP. -/
theorem rangeChecks_code {size : Nat} {srcs : List Range} {dst : Option Range} {e : ErrCode}
    (h : rangeChecks size srcs dst = some e) : e = .range ∨ e = .overlap := by
  unfold rangeChecks at h
  split at h
  · left; cases h; rfl
  · split at h
    · right; cases h; rfl
    · cases h

/-! ## Finishing a command -/

@[simp] theorem State.finish_ok (s : State) (f : ErrCode → State → State) (t : State) :
    s.finish f (.ok t) = t.complete .none := rfl

@[simp] theorem State.finish_error (s : State) (f : ErrCode → State → State) (e : ErrCode) :
    s.finish f (.error e) = (f e s).complete e := rfl

/-- However a command finishes, it is no longer in flight and DONE is set (`60_exceptions.md` R219). -/
theorem State.finish_done (s : State) (f : ErrCode → State → State) (r : Except ErrCode State) :
    (s.finish f r).pending = none ∧ (s.finish f r).done = true ∧ (s.finish f r).raced = false := by
  cases r <;> simp

/-- A free choice among codes is one of them. -/
theorem State.freeErr_mem (s : State) {codes : List ErrCode} (h : codes ≠ []) : s.freeErr codes ∈ codes := by
  have hlt : Config.freeNat s.draws .errCode % codes.length < codes.length :=
    Nat.mod_lt _ (List.length_pos_iff.2 h)
  unfold State.freeErr
  rw [List.getD_eq_getElem _ _ hlt]
  exact List.getElem_mem hlt

/-! ## The commands' pseudocode -/

theorem cksumRun_ok {s t : State} (h : cksumRun s = .ok t) :
    operandChecks .cksum s = none ∧
      t = { s with
        cksumRes := checksumFrom 0 (s.mem.readBytes s.src.base s.src.len)
        ckMatch  := checksumMatches (checksumFrom 0 (s.mem.readBytes s.src.base s.src.len)) s.cksumExp } := by
  unfold cksumRun at h
  split at h
  · cases h
  · rename_i hc; cases h; exact ⟨hc, rfl⟩

theorem decryptRun_ok {s t : State} (h : decryptRun s = .ok t) :
    operandChecks .decrypt s = none ∧ s.src.len ≤ s.dst.len ∧
      t = { s with
        mem    := s.mem.writeBytes s.dst.base (keystreamXor s.lfsr (s.mem.readBytes s.src.base s.src.len)).1
        lfsr   := (keystreamXor s.lfsr (s.mem.readBytes s.src.base s.src.len)).2
        outLen := s.ops.srcLen } := by
  unfold decryptRun at h
  split at h
  · cases h
  · rename_i hc
    split at h
    · cases h
    · rename_i hl; cases h; exact ⟨hc, Nat.le_of_not_lt hl, rfl⟩

theorem decompressRun_ok {s t : State} (h : decompressRun s = .ok t) :
    operandChecks .decompress s = none ∧
      ∃ out, expandInto s.dict s.dst.len (s.mem.readBytes s.src.base s.src.len) [] = .ok out ∧
        t = { s with mem := s.mem.writeBytes s.dst.base out, outLen := BitVec.ofNat 64 out.length } := by
  unfold decompressRun at h
  split at h
  · cases h
  · rename_i hc
    split at h
    · cases h
    · rename_i out ho; cases h; exact ⟨hc, out, ho, rfl⟩

theorem float2Run_ok {s t : State} (h : float2Run s = .ok t) :
    operandChecks .float2 s = none ∧ s.src.len % 3 = 0 ∧ s.src2.len = s.src.len / 3 ∧ 4 * (s.src.len / 3) ≤ s.dst.len ∧
      t = writeFloats s (s.src.len / 3) (float2Word s.mem s.src.base s.src2.base) := by
  unfold float2Run at h
  split at h
  · cases h
  · rename_i hc
    dsimp only at h
    split at h
    · cases h
    · split at h
      · cases h
      · split at h
        · cases h
        · rename_i h1 h2 h3
          cases h
          exact ⟨hc, by omega, by omega, by omega, rfl⟩

theorem float3Run_ok {s t : State} (h : float3Run s = .ok t) :
    operandChecks .float3 s = none ∧ s.src.len % 3 = 0 ∧ s.src2.len = s.src.len / 3 ∧
      s.src3.len = signLen s.params.signPack (s.src.len / 3) ∧ 4 * (s.src.len / 3) ≤ s.dst.len ∧
      t = writeFloats s (s.src.len / 3) (float3Word s.params.signPack s.mem s.src.base s.src2.base s.src3.base) := by
  unfold float3Run at h
  split at h
  · cases h
  · rename_i hc
    dsimp only at h
    split at h
    · cases h
    · split at h
      · cases h
      · split at h
        · cases h
        · split at h
          · cases h
          · rename_i h1 h2 h3 h4
            cases h
            exact ⟨hc, by omega, by omega, by omega, by omega, rfl⟩

/-- What HDRPARSE's pseudocode gives when it raises nothing: too short or bad magic, too short for its flags, or valid. -/
theorem hdrparseRun_ok {s t : State} (h : hdrparseRun s = .ok t) :
    operandChecks .hdrparse s = none ∧
      ((s.src.len < 20 ∨ magicMatches (containerByte s) = false) ∧ t = setHdrValid s.freeHeader.drawn false ∨
       20 ≤ s.src.len ∧ magicMatches (containerByte s) = true ∧ s.src.len < headerLen (containerByte s 3) ∧
         t = setHdrValid (loadFixedHeader s).freeDictAndExpected.drawn false ∨
       20 ≤ s.src.len ∧ magicMatches (containerByte s) = true ∧ headerLen (containerByte s 3) ≤ s.src.len ∧
         t = setHdrValid (loadExpected (loadDict (loadFixedHeader s))) true) := by
  unfold hdrparseRun at h
  split at h
  · cases h
  · rename_i hc
    refine ⟨hc, ?_⟩
    split at h
    · rename_i h1; cases h; exact .inl ⟨.inl h1, rfl⟩
    · rename_i h1
      split at h
      · rename_i h2; cases h; exact .inl ⟨.inr (by simpa using h2), rfl⟩
      · rename_i h2
        have h2' : magicMatches (containerByte s) = true := by simpa using h2
        split at h
        · rename_i h3; cases h; exact .inr (.inl ⟨by omega, h2', h3, rfl⟩)
        · rename_i h3; cases h; exact .inr (.inr ⟨by omega, h2', by omega, rfl⟩)

/-! ## Streams -/

@[simp] theorem length_keystreamXor (k : U16) (bs : List Byte) : (keystreamXor k bs).1.length = bs.length := by
  induction k, bs using keystreamXor.induct with
  | case1 s b0 b1 rest w ih => simp [keystreamXor, w, ih]
  | case2 s b => rfl
  | case3 s => rfl

theorem length_floatBytes (f0 f1 f2 e s : Byte) : (floatBytes f0 f1 f2 e s).length = 4 := rfl

theorem length_floats (n : Nat) (word : Nat → List Byte) (h : ∀ k, (word k).length = 4) :
    ((List.range n).flatMap word).length = 4 * n := by
  induction n with
  | zero => simp
  | succ n ih => rw [List.range_succ, List.flatMap_append, List.length_append, ih]; simp [h]; omega

/-- The output of a stream is as long as the sum over its tokens (`43_decompress.md` R150). -/
theorem length_expandTokens (d : Vector Byte 16) (bs : List Byte) : (expandTokens d bs).length = tokenSum bs := by
  fun_induction expandTokens d bs <;> simp_all [tokenSum] <;> omega

theorem emitRun_eq (cap n : Nat) (out : List Byte) (v : Byte) (h : out.length ≤ cap) :
    emitRun cap n out v =
      if out.length + n ≤ cap then .ok (out ++ List.replicate n v) else .error .capacity := by
  induction n generalizing out with
  | zero => simp [emitRun, h]
  | succ n ih =>
    unfold emitRun emit
    by_cases hc : cap ≤ out.length
    · rw [if_pos hc, if_neg (by omega)]
    · rw [if_neg hc]
      simp only
      rw [ih _ (by simp; omega)]
      simp only [List.length_append, List.length_singleton, List.replicate_succ, List.append_assoc,
        List.singleton_append]
      congr 1
      simp; omega

/-- The token loop with a capacity: the whole output where it fits, CAPACITY where it does not (`43_decompress.md` R150). -/
theorem expandInto_eq (d : Vector Byte 16) (cap : Nat) (bs out : List Byte) (h : out.length ≤ cap) :
    expandInto d cap bs out =
      if out.length + (expandTokens d bs).length ≤ cap then .ok (out ++ expandTokens d bs) else .error .capacity := by
  fun_induction expandTokens d bs generalizing out with
  | case1 => simp [expandInto, h]
  | case2 c =>
    by_cases hc : c = escapeMarker <;> by_cases hl : cap ≤ out.length <;>
      simp [expandInto, emit, hc, hl]
  | case3 c x rest hc ih =>
    by_cases hl : cap ≤ out.length
    · simp [expandInto, emit, hc, hl]; omega
    · simp only [expandInto, emit, if_pos hc, if_neg hl]
      rw [ih _ (by simp; omega)]
      simp [Nat.add_assoc, Nat.add_comm 1]
  | case4 c rest hc ih =>
    by_cases hl : cap ≤ out.length
    · simp [expandInto, emit, hc, hl]; omega
    · simp only [expandInto, emit, if_neg hc, if_neg hl, if_true]
      rw [ih _ (by simp; omega)]
      simp [Nat.add_assoc, Nat.add_comm 1]
  | case5 c x rest hc hx ih =>
    simp only [expandInto, if_neg hc, if_neg hx]
    rw [emitRun_eq _ _ _ _ h]
    by_cases hl : out.length + runCount x ≤ cap
    · simp only [if_pos hl]
      rw [ih _ (by simp; omega)]
      simp [Nat.add_assoc]
    · simp only [if_neg hl]
      rw [if_neg (by simp; omega)]

end Sys2Proof.Machine
end

