-- ==== Sys2Proof/Laws/PerInstr.lean ====
section
/-! SUPPORT. What holds of every command as syntax, one lemma for each constructor: the word of a command carries an opcode of
`30_encoding.md` R83, RSVD 0, and an immediate only where R82 lets it. -/

namespace Sys2Proof.Laws.WordIsLegal

/-- The command's word is legal (`30_encoding.md` R85). -/
def Statement (i : Instr) : Prop := legal (encode i) = true

theorem fields_commandWord (imm : U16) (rsvd opc : Byte) :
    opcField (commandWord imm rsvd opc) = opc ∧ rsvdField (commandWord imm rsvd opc) = rsvd ∧
      immField (commandWord imm rsvd opc) = imm := by
  unfold opcField rsvdField immField commandWord
  refine ⟨?_, ?_, ?_⟩ <;> apply BitVec.eq_of_getLsbD_eq <;> intro j hj <;>
    simp only [BitVec.getLsbD_extractLsb', BitVec.getLsbD_append, hj, decide_true, Bool.true_and]
  · simp [hj]
  · rw [if_neg (by omega), if_pos (by omega)]; congr 1; omega
  · rw [if_neg (by omega), if_neg (by omega)]; congr 1; omega

theorem lfsrSeed (seed : U16) : Statement (.lfsrSeed seed) := by
  simp [Statement, legal, encode, fields_commandWord, opcodes, immOpcodes]
theorem lfsrStep (count : Nat) : Statement (.lfsrStep count) := by
  simp [Statement, legal, encode, fields_commandWord, opcodes, immOpcodes]
theorem cksum : Statement .cksum := by
  show legal (encode .cksum) = true
  decide
theorem decrypt : Statement .decrypt := by
  show legal (encode .decrypt) = true
  decide
theorem decompress : Statement .decompress := by
  show legal (encode .decompress) = true
  decide
theorem float2 : Statement .float2 := by
  show legal (encode .float2) = true
  decide
theorem float3 : Statement .float3 := by
  show legal (encode .float3) = true
  decide
theorem hdrparse : Statement .hdrparse := by
  show legal (encode .hdrparse) = true
  decide

end Sys2Proof.Laws.WordIsLegal
end

