-- ==== Sys2Proof/Laws/Decode.lean ====
section
/-! SUPPORT. A command word and its three fields. -/

namespace Sys2Proof

/-- A word is the command word of its fields (`30_encoding.md` R81). -/
theorem commandWord_fields (w : Word) : commandWord (immField w) (rsvdField w) (opcField w) = w := by
  unfold commandWord immField rsvdField opcField
  apply BitVec.eq_of_getLsbD_eq
  intro j hj
  simp only [BitVec.getLsbD_append, BitVec.getLsbD_extractLsb']
  split_ifs with h1 h2
  · simp [h1]
  · simp [h2, show 8 + (j - 8) = j by omega]
  · simp [show 16 + (j - 8 - 8) = j by omega]; omega

@[simp] theorem decode_commandWord (imm : U16) (rsvd opc : Byte) :
    decode (commandWord imm rsvd opc) = decodeFields opc rsvd imm := by
  obtain ⟨h1, h2, h3⟩ := Laws.WordIsLegal.fields_commandWord imm rsvd opc
  simp only [decode, h1, h2, h3]

/-- Every command of the decoder has its own opcode, RSVD 0, and an immediate only where R82 lets it. -/
theorem decodeFields_ok {opc rsvd : Byte} {imm : U16} {i : Instr} (h : decodeFields opc rsvd imm = .ok i) :
    rsvd = 0 ∧
      (opc = 0x01 ∧ i = .lfsrSeed imm ∨ opc = 0x02 ∧ i = .lfsrStep imm.toNat ∨
       imm = 0 ∧ (opc = 0x10 ∧ i = .cksum ∨ opc = 0x20 ∧ i = .decrypt ∨ opc = 0x30 ∧ i = .decompress ∨
         opc = 0x40 ∧ i = .float2 ∨ opc = 0x41 ∧ i = .float3 ∨ opc = 0x50 ∧ i = .hdrparse)) := by
  have hi : ∀ {j}, immCommand rsvd j = .ok i → rsvd = 0 ∧ i = j := by
    intro j hj
    unfold immCommand at hj
    split_ifs at hj with hr
    · exact ⟨by simpa using hr, by injection hj with hj; exact hj.symm⟩
  have hp : ∀ {j}, plainCommand rsvd imm j = .ok i → rsvd = 0 ∧ imm = 0 ∧ i = j := by
    intro j hj
    unfold plainCommand at hj
    split_ifs at hj with hr hm
    · exact ⟨by simpa using hr, by simpa using hm, by injection hj with hj; exact hj.symm⟩
  unfold decodeFields at h
  split_ifs at h with h1 h2 h3 h4 h5 h6 h7 h8
  · obtain ⟨a, b⟩ := hi h; exact ⟨a, .inl ⟨h1, b⟩⟩
  · obtain ⟨a, b⟩ := hi h; exact ⟨a, .inr (.inl ⟨h2, b⟩)⟩
  · obtain ⟨a, b, c⟩ := hp h; exact ⟨a, .inr (.inr ⟨b, .inl ⟨h3, c⟩⟩)⟩
  · obtain ⟨a, b, c⟩ := hp h; exact ⟨a, .inr (.inr ⟨b, .inr (.inl ⟨h4, c⟩)⟩)⟩
  · obtain ⟨a, b, c⟩ := hp h; exact ⟨a, .inr (.inr ⟨b, .inr (.inr (.inl ⟨h5, c⟩))⟩)⟩
  · obtain ⟨a, b, c⟩ := hp h; exact ⟨a, .inr (.inr ⟨b, .inr (.inr (.inr (.inl ⟨h6, c⟩)))⟩)⟩
  · obtain ⟨a, b, c⟩ := hp h; exact ⟨a, .inr (.inr ⟨b, .inr (.inr (.inr (.inr (.inl ⟨h7, c⟩))))⟩)⟩
  · obtain ⟨a, b, c⟩ := hp h; exact ⟨a, .inr (.inr ⟨b, .inr (.inr (.inr (.inr (.inr ⟨h8, c⟩))))⟩)⟩

end Sys2Proof
end

