-- ==== Sys2Proof/Laws/Registers.lean ====
section
/-! SUPPORT. The register map and the bus views: the map and its inverse agree, halves and dictionary words bit by bit, and what
a host register write is while BUSY is 0. -/

namespace Sys2Proof.Machine

/-- Every named register is found at its offset (`10_state.md` R22). -/
@[simp] theorem regAt_regOffset (r : Reg) : regAt (regOffset r) = some r := by
  rcases r with _ | _ | _ | _ | _ | _ | _ | ⟨q, h⟩ | k
  all_goals try decide
  · cases q <;> cases h <;> decide
  · revert k; decide

/-- A register access at a named register's offset is a block access (`30_encoding.md` R80). -/
@[simp] theorem accessError_regOffset (r : Reg) : accessError 32 (regOffset r) = none := by
  rcases r with _ | _ | _ | _ | _ | _ | _ | ⟨q, h⟩ | k
  all_goals try decide
  · cases q <;> cases h <;> decide
  · revert k; decide

/-- An offset with a register is aligned, inside the space, and that register's offset. -/
theorem regAt_some {off : Nat} {r : Reg} (h : regAt off = some r) : off % 4 = 0 ∧ off < 0x100 ∧ regOffset r = off := by
  have h1 := List.mem_of_find?_eq_some h
  have h2 := List.find?_some h
  simp only [decide_eq_true_eq] at h2
  subst h2
  refine ⟨?_, ?_, rfl⟩ <;> revert r <;> decide

theorem accessError_of_aligned {off : Nat} (h : off % 4 = 0) (h' : off < 0x100) : accessError 32 off = none := by
  unfold accessError
  rw [if_neg (by simp), if_neg (by omega), if_neg (by omega)]

/-- A host write of a named register while no command is in flight. -/
theorem hostOp_regWrite_idle {s : State} (hp : s.pending = none) (r : Reg) (w : Word) :
    hostOp (.regWrite 32 (regOffset r) w) s = .next (writeReg s r w) := by
  have hb : s.busy = false := by simp [State.busy, hp]
  simp only [hostOp, hostRegWrite, accessError_regOffset, regWrite, regAt_regOffset, hb]
  cases r <;> rfl

/-- A host read of a named register, in flight or not. -/
theorem hostOp_regRead (s : State) (r : Reg) :
    hostOp (.regRead 32 (regOffset r)) s = .next (note s (.reg (regOffset r) (readReg s r))) := by
  simp only [hostOp, hostRegRead, accessError_regOffset, regRead, regAt_regOffset]

@[simp] theorem getHalf_setHalf_same (v : U64) (h : Half) (w : Word) : getHalf (setHalf v h w) h = w := by
  cases h <;> apply BitVec.eq_of_getLsbD_eq <;> intro j hj
  · have := BitVec.getLsbD_append (x := v.extractLsb' 32 32) (y := w) (i := j)
    simpa [getHalf, setHalf, hj] using this
  · have := BitVec.getLsbD_append (x := w) (y := v.extractLsb' 0 32) (i := 32 + j)
    simpa [getHalf, setHalf, hj] using this

@[simp] theorem getHalf_setHalf_other (v : U64) {h g : Half} (w : Word) (hg : g ≠ h) :
    getHalf (setHalf v h w) g = getHalf v g := by
  cases h <;> cases g <;> first | exact absurd rfl hg | (apply BitVec.eq_of_getLsbD_eq; intro j hj)
  · have := BitVec.getLsbD_append (x := v.extractLsb' 32 32) (y := w) (i := 32 + j)
    simpa [getHalf, setHalf, hj] using this
  · have := BitVec.getLsbD_append (x := w) (y := v.extractLsb' 0 32) (i := j)
    simpa [getHalf, setHalf, hj] using this

/-- A 64-bit value is its two halves. -/
theorem eq_of_getHalf {v u : U64} (h : ∀ g, getHalf v g = getHalf u g) : v = u := by
  apply BitVec.eq_of_getLsbD_eq
  intro j hj
  by_cases hlt : j < 32
  · have := congrArg (fun x => x.getLsbD j) (h .lo)
    simpa [getHalf, hlt] using this
  · have := congrArg (fun x => x.getLsbD (j - 32)) (h .hi)
    simpa [getHalf, show j - 32 < 32 by omega, show 32 + (j - 32) = j by omega] using this

/-- Byte `j` of a word put together from four bytes. -/
theorem byte_of_word (b3 b2 b1 b0 : Byte) :
    (b3 ++ b2 ++ b1 ++ b0 : BitVec 32).extractLsb' 0 8 = b0 ∧ (b3 ++ b2 ++ b1 ++ b0 : BitVec 32).extractLsb' 8 8 = b1 ∧
      (b3 ++ b2 ++ b1 ++ b0 : BitVec 32).extractLsb' 16 8 = b2 ∧
      (b3 ++ b2 ++ b1 ++ b0 : BitVec 32).extractLsb' 24 8 = b3 := by
  have key : ∀ i, (b3 ++ b2 ++ b1 ++ b0 : BitVec 32).getLsbD i =
      if i < 8 then b0.getLsbD i else if i - 8 < 8 then b1.getLsbD (i - 8)
      else if i - 8 - 8 < 8 then b2.getLsbD (i - 8 - 8) else b3.getLsbD (i - 8 - 8 - 8) := by
    intro i
    have h1 := BitVec.getLsbD_append (x := b3 ++ b2 ++ b1) (y := b0) (i := i)
    have h2 := BitVec.getLsbD_append (x := b3 ++ b2) (y := b1) (i := i - 8)
    have h3 := BitVec.getLsbD_append (x := b3) (y := b2) (i := i - 8 - 8)
    rw [h3] at h2
    rw [h2] at h1
    exact h1
  refine ⟨?_, ?_, ?_, ?_⟩ <;> apply BitVec.eq_of_getLsbD_eq <;> intro j hj <;>
    simp only [BitVec.getLsbD_extractLsb', hj, decide_true, Bool.true_and, key]
  · simp [hj]
  · rw [if_neg (by omega), if_pos (by omega)]; congr 1; omega
  · rw [if_neg (by omega), if_neg (by omega), if_pos (by omega)]; congr 1; omega
  · rw [if_neg (by omega), if_neg (by omega), if_neg (by omega)]; congr 1; omega

end Sys2Proof.Machine
end

