-- ==== Sys2Proof/Laws/Specs.lean ====
section
/-! SUPPORT. The meanings' operations in the words of the statements: ranges and range checks as `Safety.lean` names them, the
LFSR as an iteration, the streams byte by byte, and what a command can do to memory. -/

namespace Sys2Proof.Machine

/-! ## Range checks -/

theorem inMemory_iff (s : State) (a l : U64) : Range.within ⟨a.toNat, l.toNat⟩ s.memSize = true ↔ InMemory s a l := by
  rw [Range.within_iff]; rfl

theorem overlap_iff (a l b k : U64) :
    Range.overlaps ⟨a.toNat, l.toNat⟩ ⟨b.toNat, k.toNat⟩ = true ↔ Overlap a l b k := by
  rw [Range.overlaps_iff]; rfl

/-- The check of the commands with one source and no destination. -/
theorem operandChecks_source {i : Instr} (hi : i = .cksum ∨ i = .hdrparse) (s : State) :
    operandChecks i s = if s.src.within s.memSize then none else some .range := by
  rcases hi with rfl | rfl <;> simp [operandChecks, rangeChecks, sourceRanges, destRange] <;> split_ifs <;> simp_all

/-- The check of the commands with one source and a destination answers nothing exactly when both are ready. -/
theorem operandChecks_srcDst {i : Instr} (hi : i = .decrypt ∨ i = .decompress) (s : State) :
    operandChecks i s = none ↔ SrcDstReady s := by
  have h1 := inMemory_iff s s.ops.srcAddr s.ops.srcLen
  have h2 := inMemory_iff s s.ops.dstAddr s.ops.dstCap
  have h3 := overlap_iff s.ops.dstAddr s.ops.dstCap s.ops.srcAddr s.ops.srcLen
  rcases hi with rfl | rfl <;>
  · rw [operandChecks, rangeChecks_eq_none]
    simp only [sourceRanges, destRange, SrcDstReady, State.src, State.dst, ← h1, ← h2, ← h3]
    simp [and_assoc]

/-- ... and RANGE exactly when one of the two ranges is not in range. -/
theorem operandChecks_srcDst_range {i : Instr} (hi : i = .decrypt ∨ i = .decompress) (s : State) :
    operandChecks i s = some .range ↔
      ¬(InMemory s s.ops.srcAddr s.ops.srcLen ∧ InMemory s s.ops.dstAddr s.ops.dstCap) := by
  rw [← inMemory_iff s, ← inMemory_iff s]
  rcases hi with rfl | rfl <;>
  · rw [operandChecks, rangeChecks_eq_range]
    simp [sourceRanges, destRange, State.src, State.dst]
    grind

/-! ## The LFSR and the keystream -/

theorem lfsrIterate_eq (n : Nat) (s : U16) : lfsrIterate n s = step16^[n] s := by
  induction n generalizing s with
  | zero => rfl
  | succ n ih => simp [lfsrIterate, ih]

theorem keystreamXor_state (k : U16) (bs : List Byte) : (keystreamXor k bs).2 = step16^[bs.length / 2] k := by
  induction k, bs using keystreamXor.induct with
  | case1 s b0 b1 rest w ih =>
    simp only [keystreamXor, ih, w, List.length_cons]
    rw [show (rest.length + 1 + 1) / 2 = rest.length / 2 + 1 by omega, Function.iterate_succ_apply]
  | case2 s b => simp [keystreamXor]
  | case3 s => simp [keystreamXor]

/-- Byte `i` of the keystream's output (`42_decrypt.md` R132). -/
theorem keystreamXor_byte (k : U16) (bs : List Byte) (i : Nat) (h : i < bs.length) :
    (keystreamXor k bs).1.getD i 0 = bs.getD i 0 ^^^
      (if i % 2 = 1 then (step16^[i / 2 + 1] k).extractLsb' 8 8
       else if i + 1 < bs.length then (step16^[i / 2 + 1] k).extractLsb' 0 8
       else (step16^[i / 2] k).extractLsb' 0 8) := by
  induction k, bs using keystreamXor.induct generalizing i with
  | case1 s b0 b1 rest w ih =>
    rcases i with _ | _ | i
    · simp [keystreamXor, lowByte]
    · simp [keystreamXor, highByte]
    · simp only [keystreamXor, List.getD_cons_succ, List.length_cons] at *
      rw [ih i (by omega)]
      simp only [show (i + 1 + 1) % 2 = i % 2 by omega, show (i + 1 + 1) / 2 = i / 2 + 1 by omega,
        Function.iterate_succ_apply, w, show (i + 1 + 1 + 1 < rest.length + 1 + 1) ↔ (i + 1 < rest.length) by omega]
  | case2 s b =>
    have : i = 0 := by simp at h; omega
    subst this
    simp [keystreamXor, lowByte]
  | case3 s => simp at h

/-! ## Checksums and floats -/

theorem checksumFrom_toNat (a : U16) (bs : List Byte) :
    (checksumFrom a bs).toNat = (a.toNat + (bs.map (·.toNat)).sum) % 65536 := by
  induction bs generalizing a with
  | nil => simp [checksumFrom]; omega
  | cons b bs ih =>
    simp only [checksumFrom, ih, BitVec.toNat_add, List.map_cons, List.sum_cons, BitVec.toNat_setWidth]
    have := b.isLt
    simp; omega

/-- Byte `j` of float `k` in the output of FLOAT2 or FLOAT3. -/
theorem read_writeFloats (m : Memory) (a n : Nat) (word : Nat → List Byte) (h : ∀ k, (word k).length = 4) (k j : Nat)
    (hk : k < n) (hj : j < 4) :
    (m.writeBytes a ((List.range n).flatMap word)).read (a + (4 * k + j)) = (word k).getD j 0 := by
  have get : ∀ n, k < n → ((List.range n).flatMap word).getD (4 * k + j) 0 = (word k).getD j 0 := by
    intro n
    induction n with
    | zero => intro h; omega
    | succ n ih =>
      intro hk
      have hl := length_floats n word h
      rw [List.range_succ, List.flatMap_append]
      by_cases hkn : k < n
      · rw [List.getD_append _ _ _ _ (by omega), ih hkn]
      · have : k = n := by omega
        subst this
        rw [List.getD_append_right _ _ _ _ (by omega), hl]
        simp
  rw [Memory.read_writeBytes, length_floats n word h, if_pos (by omega), Nat.add_sub_cancel_left, get n hk]

/-! ## What a command can do to memory -/

/-- After a command memory is as before, or the command has a destination and, from DST_ADDR on, at most DST_CAP bytes of a
destination in range were written, or the destination range holds any value. -/
theorem exec_memory {i : Instr} {s t : State} (h : exec i s = .next t) :
    t.mem = s.mem ∨
    (HasDestination i ∧ s.dst.within s.memSize = true ∧
      ∃ bs, bs.length ≤ s.dst.len ∧ t.mem = s.mem.writeBytes s.dst.base bs) ∨
    (HasDestination i ∧ t.mem = s.mem.scramble s.dst s.memSize s.draws) := by
  have within : ∀ {i}, operandChecks i s = none → destRange i s = some s.dst → s.dst.within s.memSize = true :=
    fun hc hd => (rangeChecks_eq_none.1 hc).1 s.dst (by simp [hd])
  cases i
  case lfsrSeed => cases h; exact .inl rfl
  case lfsrStep => cases h; exact .inl rfl
  case cksum =>
    injection h with h; subst h; refine .inl ?_
    split
    · rfl
    · cases h : cksumRun s with
      | error e => rfl
      | ok t => obtain ⟨-, rfl⟩ := cksumRun_ok h; rfl
  case hdrparse =>
    injection h with h; subst h; refine .inl ?_
    split
    · rfl
    · cases h : hdrparseRun s with
      | error e => rfl
      | ok t =>
        obtain ⟨-, ⟨-, rfl⟩ | ⟨-, -, -, rfl⟩ | ⟨-, -, -, rfl⟩⟩ := hdrparseRun_ok h
        · rfl
        · rfl
        · unfold loadExpected loadDict; split_ifs <;> rfl
  case decrypt =>
    injection h with h; subst h
    split
    · exact .inr (.inr ⟨trivial, rfl⟩)
    · cases h : decryptRun s with
      | error e => exact .inl rfl
      | ok t =>
        obtain ⟨hc, hl, rfl⟩ := decryptRun_ok h
        exact .inr (.inl ⟨trivial, within hc rfl, _, by simpa using hl, rfl⟩)
  case decompress =>
    injection h with h; subst h
    split
    · exact .inr (.inr ⟨trivial, rfl⟩)
    · cases h : decompressRun s with
      | error e => cases e <;> first | exact .inl rfl | exact .inr (.inr ⟨trivial, rfl⟩)
      | ok t =>
        obtain ⟨hc, o, ho, rfl⟩ := decompressRun_ok h
        rw [expandInto_eq _ _ _ _ (by simp)] at ho
        split_ifs at ho with hl
        cases ho
        exact .inr (.inl ⟨trivial, within hc rfl, _, by simpa using hl, rfl⟩)
  case float2 =>
    injection h with h; subst h
    split
    · exact .inr (.inr ⟨trivial, rfl⟩)
    · cases h : float2Run s with
      | error e => exact .inl rfl
      | ok t =>
        obtain ⟨hc, _, _, hl, rfl⟩ := float2Run_ok h
        exact .inr (.inl ⟨trivial, within hc rfl, _, by rw [length_floats _ _ (fun _ => rfl)]; exact hl, rfl⟩)
  case float3 =>
    injection h with h; subst h
    split
    · exact .inr (.inr ⟨trivial, rfl⟩)
    · cases h : float3Run s with
      | error e => exact .inl rfl
      | ok t =>
        obtain ⟨hc, _, _, _, hl, rfl⟩ := float3Run_ok h
        exact .inr (.inl ⟨trivial, within hc rfl, _, by rw [length_floats _ _ (fun _ => rfl)]; exact hl, rfl⟩)

end Sys2Proof.Machine
end

