-- ==== Sys2Proof/Tests/Slice0.lean ====
section
/-! SUPPORT. The model's own tests, small and few. Expected words are written bit by bit from `30_encoding.md` R81 and R83,
expected results are the rows of `95_test_vectors.md` named in the comments; then one witness for each statement that has
hypotheses. -/

namespace Sys2Proof.Tests
open Sys2Proof Sys2Proof.Machine

/-! ## WellFormed refuses ill-formed terms -/

theorem test_wf_stepCount : (Instr.lfsrStep 65536).wf = false ∧ (Instr.lfsrStep 65535).wf = true := by decide
theorem test_wf_writeWidth : (HostOp.regWrite 16 0x08 0).wf 65536 = false := by decide
theorem test_wf_writeAlignment : (HostOp.regWrite 32 0x0A 0).wf 65536 = false := by decide
theorem test_wf_writeOutside : (HostOp.regWrite 32 0x100 0).wf 65536 = false := by decide
theorem test_wf_readWidth : (HostOp.regRead 8 0x08).wf 65536 = false := by decide
theorem test_wf_readAlignment : (HostOp.regRead 32 0x09).wf 65536 = false := by decide
theorem test_wf_readOutside : (HostOp.regRead 32 0x104).wf 65536 = false := by decide
theorem test_wf_memWrite : (HostOp.memWrite 65536 1).wf 65536 = false := by decide
theorem test_wf_memRead : (HostOp.memRead 65536).wf 65536 = false := by decide
theorem test_wf_dictLoad : (Stmt.dictLoad [1, 2, 3]).wf = false := by decide
theorem test_wf_stmtCommand : (Stmt.command (.lfsrStep 65536)).wf = false := by decide

/-! ## Decoding, one word for each constructor: IMM16, RSVD, OPC (R81, R83) -/

theorem test_decode_lfsrSeed : decode 0b1010110011100001_00000000_00000001 = .ok (.lfsrSeed 0xACE1) := by decide
theorem test_decode_lfsrStep : decode 0b0000000001100100_00000000_00000010 = .ok (.lfsrStep 100) := by decide
theorem test_decode_cksum : decode 0b0000000000000000_00000000_00010000 = .ok .cksum := by decide
theorem test_decode_decrypt : decode 0b0000000000000000_00000000_00100000 = .ok .decrypt := by decide
theorem test_decode_decompress : decode 0b0000000000000000_00000000_00110000 = .ok .decompress := by decide
theorem test_decode_float2 : decode 0b0000000000000000_00000000_01000000 = .ok .float2 := by decide
theorem test_decode_float3 : decode 0b0000000000000000_00000000_01000001 = .ok .float3 := by decide
theorem test_decode_hdrparse : decode 0b0000000000000000_00000000_01010000 = .ok .hdrparse := by decide
/-- R85, R90 and `95_test_vectors.md` 2.8: illegal words. -/
theorem test_decode_illegal :
    decode 0b0000000000000000_00000000_00000011 = .error .reservedOpcode ∧
    decode 0b0000000000000001_00000000_00010000 = .error .immediateNotTaken ∧
    decode 0b0000000000000000_00000001_01010000 = .error .reservedField := by decide
theorem test_decodeTableWord : decodeTableWord 32 0x03E80002 = some (.lfsrStep 1000) ∧ decodeTableWord 8 0x41 = some .float3 ∧
    decodeTableWord 32 0x150 = none := by decide

/-! ## Assembly (R88, R89; the bus writes of P1 step 1 and of R42's DICT0) -/

theorem test_expand_src : expandStmt (.src 0x1000 20) =
    [.regWrite 32 0x20 0x00001000, .regWrite 32 0x24 0x00000000, .regWrite 32 0x28 0x00000014, .regWrite 32 0x2C 0x00000000] := by
  decide
theorem test_expand_dictLoad : (expandStmt (.dictLoad ((List.range 16).map (fun i => BitVec.ofNat 8 (0x30 + i))))).head? =
    some (.regWrite 32 0x80 0x33323130) := by decide
theorem test_expand_short : expandStmt .lfsrStepOnce = [.regWrite 32 0x00 0x00010002] ∧
    expandStmt .clrhaz = [.regWrite 32 0x04 0x00000004] := by decide

/-! ## Small machines -/

/-- dict[i] = 0x30 + i (`95_test_vectors.md` 2.4). -/
def dictionary : Vector Byte 16 := Vector.ofFn (fun i => BitVec.ofNat 8 (0x30 + i.val))

/-- A machine after reset with bytes at 0x100, SRC = (0x100, their number), DST = (0x200, cap), a key and a dictionary. -/
def machine (bytes : List Byte) (cap : U64) (key : U16) : State :=
  { State.reset with
    mem  := Memory.writeBytes [] 0x100 bytes
    ops  := { Operands.reset with srcAddr := 0x100, srcLen := BitVec.ofNat 64 bytes.length, dstAddr := 0x200, dstCap := cap }
    lfsr := key
    dict := dictionary }

/-- The same with SRC2 = (0x140, ...) and SRC3 = (0x180, ...) for the lanes of a float command. -/
def lanes (a b c : List Byte) (cap : U64) (pack : SignPack) : State :=
  let s := machine a cap 0x1337
  { s with
    params := { s.params with signPack := pack }
    mem := (s.mem.writeBytes 0x140 b).writeBytes 0x180 c
    ops := { s.ops with
      src2Addr := 0x140, src2Len := BitVec.ofNat 64 b.length, src3Addr := 0x180, src3Len := BitVec.ofNat 64 c.length } }

/-- The first step after a word was placed. -/
def run (s : State) (w : Nat) : Host.Outcome State Fault Refusal := step (s.withFetchWord 32 w)

/-- What a test looks at in a next state. -/
def after {α : Type} (o : Host.Outcome State Fault Refusal) (f : State → α) : Option α :=
  match o with
  | .next t => some (f t)
  | .fault _ => none
  | .refused _ => none

/-- `n` bytes of the destination, and STATUS. -/
def output (n : Nat) (t : State) : List Byte × Word := (t.mem.readBytes 0x200 n, regRead t 0x04)

/-- S4's container. -/
def container : List Byte :=
  [0x02, 0x13, 0x03, 0x00, 0x67, 0x45, 0x23, 0x01, 0x00, 0x00] ++
  [0x00, 0x00, 0x11, 0x11, 0x11, 0x11, 0x00, 0x00, 0x00, 0x00]

/-! ## One step of each command (`95_test_vectors.md` part 2) -/

theorem test_step_lfsrSeed : after (run State.reset 0xACE10001) (fun t => (t.lfsr, regRead t 0x04)) = some (0xACE1, 0x002) := by
  decide
theorem test_step_lfsrStep : after (run State.reset 0x00020002) (fun t => t.lfsr) = some 0x84CD := by decide
theorem test_step_lfsrStep_taps :
    (step16 0x1337, step16 0x0041, step16 0x2000, step16 0x0200, step16 0xFFFF, step16 0xACE1) =
      (0x099B, 0x0020, 0x9000, 0x8100, 0x7FFF, 0xD670) := by decide
/-- Row 1 of 2.2, with CKSUM_EXP 0x02FD. -/
theorem test_step_cksum : after (run { machine [0xFF, 0xFF, 0xFF] 0 0 with cksumExp := 0x02FD } 0x10)
    (fun t => (t.cksumRes, regRead t 0x04)) = some (0x02FD, 0x102) := by decide
/-- The last row of 2.2: SRC = (0xFFFF, 2). -/
theorem test_step_cksum_range :
    after (run { State.reset with ops := { Operands.reset with srcAddr := 0xFFFF, srcLen := 2 }, ckMatch := true } 0x10)
      (fun t => (t.cksumRes, regRead t 0x04)) = some (0, 0x022) := by decide
theorem test_step_decrypt : after (run (machine [0x48, 0x65, 0x6C, 0x6C, 0x6F] 5 0xBEEF) 0x20)
    (fun t => (output 5 t, t.lfsr)) = some (([0x3F, 0x3A, 0xD7, 0xC3, 0xD4], 0x002), 0xAFBB) := by decide
theorem test_step_decrypt_one : after (run (machine [0xAB] 1 0x1337) 0x20)
    (fun t => (output 1 t, t.lfsr)) = some (([0x9C], 0x002), 0x1337) := by decide
/-- S6. -/
theorem test_step_decompress : after (run (machine [0x01, 0x07, 0x42] 64 0) 0x30)
    (fun t => (output 6 t, t.outLen)) = some (([0x01, 0x32, 0x32, 0x32, 0x32, 0x00], 0x002), 5) := by decide
/-- `07 00 07` gives `07 07`; `01 07 42` into 4 bytes is CAPACITY. -/
theorem test_step_decompress_edges :
    after (run (machine [0x07, 0x00, 0x07] 2 0) 0x30) (output 2) = some ([0x07, 0x07], 0x002) ∧
    after (run (machine [0x01, 0x07, 0x42] 4 0) 0x30) (fun t => regRead t 0x04) = some 0x052 := by decide
theorem test_step_float2 : after (run (lanes [0x00, 0x00, 0x16, 0x00, 0x00, 0x80] [0x87, 0x7F] [] 8 .byteBit0) 0x40)
    (output 8) = some ([0x00, 0x00, 0x96, 0x43, 0x00, 0x00, 0x80, 0xBF], 0x002) := by decide
theorem test_step_float2_lane :
    after (run (lanes [0x00, 0x00, 0x16, 0x00] [0x87] [] 8 .byteBit0) 0x40) (output 1) = some ([0x00], 0x042) := by decide
theorem test_step_float3 : after (run (lanes [0xDB, 0x0F, 0xC9] [0x80] [0xFE] 4 .byteBit0) 0x41)
    (output 4) = some ([0xDB, 0x0F, 0x49, 0x40], 0x002) := by decide
/-- Nine floats, sign lane `02 01` (2.6): the top byte of each word, for both bit packings. -/
theorem test_step_float3_packings :
    let top (p : SignPack) := after (run (lanes (List.replicate 27 0x00) (List.replicate 9 0x7F) [0x02, 0x01] 36 p) 0x41)
      (fun t => (List.range 9).map (fun k => t.mem.read (0x203 + 4 * k)))
    top .bitsLsbFirst = some [0x3F, 0xBF, 0x3F, 0x3F, 0x3F, 0x3F, 0x3F, 0x3F, 0xBF] ∧
    top .bitsMsbFirst = some [0x3F, 0x3F, 0x3F, 0x3F, 0x3F, 0x3F, 0xBF, 0x3F, 0x3F] := by decide
/-- S4. -/
theorem test_step_hdrparse : after (run (machine container 0 0) 0x50)
    (fun t => (regRead t 0x04, t.origSize, t.dataSize, t.hdrLen)) = some (0x202, 0x1234567, 0x11111111, 20) := by decide
/-- S4 with byte 3 = 0x20 and `12 34`: CKSUM_EXP 0x1234; and its first 19 bytes: HDR_VALID 0, ERR 0. -/
theorem test_step_hdrparse_edges :
    after (run (machine (container.set 3 0x20 ++ [0x12, 0x34]) 0 0) 0x50)
      (fun t => (regRead t 0x04, t.hdrLen, t.cksumExp)) = some (0x202, 22, 0x1234) ∧
    after (run (machine (container.take 19) 0 0) 0x50) (fun t => regRead t 0x04) = some 0x002 := by decide
/-- 2.8: the word 0 is ILLEGAL, STATUS 0x012. -/
theorem test_step_illegal : after (run State.reset 0) (fun t => (t.cmd, regRead t 0x04)) = some (0, 0x012) := by decide

/-! ## Witnesses: for each statement with hypotheses, a concrete state and operands that meet all of them -/

/-- A machine with a command in flight. -/
def flight (bytes : List Byte) (cap : U64) (w : Word) : State := issue (machine bytes cap 0x1337) w

/-- The host's next operation. -/
def toDo (s : State) (ops : List HostOp) (turns : List Agent) : State :=
  { s with host := { s.host with script := ops, sched := turns } }

theorem witness_DecodeOfEncode : (Instr.lfsrStep 0).wf = true ∧ (Instr.lfsrStep 65535).wf = true ∧ Instr.hdrparse.wf = true := by
  decide
theorem witness_EncodeOfDecode : decode 0xFFFF0002 = .ok (.lfsrStep 65535) ∧ decode 0x00000001 = .ok (.lfsrSeed 0) := by decide
theorem witness_IssueStepOfCmdWrite_legal :
    (toDo State.reset [.regWrite 32 0x00 0x50] []).pending = none ∧
    (toDo State.reset [.regWrite 32 0x00 0x50] []).host.script = .regWrite 32 0x00 0x50 :: [] ∧
    ∃ i, decode 0x50 = .ok i := ⟨rfl, rfl, _, rfl⟩
theorem witness_IssueStepOfCmdWrite_illegal :
    (toDo State.reset [.regWrite 32 0x00 0x150] []).pending = none ∧
    (toDo State.reset [.regWrite 32 0x00 0x150] []).host.script = .regWrite 32 0x00 0x150 :: [] ∧
    ¬∃ i, decode 0x150 = .ok i :=
  ⟨rfl, rfl, by rintro ⟨i, h⟩; rw [show decode 0x150 = .error .reservedField from by decide] at h; cases h⟩
theorem witness_IllegalWordDoesNothingElse : State.reset.pending = none ∧ ∀ i, encode i ≠ 0x03 := by
  refine ⟨rfl, fun i h => ?_⟩
  have h' := congrArg opcField h
  cases i <;> simp [encode, Laws.WordIsLegal.fields_commandWord] at h' <;> exact absurd h' (by decide)
theorem witness_BusyRegisterWriteIsDropped :
    (flight [0x01] 4 0x10).pending ≠ none ∧ regAt 0x00 = some .cmd ∧ Reg.cmd ≠ .status ∧
    regAt 0x8C = some (.dict 3) ∧ Reg.dict 3 ≠ .status ∧ 0xFC % 4 = 0 ∧ 0xFC < 0x100 := by decide
theorem witness_RegisterMapOffsets : regAt 0x8C = some (.dict 3) ∧ regAt 0x90 = none ∧ regAt 0x1C = none ∧ regAt 0x74 ≠ none ∧
    regAt 0x78 = none ∧ regAt 0x02 = none := by decide
theorem witness_ReservedOffsetsAreHarmless : regAt 0x1C = none ∧ regAt 0x78 = none ∧ regAt 0x7C = none ∧ regAt 0x90 = none ∧
    regAt 0xFC = none ∧ 0x90 % 4 = 0 ∧ 0xFC % 4 = 0 := by decide
theorem witness_StatusWriteClearsOnlyHaz : (0x4 : Word).getLsbD 2 = true ∧ (0xFFFFFFFB : Word).getLsbD 2 = false := by decide
theorem witness_HalfWriteKeepsTheOtherHalf :
    State.reset.pending = none ∧ Reg64.dstCap ∉ ([.outLen, .origSize, .dataSize] : List Reg64) := by decide
theorem witness_idle_machine : State.reset.pending = none := rfl
theorem witness_BadAccessesAreRefused :
    ¬(16 = 32 ∧ 0x08 % 4 = 0 ∧ 0x08 < 0x100) ∧ ¬(32 = 32 ∧ 0xFE % 4 = 0 ∧ 0xFE < 0x100) ∧
    ¬(32 = 32 ∧ 0x100 % 4 = 0 ∧ 0x100 < 0x100) ∧ (32 = 32 ∧ 0xFC % 4 = 0 ∧ 0xFC < 0x100) := by decide
theorem witness_HostMemoryAccess :
    State.reset.pending = none ∧ 0xFFFF ≤ State.reset.params.memTop.toNat ∧ State.reset.params.memTop.toNat < 0x10000 := by decide
/-- The fault clause under BUSY, at the first address that does not exist. -/
theorem witness_HostMemoryAccess_busy :
    (flight [0x01] 4 0x10).pending ≠ none ∧ (flight [0x01] 4 0x10).params.memTop.toNat < 0x10000 := by decide
/-- A read of a named register notes its value, under BUSY too (R23, R33, R250). -/
theorem test_hostRead :
    after (hostOp (.regRead 32 0x08) State.reset) (fun t => t.host.log) = some [.reg 0x08 0x1337] ∧
    after (hostOp (.regRead 32 0x84) (flight [0x01] 4 0x10)) (fun t => t.host.log) = some [.reg 0x84 0x37363534] := by decide
theorem witness_StepRunsThePendingCommand :
    (flight [0x01] 4 0x10).pending = some 0x10 ∧ decode 0x10 = .ok .cksum ∧ (flight [0x01] 4 0x10).host.script = [] ∧
    (toDo (flight [0x01] 4 0x10) [.wait] []).host.script = .wait :: [] ∧
    HostOp.memRead 0 ≠ .wait ∧ (toDo (flight [0x01] 4 0x10) [.memRead 0] [.host]).host.sched = .host :: [] := by decide
theorem witness_PlacedWordRunsNext : 0xFFFF0002 < 2 ^ 32 ∧ decodeTableWord 32 0xFFFF0002 = some (.lfsrStep 65535) := by decide

/-- The machine right after reset meets the invariant's clauses, and so does it with a command in flight. -/
theorem inv_flight (w : Word) (h : legal w = true) : (issue State.reset w).Inv := by
  unfold issue
  rw [if_pos h]
  exact ⟨⟨List.Pairwise.nil, by simp [State.reset]⟩, by simp [State.reset], fun v hv => by cases hv; exact h,
    fun v hv => by cases hv; rfl, fun _ => rfl, fun _ => rfl, fun _ => rfl⟩
theorem witness_StepKeepsInvariant : (issue State.reset 0x10).Inv ∧ after (step (issue State.reset 0x10)) (fun t => t.done) = some true :=
  ⟨inv_flight _ (by decide), by decide⟩
theorem witness_PendingCommandCompletes : (issue State.reset 0x20).Inv ∧ (issue State.reset 0x20).pending ≠ none :=
  ⟨inv_flight _ (by decide), by decide⟩
/-- Both kinds of stop of OnlyBadHostAccessesStop happen. -/
theorem witness_OnlyBadHostAccessesStop :
    step (toDo State.reset [.memRead 0x10000] []) = .fault .noSuchAddress ∧
    step (toDo State.reset [.regRead 8 0] []) = .refused (.hostAccess .badWidth) := ⟨rfl, rfl⟩
theorem witness_ResetInputSetsEveryRegister :
    State.reset.pending = none ∧ (flight [0x01] 4 0x20).pending = some 0x20 ∧ decode 0x20 = .ok .decrypt ∧
    ¬(HasDestination .decrypt ∧ InRange (flight [0x01] 4 0x20).ops.dstAddr (flight [0x01] 4 0x20).ops.dstCap 0x204) ∧
    ¬(HasDestination .cksum ∧ InRange 0x200 4 0x200) := by
  refine ⟨rfl, by decide, by decide, ?_, fun h => h.1⟩
  rintro ⟨-, -, h⟩
  exact absurd h (by decide)
theorem witness_SeedSetsTheState : (machine [] 0 0).lfsr = 0 ∧ (machine [] 0 0).pending = none := by decide
theorem witness_MaximalPeriod : (1 : U16) ≠ 0 ∧ 0 < 1 ∧ 65534 < 65535 := by decide

/-- Sources and destination in range and apart, for a source that ends at MEM_SIZE and a destination that fits exactly. -/
def edge (len cap : U64) : State :=
  { State.reset with
    mem := Memory.writeBytes [] 0xFFFC [0x01, 0x02, 0x03, 0x04]
    ops := { Operands.reset with srcAddr := 0xFFFC, srcLen := len, dstAddr := 0xFFF8, dstCap := cap } }

theorem ready_edge : SrcDstReady (edge 4 4) := by
  simp [SrcDstReady, InMemory, Overlap, edge, State.reset, Operands.reset]
theorem ready_small : SrcDstReady (edge 4 3) := by
  simp [SrcDstReady, InMemory, Overlap, edge, State.reset, Operands.reset]

theorem witness_ChecksumResult :
    (edge 4 4).raced = false ∧ InMemory (edge 4 4) (edge 4 4).ops.srcAddr (edge 4 4).ops.srcLen := ⟨rfl, ready_edge.1⟩
/-- Also the witness of HeaderRangeFault: one byte more is out of range. -/
theorem witness_ChecksumRangeFault :
    (edge 5 4).raced = false ∧ ¬InMemory (edge 5 4) (edge 5 4).ops.srcAddr (edge 5 4).ops.srcLen := by
  refine ⟨rfl, ?_⟩
  simp [InMemory, edge, State.reset, Operands.reset]
theorem witness_ChecksumIgnoresOrder :
    let s := machine [0x01, 0x02] 0 0
    let t := machine [0x02, 0x01] 0 0
    s.raced = false ∧ t.raced = false ∧ InMemory s s.ops.srcAddr s.ops.srcLen ∧ InMemory t t.ops.srcAddr t.ops.srcLen ∧
    List.Perm ((List.range s.ops.srcLen.toNat).map (byteOf s s.ops.srcAddr))
      ((List.range t.ops.srcLen.toNat).map (byteOf t t.ops.srcAddr)) ∧
    (∃ s', exec .cksum s = .next s') ∧ ∃ t', exec .cksum t = .next t' := by
  refine ⟨rfl, rfl, by unfold InMemory; decide, by unfold InMemory; decide, by decide, ⟨_, rfl⟩, ⟨_, rfl⟩⟩
/-- An exact fit. -/
theorem witness_DecryptResult :
    (edge 4 4).raced = false ∧ SrcDstReady (edge 4 4) ∧ (edge 4 4).ops.srcLen.toNat ≤ (edge 4 4).ops.dstCap.toNat :=
  ⟨rfl, ready_edge, by decide⟩
/-- Each clause: out of range, overlapping by one byte, one byte short. -/
theorem witness_DecryptFaults :
    ¬(InMemory (edge 5 4) (edge 5 4).ops.srcAddr (edge 5 4).ops.srcLen ∧
      InMemory (edge 5 4) (edge 5 4).ops.dstAddr (edge 5 4).ops.dstCap) ∧
    (InMemory (edge 4 5) (edge 4 5).ops.srcAddr (edge 4 5).ops.srcLen ∧
      InMemory (edge 4 5) (edge 4 5).ops.dstAddr (edge 4 5).ops.dstCap ∧
      Overlap (edge 4 5).ops.dstAddr (edge 4 5).ops.dstCap (edge 4 5).ops.srcAddr (edge 4 5).ops.srcLen) ∧
    (SrcDstReady (edge 4 3) ∧ ¬(edge 4 3).ops.srcLen.toNat ≤ (edge 4 3).ops.dstCap.toNat) := by
  refine ⟨?_, ?_, ready_small, by decide⟩ <;> simp [InMemory, Overlap, edge, State.reset, Operands.reset]
/-- The second run reads the first one's output and writes over its input. -/
theorem witness_DecryptTwiceRestores :
    let s := edge 4 4
    let q : Operands := { Operands.reset with srcAddr := 0xFFF8, srcLen := 4, dstAddr := 0xFFFC, dstCap := 4 }
    s.raced = false ∧ SrcDstReady s ∧ s.ops.srcLen.toNat ≤ s.ops.dstCap.toNat ∧ ∃ s₁, exec .decrypt s = .next s₁ ∧
      q.srcAddr = s.ops.dstAddr ∧ q.srcLen = s₁.outLen ∧ q.srcLen.toNat ≤ q.dstCap.toNat ∧
      SrcDstReady { s₁ with ops := q, lfsr := s.lfsr } := by
  refine ⟨rfl, ready_edge, by decide, _, rfl, rfl, by decide, by decide, ?_⟩
  refine ⟨?_, ?_, ?_⟩ <;> simp only [InMemory, Overlap] <;> decide
/-- P = `first` in one machine, Q = `second` in another that takes over its LFSR_STATE, and P ++ Q in a third; every hypothesis
of KeystreamContinues but the ones about these next states, which are definitions here. -/
def Chained (first second : List Byte) : Prop :=
  let s := machine first 8 0x1337
  let u := machine (first ++ second) 8 0x1337
  ∃ s' u', DecryptReady s ∧ DecryptReady u ∧ exec .decrypt s = .next s' ∧ exec .decrypt u = .next u' ∧ u.lfsr = s.lfsr ∧
    let v := machine second 8 s'.lfsr
    (∃ v', exec .decrypt v = .next v') ∧ DecryptReady v ∧ v.lfsr = s'.lfsr ∧
    u.ops.srcLen.toNat = s.ops.srcLen.toNat + v.ops.srcLen.toNat ∧
    (∀ i, i < s.ops.srcLen.toNat → byteOf u u.ops.srcAddr i = byteOf s s.ops.srcAddr i) ∧
    (∀ j, j < v.ops.srcLen.toNat → byteOf u u.ops.srcAddr (s.ops.srcLen.toNat + j) = byteOf v v.ops.srcAddr j)

theorem witness_KeystreamContinues_even :
    Chained [0x01, 0x02] [0x03, 0x04, 0x05] ∧ (machine [0x01, 0x02] 8 0x1337).ops.srcLen.toNat % 2 = 0 := by
  refine ⟨⟨_, _, ?_, ?_, rfl, rfl, rfl, ⟨_, rfl⟩, ?_, rfl, ?_, ?_, ?_⟩, by decide⟩ <;>
    (try simp only [DecryptReady, SrcDstReady, InMemory, Overlap]) <;> decide
theorem witness_KeystreamContinues_odd :
    Chained [0x01] [0x02] ∧ (machine [0x01] 8 0x1337).ops.srcLen.toNat % 2 = 1 ∧
    0 < (machine [0x02] 8 0x1337).ops.srcLen.toNat := by
  refine ⟨⟨_, _, ?_, ?_, rfl, rfl, rfl, ⟨_, rfl⟩, ?_, rfl, ?_, ?_, ?_⟩, by decide⟩ <;>
    (try simp only [DecryptReady, SrcDstReady, InMemory, Overlap]) <;> decide
/-- An exact fit: `01 02 03 04` is four literals. -/
theorem witness_DecompressResult :
    (edge 4 4).raced = false ∧ SrcDstReady (edge 4 4) ∧
    (expandTokens (edge 4 4).dict ((List.range (edge 4 4).ops.srcLen.toNat).map (byteOf (edge 4 4) (edge 4 4).ops.srcAddr))).length ≤
      (edge 4 4).ops.dstCap.toNat := ⟨rfl, ready_edge, by decide⟩
/-- Both sides of DecompressCapacityIsExact, and the CAPACITY clause of DecompressFaults (the other clause: the first two of
witness_DecryptFaults). -/
theorem witness_DecompressFaults :
    (edge 4 3).raced = false ∧ SrcDstReady (edge 4 3) ∧
    (edge 4 3).ops.dstCap.toNat < (expandTokens (edge 4 3).dict
      ((List.range (edge 4 3).ops.srcLen.toNat).map (byteOf (edge 4 3) (edge 4 3).ops.srcAddr))).length :=
  ⟨rfl, ready_small, by decide⟩
theorem witness_LiteralsPassThrough :
    (edge 4 4).raced = false ∧ SrcDstReady (edge 4 4) ∧
    (∀ i, i < (edge 4 4).ops.srcLen.toNat → byteOf (edge 4 4) (edge 4 4).ops.srcAddr i ≠ 0x07) ∧
    (edge 4 4).ops.srcLen.toNat ≤ (edge 4 4).ops.dstCap.toNat :=
  ⟨rfl, ready_edge, by decide, by decide⟩

/-- One float into exactly four bytes. -/
theorem witness_Float2Words :
    let s := lanes [0x00, 0x00, 0x16] [0x87] [] 4 .byteBit0
    s.raced = false ∧ InMemory s s.ops.srcAddr s.ops.srcLen ∧ InMemory s s.ops.src2Addr s.ops.src2Len ∧
    InMemory s s.ops.dstAddr s.ops.dstCap ∧
    ¬Overlap s.ops.dstAddr s.ops.dstCap s.ops.srcAddr s.ops.srcLen ∧
    ¬Overlap s.ops.dstAddr s.ops.dstCap s.ops.src2Addr s.ops.src2Len ∧
    s.ops.srcLen.toNat = 3 * 1 ∧ s.ops.src2Len.toNat = 1 ∧ 4 * 1 ≤ s.ops.dstCap.toNat := by
  simp only [InMemory, Overlap]; decide
/-- Nine floats, so that the packed sign lane has two bytes. -/
theorem witness_Float3Words :
    let s := lanes (List.replicate 27 0x00) (List.replicate 9 0x7F) [0x02, 0x01] 36 .bitsLsbFirst
    s.raced = false ∧ InMemory s s.ops.srcAddr s.ops.srcLen ∧ InMemory s s.ops.src2Addr s.ops.src2Len ∧
    InMemory s s.ops.src3Addr s.ops.src3Len ∧ InMemory s s.ops.dstAddr s.ops.dstCap ∧
    ¬Overlap s.ops.dstAddr s.ops.dstCap s.ops.srcAddr s.ops.srcLen ∧
    ¬Overlap s.ops.dstAddr s.ops.dstCap s.ops.src2Addr s.ops.src2Len ∧
    ¬Overlap s.ops.dstAddr s.ops.dstCap s.ops.src3Addr s.ops.src3Len ∧
    s.ops.srcLen.toNat = 3 * 9 ∧ s.ops.src2Len.toNat = 9 ∧ s.params.signPack = .bitsLsbFirst ∧
    s.ops.src3Len.toNat = (9 + 7) / 8 ∧ 4 * 9 ≤ s.ops.dstCap.toNat := by
  simp only [InMemory, Overlap]; decide

/-- A float command's checks fail at the named one: the code it then records. -/
def floatCode (s : State) : Option ErrCode := after (exec .float3 s) (fun t => t.err)

/-- Each clause of Float2Faults and Float3Faults has a state: out of range, overlap by one byte, a lane too short, one byte of
capacity short; and a state where none holds completes. -/
theorem witness_FloatFaults :
    let s := lanes [0x00, 0x00, 0x16] [0x87] [0x01] 4 .byteBit0
    s.raced = false ∧ floatCode s = some .none ∧
    floatCode { s with ops := { s.ops with dstAddr := 0xFFFD } } = some .range ∧
    floatCode { s with ops := { s.ops with dstAddr := 0x17D } } = some .overlap ∧
    floatCode { s with ops := { s.ops with src2Len := 2 } } = some .lane ∧
    floatCode { s with ops := { s.ops with dstCap := 3 } } = some .capacity := by decide
/-- The same for FLOAT2. -/
theorem witness_Float2Faults :
    let s := lanes [0x00, 0x00, 0x16] [0x87] [] 4 .byteBit0
    let code (s : State) := after (exec .float2 s) (fun t => t.err)
    s.raced = false ∧ code s = some .none ∧
    code { s with ops := { s.ops with dstAddr := 0xFFFD } } = some .range ∧
    code { s with ops := { s.ops with dstAddr := 0x13D } } = some .overlap ∧
    code { s with ops := { s.ops with srcLen := 4 } } = some .lane ∧
    code { s with ops := { s.ops with dstCap := 3 } } = some .capacity := by decide

/-- A header that is exactly as long as its flags say (compressed and checksummed, 38 bytes), and a plain one of 20 bytes. -/
theorem witness_ValidHeaderIsLoaded :
    let s := machine (container.set 3 0xA0 ++ List.replicate 18 0x5A) 0 0
    let b := byteOf s s.ops.srcAddr
    s.raced = false ∧ InMemory s s.ops.srcAddr s.ops.srcLen ∧ 20 ≤ s.ops.srcLen.toNat ∧ b 0 = 0x02 ∧ b 1 = 0x13 ∧ b 2 = 0x03 ∧
    (b 3).getLsbD 7 = true ∧ (b 3).getLsbD 5 = true ∧
    20 + (if (b 3).getLsbD 7 then 16 else 0) + (if (b 3).getLsbD 5 then 2 else 0) ≤ s.ops.srcLen.toNat := by
  simp only [InMemory]; decide
theorem witness_ValidHeaderIsLoaded_plain :
    let s := machine container 0 0
    let b := byteOf s s.ops.srcAddr
    s.raced = false ∧ InMemory s s.ops.srcAddr s.ops.srcLen ∧ 20 ≤ s.ops.srcLen.toNat ∧ b 0 = 0x02 ∧ b 1 = 0x13 ∧ b 2 = 0x03 ∧
    20 + (if (b 3).getLsbD 7 then 16 else 0) + (if (b 3).getLsbD 5 then 2 else 0) ≤ s.ops.srcLen.toNat := by
  simp only [InMemory]; decide
/-- 19 bytes, and a wrong version byte. -/
theorem witness_ShortOrForeignHeaderIsInvalid :
    let s := machine (container.take 19) 0 0
    let t := machine (container.set 2 0x04) 0 0
    s.raced = false ∧ InMemory s s.ops.srcAddr s.ops.srcLen ∧ s.ops.srcLen.toNat < 20 ∧
    t.raced = false ∧ InMemory t t.ops.srcAddr t.ops.srcLen ∧ byteOf t t.ops.srcAddr 2 ≠ 0x03 := by
  simp only [InMemory]; decide
/-- S4 with byte 3 = 0x20 and one byte of the checksum: 21 bytes of 22. -/
theorem witness_HeaderLongerThanSourceIsInvalid :
    let s := machine (container.set 3 0x20 ++ [0x12]) 0 0
    let b := byteOf s s.ops.srcAddr
    s.raced = false ∧ InMemory s s.ops.srcAddr s.ops.srcLen ∧ 20 ≤ s.ops.srcLen.toNat ∧ b 0 = 0x02 ∧ b 1 = 0x13 ∧ b 2 = 0x03 ∧
    s.ops.srcLen.toNat < 20 + (if (b 3).getLsbD 7 then 16 else 0) + (if (b 3).getLsbD 5 then 2 else 0) := by
  simp only [InMemory]; decide

/-- A next state exists, with and without a destination (RegisterWriters, OnlyTheDestinationIsWritten,
CompletionCodesOfEachCommand), and an address outside the destination. -/
theorem witness_exec_next :
    (∃ t, exec .cksum (edge 4 4) = .next t) ∧ (∃ t, exec .decrypt (edge 4 4) = .next t) ∧ ¬HasDestination .cksum ∧
    ¬InRange (edge 4 4).ops.dstAddr (edge 4 4).ops.dstCap 0xFFFC := by
  refine ⟨⟨_, rfl⟩, ⟨_, rfl⟩, id, fun h => ?_⟩
  exact absurd h.2 (by decide)
theorem witness_SuccessWritesOutLenBytes :
    HasDestination .decrypt ∧ (edge 4 4).raced = false ∧ after (exec .decrypt (edge 4 4)) (fun t => t.err) = some .none :=
  ⟨trivial, rfl, by decide⟩
/-- Two machines that differ in what DECRYPT's row does not name. -/
theorem witness_CommandDependsOnItsOperandsOnly :
    SameInputs .decrypt (edge 4 4) { edge 4 4 with cksumExp := 1, flags := 2, haz := true } ∧
    (∃ t, exec .decrypt (edge 4 4) = .next t) ∧
    ∃ t, exec .decrypt { edge 4 4 with cksumExp := 1, flags := 2, haz := true } = .next t :=
  ⟨⟨rfl, rfl, rfl, rfl, rfl, fun _ _ => rfl, rfl, rfl, rfl⟩, ⟨_, rfl⟩, ⟨_, rfl⟩⟩
/-- Two machines of a header that fails at step 6 (21 bytes of 22), which reaches step 3: the second clause for HDRPARSE; and of
a DECRYPT that faults (one byte of capacity short). -/
theorem witness_CommandDependsOnItsOperandsOnly_open :
    let s := machine (container.set 3 0x20 ++ [0x12]) 0 0
    HeaderIsParsed s ∧ SameInputs .hdrparse s { s with flags := 9, hdrLen := 9 } ∧
    after (exec .hdrparse s) (fun t => (t.hdrValid, t.flags, t.hdrLen)) = some (false, 0x20, 22) ∧
    SameInputs .decrypt (edge 4 3) { edge 4 3 with outLen := 7 } ∧
    after (exec .decrypt (edge 4 3)) (fun t => (t.err, t.lfsr)) = some (.capacity, 0x1337) := by
  refine ⟨?_, ⟨rfl, rfl, rfl, rfl, rfl, fun _ _ => rfl⟩, by decide, ⟨rfl, rfl, rfl, rfl, rfl, fun _ _ => rfl, rfl, rfl, rfl⟩,
    by decide⟩
  simp only [HeaderIsParsed, InMemory]
  decide
/-- An owned byte, the byte after it, and the last byte of memory. -/
theorem witness_OwnedRangesUnderBusy :
    let s := flight [0x01] 4 0x20
    s.pending = some 0x20 ∧ decode 0x20 = .ok .decrypt ∧ Owns .decrypt s 0x203 ∧ ¬Owns .decrypt s 0x204 ∧
    0xFFFF ≤ s.params.memTop.toNat ∧ ¬(HasDestination .decrypt ∧ InRange s.ops.dstAddr s.ops.dstCap 0x100) := by
  refine ⟨by decide, by decide, ?_, ?_, by decide, ?_⟩
  · exact .inr (by unfold InRange; decide)
  · unfold Owns InRange; decide
  · rintro ⟨-, h, -⟩; exact absurd h (by decide)
/-- A raced command of each kind still takes a next state. -/
theorem witness_RaceStaysInsideTheOutputs :
    let s := { flight [0x01] 4 0x20 with raced := true }
    s.raced = true ∧ (∃ t, exec .decrypt s = .next t) ∧ (∃ t, exec .hdrparse s = .next t) ∧ ∃ t, exec .cksum s = .next t :=
  ⟨rfl, ⟨_, rfl⟩, ⟨_, rfl⟩, ⟨_, rfl⟩⟩
theorem witness_BusyRegistersAreStable :
    (flight [0x01] 4 0x20).pending ≠ none ∧ HostOp.regWrite 32 0x08 0 ≠ .reset ∧
    after (hostOp (.regWrite 32 0x08 0) (flight [0x01] 4 0x20)) (fun t => (t.lfsr, t.haz)) = some (0x1337, true) ∧
    (∀ w, HostOp.regWrite 32 0x08 0 ≠ .regWrite 32 0x04 w) := by
  refine ⟨by decide, by decide, by decide, ?_⟩
  intro w h; cases h
/-- HAZ set, and cleared by each of its two ways. -/
theorem witness_HazIsSticky :
    after (step (toDo (flight [0x01] 4 0x20) [.regWrite 32 0x08 0] [.host])) (fun t => t.haz) = some true ∧
    after (step (toDo { State.reset with haz := true } [.regWrite 32 0x04 4] [])) (fun t => t.haz) = some false ∧
    after (step (toDo { State.reset with haz := true } [.reset] [])) (fun t => t.haz) = some false := by decide
theorem witness_BothOrdersAreAdmitted :
    (flight [0x01] 4 0x20).pending = some 0x20 ∧ decode 0x20 = .ok .decrypt ∧
    Reg64.srcAddr ∉ ([.outLen, .origSize, .dataSize] : List Reg64) := by decide

end Sys2Proof.Tests
end

section
/-! PROOFS. A command's completion step: what every command leaves as it was (`60_exceptions.md` R219, `10_state.md` R39). -/

namespace Sys2Proof.Machine

/-- `t` has the operand registers, CMD, HAZ, the parameters and the host's side of `s`: what no command writes. -/
structure KeepsControls (s t : State) : Prop where
  ops : t.ops = s.ops
  cmd : t.cmd = s.cmd
  haz : t.haz = s.haz
  params : t.params = s.params
  host : t.host = s.host

/-- `t` is `s` after a completion step: no command in flight, DONE set, no race, and the controls kept. -/
structure CompletedFrom (s t : State) : Prop extends KeepsControls s t where
  pending : t.pending = none
  done : t.done = true
  raced : t.raced = false

/-- Completing changes none of the controls. -/
theorem KeepsControls.complete {s t : State} (h : KeepsControls s t) (e : ErrCode) : CompletedFrom s (t.complete e) :=
  ⟨⟨h.ops, h.cmd, h.haz, h.params, h.host⟩, rfl, rfl, rfl⟩

/-- A command completes, raced or not, when what it writes as a raced command, as a fault effect and as a result are none of
the controls. -/
theorem completedFrom_completion {s : State} {i : Instr} {outputs : State → State} {onFault : ErrCode → State → State}
    {r : Except ErrCode State} (houtputs : KeepsControls s (outputs s)) (hfault : ∀ e, KeepsControls s (onFault e s))
    (hok : ∀ t, r = .ok t → KeepsControls s t) :
    CompletedFrom s (if s.raced then s.completeRaced i outputs else s.finish onFault r) := by
  split
  · have hdrawn : KeepsControls s (outputs s).drawn :=
      ⟨houtputs.ops, houtputs.cmd, houtputs.haz, houtputs.params, houtputs.host⟩
    exact hdrawn.complete _
  · cases r with
    | ok t => exact (hok t rfl).complete .none
    | error e => exact (hfault e).complete e

theorem cksumRun_keepsControls {s t : State} (h : cksumRun s = .ok t) : KeepsControls s t := by
  obtain ⟨-, rfl⟩ := cksumRun_ok h
  exact ⟨rfl, rfl, rfl, rfl, rfl⟩

theorem decryptRun_keepsControls {s t : State} (h : decryptRun s = .ok t) : KeepsControls s t := by
  obtain ⟨-, -, rfl⟩ := decryptRun_ok h
  exact ⟨rfl, rfl, rfl, rfl, rfl⟩

theorem decompressRun_keepsControls {s t : State} (h : decompressRun s = .ok t) : KeepsControls s t := by
  obtain ⟨-, _, -, rfl⟩ := decompressRun_ok h
  exact ⟨rfl, rfl, rfl, rfl, rfl⟩

/-- DECOMPRESS's fault effects, the lost destination after CAPACITY among them. -/
theorem decompressFault_keepsControls (e : ErrCode) (s : State) : KeepsControls s (decompressFault e s) := by
  cases e <;> exact ⟨rfl, rfl, rfl, rfl, rfl⟩

theorem float2Run_keepsControls {s t : State} (h : float2Run s = .ok t) : KeepsControls s t := by
  obtain ⟨-, -, -, -, rfl⟩ := float2Run_ok h
  exact ⟨rfl, rfl, rfl, rfl, rfl⟩

theorem float3Run_keepsControls {s t : State} (h : float3Run s = .ok t) : KeepsControls s t := by
  obtain ⟨-, -, -, -, -, rfl⟩ := float3Run_ok h
  exact ⟨rfl, rfl, rfl, rfl, rfl⟩

/-- HDRPARSE's three results: too short or foreign, too short for its flags, and valid. -/
theorem hdrparseRun_keepsControls {s t : State} (h : hdrparseRun s = .ok t) : KeepsControls s t := by
  obtain ⟨-, ⟨-, rfl⟩ | ⟨-, -, -, rfl⟩ | ⟨-, -, -, rfl⟩⟩ := hdrparseRun_ok h
  · exact ⟨rfl, rfl, rfl, rfl, rfl⟩
  · exact ⟨rfl, rfl, rfl, rfl, rfl⟩
  · unfold loadExpected loadDict
    split_ifs <;> exact ⟨rfl, rfl, rfl, rfl, rfl⟩

/-- Every command answers a next state, and it is a completed one. -/
theorem exec_completes (i : Instr) (s : State) : ∃ t, exec i s = .next t ∧ CompletedFrom s t := by
  cases i with
  | lfsrSeed seed => exact ⟨_, rfl, ⟨rfl, rfl, rfl, rfl, rfl⟩, rfl, rfl, rfl⟩
  | lfsrStep count => exact ⟨_, rfl, ⟨rfl, rfl, rfl, rfl, rfl⟩, rfl, rfl, rfl⟩
  | cksum =>
    exact ⟨_, rfl, completedFrom_completion ⟨rfl, rfl, rfl, rfl, rfl⟩ (fun _ => ⟨rfl, rfl, rfl, rfl, rfl⟩)
      (fun _ => cksumRun_keepsControls)⟩
  | decrypt =>
    exact ⟨_, rfl, completedFrom_completion ⟨rfl, rfl, rfl, rfl, rfl⟩ (fun _ => ⟨rfl, rfl, rfl, rfl, rfl⟩)
      (fun _ => decryptRun_keepsControls)⟩
  | decompress =>
    exact ⟨_, rfl, completedFrom_completion ⟨rfl, rfl, rfl, rfl, rfl⟩ (decompressFault_keepsControls · s)
      (fun _ => decompressRun_keepsControls)⟩
  | float2 =>
    exact ⟨_, rfl, completedFrom_completion ⟨rfl, rfl, rfl, rfl, rfl⟩ (fun _ => ⟨rfl, rfl, rfl, rfl, rfl⟩)
      (fun _ => float2Run_keepsControls)⟩
  | float3 =>
    exact ⟨_, rfl, completedFrom_completion ⟨rfl, rfl, rfl, rfl, rfl⟩ (fun _ => ⟨rfl, rfl, rfl, rfl, rfl⟩)
      (fun _ => float3Run_keepsControls)⟩
  | hdrparse =>
    exact ⟨_, rfl, completedFrom_completion ⟨rfl, rfl, rfl, rfl, rfl⟩ (fun _ => ⟨rfl, rfl, rfl, rfl, rfl⟩)
      (fun _ => hdrparseRun_keepsControls)⟩

/-- Settles O48, by `exec_completes`: one case for each command. -/
theorem everyCommandCompletes : Obligations.EveryCommandCompletes := by
  intro i s
  obtain ⟨t, ht, h⟩ := exec_completes i s
  exact ⟨t, ht, h.pending, h.done, h.raced, h.ops, h.cmd, h.haz, h.params, h.host⟩

end Sys2Proof.Machine
end

section
/-! PROOFS. One step, by who moves (`00_scope.md` R15): the host while nothing is in flight; else the core, unless the
schedule gives the host the turn (log 2). -/

namespace Sys2Proof.Machine

theorem coreStep_of_decode {s : State} {w : Word} {i : Instr} (hp : s.pending = some w) (hd : decode w = .ok i) :
    coreStep s = exec i s := by
  simp only [coreStep, hp, hd]

/-- With no command in flight the host moves, and no schedule entry is used up. -/
theorem step_idle {s : State} (hp : s.pending = none) : step s = hostStep s := by
  simp only [step, mover, tookTurn, hp]

theorem hostStep_nil {s : State} (hs : s.host.script = []) : hostStep s = .next s := by
  simp only [hostStep, hs]

theorem hostStep_cons {s : State} {op : HostOp} {rest : List HostOp} (hs : s.host.script = op :: rest) :
    hostStep s = hostOp op { s with host := { s.host with script := rest } } := by
  simp only [hostStep, hs]

section
variable {s : State} {w : Word} {op : HostOp} {rest : List HostOp} {q : List Agent} (hp : s.pending = some w)
include hp

/-- With a command in flight and nothing left for the host, the core moves. -/
theorem step_flight_nil (hs : s.host.script = []) : step s = coreStep s := by
  simp only [step, mover, tookTurn, hp, hs]

/-- With a command in flight and `wait` next, the core moves (`30_encoding.md` R89). -/
theorem step_flight_wait (hs : s.host.script = .wait :: rest) : step s = coreStep s := by
  simp only [step, mover, tookTurn, hp, hs]

/-- With a command in flight and another operation next, the schedule names who moves. -/
theorem mover_flight_op (hs : s.host.script = op :: rest) (hop : op ≠ .wait) : mover s = s.host.sched.headD .core := by
  cases op with
  | wait => exact absurd rfl hop
  | _ => simp only [mover, hp, hs]

/-- ... and its first entry is used up. -/
theorem tookTurn_flight_op (hs : s.host.script = op :: rest) (hop : op ≠ .wait) :
    tookTurn s = { s with host := { s.host with sched := s.host.sched.tail } } := by
  cases op with
  | wait => exact absurd rfl hop
  | _ => simp only [tookTurn, hp, hs]

theorem step_flight_schedEmpty (hs : s.host.script = op :: rest) (hop : op ≠ .wait) (hq : s.host.sched = []) :
    step s = coreStep s := by
  have hturn : tookTurn s = s := by
    rw [tookTurn_flight_op hp hs hop, hq, List.tail_nil, ← hq]
  simp only [step, mover_flight_op hp hs hop, hq, List.headD_nil, hturn]

theorem step_flight_coreTurn (hs : s.host.script = op :: rest) (hop : op ≠ .wait) (hq : s.host.sched = .core :: q) :
    step s = coreStep { s with host := { s.host with sched := q } } := by
  simp only [step, mover_flight_op hp hs hop, tookTurn_flight_op hp hs hop, hq, List.headD_cons, List.tail_cons]

theorem step_flight_hostTurn (hs : s.host.script = op :: rest) (hop : op ≠ .wait) (hq : s.host.sched = .host :: q) :
    step s = hostOp op { s with host := { s.host with script := rest, sched := q } } := by
  simp only [step, mover_flight_op hp hs hop, tookTurn_flight_op hp hs hop, hq, List.headD_cons, List.tail_cons]
  exact hostStep_cons hs

end

/-- Settles O18, by the equation of `step` for each case of who moves. -/
theorem stepRunsThePendingCommand : Obligations.StepRunsThePendingCommand := by
  intro s w i
  refine ⟨fun hp hd => ⟨fun hs => ?_, fun rest hs => ?_, fun op rest hs hop =>
      ⟨fun hq => ?_, fun q hq => ?_, fun q hq => ?_⟩⟩,
    fun hp => ⟨fun hs => ?_, fun op rest hs => ?_⟩, rfl⟩
  · rw [step_flight_nil hp hs, coreStep_of_decode hp hd]
  · rw [step_flight_wait hp hs, coreStep_of_decode hp hd]
  · rw [step_flight_schedEmpty hp hs hop hq, coreStep_of_decode hp hd]
  · rw [step_flight_coreTurn hp hs hop hq]
    exact coreStep_of_decode hp hd
  · exact step_flight_hostTurn hp hs hop hq
  · rw [step_idle hp, hostStep_nil hs]
  · rw [step_idle hp, hostStep_cons hs]

end Sys2Proof.Machine
end

section
/-! PROOFS. A command in flight completes (`00_scope.md` R17): each step completes it, or uses up one entry of the schedule. -/

namespace Sys2Proof

/-- A legal word is the word of a command (`30_encoding.md` R85): one case for each opcode of R83. -/
theorem decode_of_legal {w : Word} (h : legal w = true) : ∃ i, decode w = .ok i := by
  simp only [legal, opcodes, immOpcodes, Bool.and_eq_true, Bool.or_eq_true, List.contains_iff_mem, List.mem_cons,
    List.not_mem_nil, or_false, decide_eq_true_eq] at h
  obtain ⟨⟨hopc, hrsvd⟩, himm⟩ := h
  unfold decode decodeFields immCommand plainCommand
  rcases hopc with ho | ho | ho | ho | ho | ho | ho | ho <;> simp_all

end Sys2Proof

namespace Sys2Proof.Machine

/-- Under BUSY a register write leaves PENDING and the host's side as they are (`70_reset_and_hazards.md` R250). -/
theorem regWrite_busy {s : State} (hb : s.busy = true) (off : Nat) (w : Word) :
    (regWrite s off w).pending = s.pending ∧ (regWrite s off w).host = s.host := by
  unfold regWrite
  split
  · exact ⟨rfl, rfl⟩
  · exact ⟨rfl, rfl⟩
  · rw [if_pos hb]; exact ⟨rfl, rfl⟩

/-- The reset input leaves no command in flight (`70_reset_and_hazards.md` R240). -/
theorem resetBlock_pending (s : State) : (resetBlock s).pending = none := by
  unfold resetBlock
  split <;> rfl

/-- An operation of the outside world while `w` is in flight: it leaves none in flight, or `w` in flight and the schedule as it
is, or it is a bad access (logs 8, 9). -/
theorem hostOp_flight {s : State} {w : Word} (hp : s.pending = some w) (op : HostOp) :
    (∃ t, hostOp op s = .next t ∧ (t.pending = none ∨ t.pending = some w ∧ t.host.sched = s.host.sched)) ∨
      hostOp op s = .fault .noSuchAddress ∨ ∃ e, hostOp op s = .refused (.hostAccess e) := by
  cases op with
  | regWrite width off v =>
    have hb : s.busy = true := by simp [State.busy, hp]
    obtain ⟨hpend, hhost⟩ := regWrite_busy hb off v
    simp only [hostOp, hostRegWrite]
    split
    · exact .inr (.inr ⟨_, rfl⟩)
    · exact .inl ⟨_, rfl, .inr ⟨hpend.trans hp, by rw [hhost]⟩⟩
  | regRead width off =>
    simp only [hostOp, hostRegRead]
    split
    · exact .inr (.inr ⟨_, rfl⟩)
    · exact .inl ⟨_, rfl, .inr ⟨hp, rfl⟩⟩
  | memWrite a v =>
    simp only [hostOp, hostMemWrite]
    split
    · exact .inr (.inl rfl)
    · exact .inl ⟨_, rfl, .inr ⟨hp, rfl⟩⟩
  | memRead a =>
    simp only [hostOp, hostMemRead]
    split
    · exact .inr (.inl rfl)
    · split <;> exact .inl ⟨_, rfl, .inr ⟨hp, rfl⟩⟩
  | wait => exact .inl ⟨s, rfl, .inr ⟨hp, rfl⟩⟩
  | reset => exact .inl ⟨_, rfl, .inl (resetBlock_pending s)⟩

/-- Who moves while `w` is in flight: the core, with at most a schedule entry used up, or the host, whose turn is then used
up. -/
theorem step_flight_agent {s : State} {w : Word} (hp : s.pending = some w) :
    (∃ u, u.pending = some w ∧ step s = coreStep u) ∨
      ∃ op rest q, s.host.sched = .host :: q ∧
        step s = hostOp op { s with host := { s.host with script := rest, sched := q } } := by
  cases hs : s.host.script with
  | nil => exact .inl ⟨s, hp, step_flight_nil hp hs⟩
  | cons op rest =>
    by_cases hop : op = .wait
    · subst hop
      exact .inl ⟨s, hp, step_flight_wait hp hs⟩
    · match hq : s.host.sched with
      | [] => exact .inl ⟨s, hp, step_flight_schedEmpty hp hs hop hq⟩
      | .core :: q => exact .inl ⟨{ s with host := { s.host with sched := q } }, hp, step_flight_coreTurn hp hs hop hq⟩
      | .host :: q => exact .inr ⟨op, rest, q, rfl, step_flight_hostTurn hp hs hop hq⟩

/-- What a step can do while `w` is in flight: leave none in flight, use up one schedule entry with `w` still in flight, or
stop on the host's own bad access. -/
theorem step_flight {s : State} {w : Word} {i : Instr} (hp : s.pending = some w) (hd : decode w = .ok i) :
    (∃ t, step s = .next t ∧ (t.pending = none ∨ t.pending = some w ∧ ∃ a, s.host.sched = a :: t.host.sched)) ∨
      step s = .fault .noSuchAddress ∨ ∃ e, step s = .refused (.hostAccess e) := by
  obtain ⟨u, hu, hstep⟩ | ⟨op, rest, q, hq, hstep⟩ := step_flight_agent hp
  · obtain ⟨t, ht, hcompleted⟩ := exec_completes i u
    exact .inl ⟨t, by rw [hstep, coreStep_of_decode hu hd, ht], .inl hcompleted.pending⟩
  · rw [hstep]
    obtain ⟨t, ht, hnone | ⟨hsome, hsched⟩⟩ | hbad :=
      hostOp_flight (s := { s with host := { s.host with script := rest, sched := q } }) hp op
    · exact .inl ⟨t, ht, .inl hnone⟩
    · exact .inl ⟨t, ht, .inr ⟨hsome, .host, by rw [hq, hsched]⟩⟩
    · exact .inr hbad

/-- Within `n` steps from `s` no command is in flight, or the host's own bad access ended the run. -/
def CompletesWithin (n : Nat) (s : State) : Prop :=
  ∃ k, k ≤ n ∧
    ((∃ t : State, Host.Core.run Sys2Proof.core k s = .next t ∧ t.pending = none) ∨
      Host.Core.run Sys2Proof.core k s = .fault Fault.noSuchAddress ∨
      ∃ e, Host.Core.run Sys2Proof.core k s = .refused (Refusal.hostAccess e))

/-- One step, then the rest of the run. -/
theorem run_succ_of_next (M : Host.Core) {s t : M.State} (h : M.step s = .next t) (k : Nat) :
    M.run (k + 1) s = M.run k t := by
  rw [Host.Core.run, h]

theorem run_one (M : Host.Core) (s : M.State) : M.run 1 s = M.step s := by
  rw [Host.Core.run]
  cases M.step s <;> rfl

theorem completesWithin_of_idle {s : State} (h : s.pending = none) (n : Nat) : CompletesWithin n s :=
  ⟨0, Nat.zero_le n, .inl ⟨s, rfl, h⟩⟩

theorem completesWithin_succ {s t : State} {n : Nat} (hstep : step s = .next t) (h : CompletesWithin n t) :
    CompletesWithin (n + 1) s := by
  obtain ⟨k, hk, hrun⟩ := h
  exact ⟨k + 1, Nat.succ_le_succ hk, by rwa [run_succ_of_next Sys2Proof.core hstep]⟩

theorem completesWithin_of_badAccess {s : State} (n : Nat)
    (h : step s = .fault .noSuchAddress ∨ ∃ e, step s = .refused (.hostAccess e)) : CompletesWithin (n + 1) s :=
  ⟨1, Nat.le_add_left 1 n, .inr (h.imp (run_one Sys2Proof.core s).trans
    fun ⟨e, he⟩ => ⟨e, (run_one Sys2Proof.core s).trans he⟩)⟩

/-- A command in flight completes within one step more than the schedule is long, by induction on the schedule. -/
theorem completesWithin_of_flight {w : Word} {i : Instr} (hd : decode w = .ok i) (q : List Agent) :
    ∀ {s : State}, s.pending = some w → s.host.sched = q → CompletesWithin (q.length + 1) s := by
  induction q with
  | nil =>
    intro s hp hq
    obtain ⟨t, ht, hnone | ⟨-, a, ha⟩⟩ | hbad := step_flight hp hd
    · exact completesWithin_succ ht (completesWithin_of_idle hnone _)
    · rw [hq] at ha; cases ha
    · exact completesWithin_of_badAccess _ hbad
  | cons b q ih =>
    intro s hp hq
    obtain ⟨t, ht, hnone | ⟨hsome, a, ha⟩⟩ | hbad := step_flight hp hd
    · exact completesWithin_succ ht (completesWithin_of_idle hnone _)
    · rw [hq] at ha
      injection ha with _ hsched
      exact completesWithin_succ ht (ih hsome hsched.symm)
    · exact completesWithin_of_badAccess _ hbad

/-- Settles O59, by `completesWithin_of_flight`: in a state of the invariant the pending word is legal, so it decodes. -/
theorem pendingCommandCompletes : Obligations.PendingCommandCompletes := by
  intro s hinv hp
  obtain ⟨w, hw⟩ := Option.ne_none_iff_exists'.1 hp
  obtain ⟨i, hi⟩ := decode_of_legal (hinv.pendingLegal w hw)
  exact completesWithin_of_flight hi s.host.sched hw rfl

end Sys2Proof.Machine
end

section
/-! PROOFS. The register map (`10_state.md` R22, R43) and what the host's accesses at reserved offsets do. -/

namespace Sys2Proof.Machine

/-- The offset of a named register is aligned, below 0x90, and none of the three gaps of the map. -/
theorem regOffset_in_map (r : Reg) :
    regOffset r % 4 = 0 ∧ regOffset r < 0x90 ∧ regOffset r ≠ 0x1C ∧ regOffset r ≠ 0x78 ∧ regOffset r ≠ 0x7C := by
  cases r with
  | wide q h => cases q <;> cases h <;> decide
  | dict k => revert k; decide
  | _ => decide

/-- The offsets `10_state.md` R43 reserves, and the misaligned ones, have no register. -/
theorem regAt_eq_none {off : Nat} (h : off % 4 ≠ 0 ∨ off = 0x1C ∨ off = 0x78 ∨ off = 0x7C ∨ 0x90 ≤ off) :
    regAt off = none := by
  refine Option.eq_none_iff_forall_not_mem.2 fun r hr => ?_
  obtain ⟨-, -, rfl⟩ := regAt_some hr
  obtain ⟨haligned, hlt, h1C, h78, h7C⟩ := regOffset_in_map r
  omega

/-- Settles O8: the named offsets by evaluation, the others by `regAt_eq_none`. -/
theorem registerMapOffsets : Obligations.RegisterMapOffsets :=
  ⟨by decide, by decide, by decide, by decide, fun _ => regAt_eq_none⟩

theorem regRead_of_regAt_none {off : Nat} (h : regAt off = none) (s : State) : regRead s off = 0 := by
  simp only [regRead, h]

theorem regRead_regOffset (s : State) (r : Reg) : regRead s (regOffset r) = readReg s r := by
  simp only [regRead, regAt_regOffset]

/-- What a register write does: nothing at a reserved offset; at STATUS its own rule; at any other register the busy rule
(`70_reset_and_hazards.md` R250) or the write. -/
theorem regWrite_cases (s : State) (off : Nat) (w : Word) :
    regAt off = none ∧ regWrite s off w = s ∨
    regAt off = some .status ∧ regWrite s off w = writeStatus s w ∨
    ∃ r, regAt off = some r ∧ r ≠ .status ∧
      (s.busy = true ∧ regWrite s off w = { s with haz := true } ∨
       s.busy = false ∧ regWrite s off w = writeReg s r w) := by
  unfold regWrite
  split
  case h_1 hr => exact .inl ⟨hr, rfl⟩
  case h_2 hr => exact .inr (.inl ⟨hr, rfl⟩)
  case h_3 r hne hr =>
    refine .inr (.inr ⟨r, hr, hne, ?_⟩)
    split
    · rename_i hb; exact .inl ⟨hb, rfl⟩
    · rename_i hb; exact .inr ⟨by simpa using hb, rfl⟩

/-- An access at an aligned offset of the register space is a block access, so a read notes what `regRead` gives. -/
theorem hostOp_regRead_of_aligned (s : State) {off : Nat} (h4 : off % 4 = 0) (hlt : off < 0x100) :
    hostOp (.regRead 32 off) s = .next (note s (.reg off (regRead s off))) := by
  simp only [hostOp, hostRegRead, accessError_of_aligned h4 hlt]

theorem hostOp_regWrite_of_aligned (s : State) {off : Nat} (w : Word) (h4 : off % 4 = 0) (hlt : off < 0x100) :
    hostOp (.regWrite 32 off w) s = .next (regWrite s off w) := by
  simp only [hostOp, hostRegWrite, accessError_of_aligned h4 hlt]

/-- Settles O9: a reserved offset has no register, so it reads 0 and a write is ignored, BUSY or not. -/
theorem reservedOffsetsAreHarmless : Obligations.ReservedOffsetsAreHarmless := by
  intro s off w hoff
  have hnone : regAt off = none := regAt_eq_none (by omega)
  rw [hostOp_regRead_of_aligned s (by omega) (by omega), hostOp_regWrite_of_aligned s w (by omega) (by omega),
    regRead_of_regAt_none hnone]
  refine ⟨rfl, ?_⟩
  simp only [regWrite, hnone]

end Sys2Proof.Machine
end

section
/-! PROOFS. The registers one by one: halves (`10_state.md` R40), the dictionary (R42), access types (R23), STATUS (R25,
R32). -/

namespace Sys2Proof.Machine

/-- A write of a 64-bit register changes nothing but the operand registers ... -/
theorem setWide_ops (s : State) (r : Reg64) (v : U64) : setWide s r v = { s with ops := (setWide s r v).ops } := by
  cases r <;> rfl

/-- ... and no other 64-bit register: one case for each pair of registers. -/
theorem getWide_setWide_of_ne (s : State) {r q : Reg64} (hq : q ≠ r) (v : U64) :
    getWide (setWide s r v) q = getWide s q := by
  cases r <;> cases q <;> simp_all [setWide, getWide]

theorem getWide_setWide_same (s : State) {r : Reg64} (hr : r ∉ ([.outLen, .origSize, .dataSize] : List Reg64)) (v : U64) :
    getWide (setWide s r v) r = v := by
  cases r with
  | outLen | origSize | dataSize => exact absurd (by decide) hr
  | _ => rfl

/-- A host write of half `h` of an operand register while idle (`10_state.md` R40): that half is the word written, the
other half `g` and every other register are kept. -/
theorem hostOp_halfWrite {s : State} (hp : s.pending = none) {r : Reg64}
    (hr : r ∉ ([.outLen, .origSize, .dataSize] : List Reg64)) {h g : Half} (hg : g ≠ h) (w : Word) :
    ∃ t, hostOp (.regWrite 32 (regOffset (.wide r h)) w) s = .next t ∧ t = { s with ops := t.ops } ∧
      getHalf (getWide t r) h = w ∧ getHalf (getWide t r) g = getHalf (getWide s r) g ∧
      ∀ q, q ≠ r → getWide t q = getWide s q := by
  refine ⟨_, hostOp_regWrite_idle hp _ w, setWide_ops s r _, ?_, ?_, fun q hq => getWide_setWide_of_ne s hq _⟩
  · rw [writeReg, getWide_setWide_same s hr, getHalf_setHalf_same]
  · rw [writeReg, getWide_setWide_same s hr, getHalf_setHalf_other _ _ hg]

/-- Settles O12, by `hostOp_halfWrite` at each of the two halves. -/
theorem halfWriteKeepsTheOtherHalf : Obligations.HalfWriteKeepsTheOtherHalf :=
  ⟨fun s r => ⟨rfl, regRead_regOffset s (.wide r .lo), regRead_regOffset s (.wide r .hi)⟩,
    fun _ _ w hp hr => ⟨hostOp_halfWrite (g := .hi) hp hr (by decide) w, hostOp_halfWrite (g := .lo) hp hr (by decide) w⟩⟩

/-- Byte `j` of DICTk (`10_state.md` R42). -/
theorem getDict_byte (d : Vector Byte 16) (k j : Fin 4) :
    (getDict d k).extractLsb' (8 * j.val) 8 = d[4 * k.val + j.val] := by
  obtain ⟨h0, h1, h2, h3⟩ := byte_of_word d[4 * k.val + 3] d[4 * k.val + 2] d[4 * k.val + 1] d[4 * k.val]
  fin_cases j
  · exact h0
  · exact h1
  · exact h2
  · exact h3

/-- A write of DICTk sets byte `4k + j` from bits 8j+7:8j ... -/
theorem setDict_byte (d : Vector Byte 16) (k j : Fin 4) (w : Word) :
    (setDict d k w)[4 * k.val + j.val] = w.extractLsb' (8 * j.val) 8 := by
  unfold setDict
  fin_cases j <;> simp

/-- ... and no byte of another word. -/
theorem setDict_other (d : Vector Byte 16) (k : Fin 4) (w : Word) (i : Fin 16) (hi : i.val / 4 ≠ k.val) :
    (setDict d k w)[i.val] = d[i.val] := by
  unfold setDict
  rw [Vector.getElem_set_ne _ _ (by omega), Vector.getElem_set_ne _ _ (by omega), Vector.getElem_set_ne _ _ (by omega),
    Vector.getElem_set_ne _ _ (by omega)]

/-- Settles O14: DICTk reads as `getDict` and is written by `setDict`. -/
theorem dictionaryPacking : Obligations.DictionaryPacking := by
  intro s w k
  refine ⟨fun j => ?_, fun hp => ⟨_, hostOp_regWrite_idle hp (.dict k) w, rfl, fun j => setDict_byte s.dict k j w,
    fun i hi => setDict_other s.dict k w i hi⟩⟩
  exact (congrArg (·.extractLsb' (8 * j.val) 8) (regRead_regOffset s (.dict k))).trans (getDict_byte s.dict k j)

/-- An RO register ignores a host write (`10_state.md` R23). -/
theorem writeReg_readOnly (s : State) {r : Reg} (hr : regAccess r = .ro) (w : Word) : writeReg s r w = s := by
  cases r with
  | cksumRes | flags | hdrLen => rfl
  | wide q h =>
    cases q with
    | outLen | origSize | dataSize => rfl
    | _ => cases hr
  | _ => cases hr

/-- A 16-bit register written from a word reads back as the word's low half, the unused bits 0. -/
theorem zeroExtend_low16 (w : Word) : (w.extractLsb' 0 16).zeroExtend 32 = w &&& 0xFFFF := by
  apply BitVec.eq_of_toNat_eq
  have hmask : (w &&& 0xFFFF).toNat = w.toNat % 2 ^ 16 := Nat.and_two_pow_sub_one_eq_mod _ 16
  rw [hmask, BitVec.toNat_setWidth, BitVec.extractLsb'_toNat, Nat.shiftRight_zero]
  omega

/-- Settles O13: each offset of the first clause is that of an RO register; a read of a narrow register only widens it. -/
theorem accessTypesOfRegisters : Obligations.AccessTypesOfRegisters := by
  intro s w
  refine ⟨fun hp => ⟨fun off hoff => ?_, ⟨_, hostOp_regWrite_idle hp .lfsrState w, rfl, zeroExtend_low16 w⟩,
    ⟨_, hostOp_regWrite_idle hp .cksumExp w, rfl, zeroExtend_low16 w⟩⟩, rfl, ?_, ?_, ?_, ?_, rfl⟩
  · have hnamed : ∀ off ∈ [0x10, 0x14, 0x18, 0x60, 0x64, 0x68, 0x6C, 0x70, 0x74],
        ∃ r ∈ allRegs, regAccess r = .ro ∧ regOffset r = off := by decide
    obtain ⟨r, -, hro, rfl⟩ := hnamed off hoff
    rw [hostOp_regWrite_idle hp r w, writeReg_readOnly s hro]
  · exact BitVec.toNat_setWidth_of_le (by decide)
  · exact BitVec.toNat_setWidth_of_le (by decide)
  · exact BitVec.toNat_setWidth_of_le (by decide)
  · exact BitVec.toNat_setWidth_of_le (by decide)

/-- STATUS takes a host write BUSY or not (`10_state.md` R32). -/
theorem hostOp_writeStatus (s : State) (w : Word) : hostOp (.regWrite 32 0x04 w) s = .next (writeStatus s w) := rfl

theorem writeStatus_of_bit (s : State) {w : Word} (hw : w.getLsbD 2 = true) :
    writeStatus s w = { s with haz := false } := by
  rw [writeStatus, hw, Bool.not_true, Bool.and_false]

theorem writeStatus_of_not_bit (s : State) {w : Word} (hw : w.getLsbD 2 = false) : writeStatus s w = s := by
  rw [writeStatus, hw, Bool.not_false, Bool.and_true]

/-- Settles O10: the two cases of bit 2; a read is that of an aligned offset. -/
theorem statusWriteClearsOnlyHaz : Obligations.StatusWriteClearsOnlyHaz := by
  intro s w
  refine ⟨fun hw => ?_, fun hw => ?_, hostOp_regRead_of_aligned s (by decide) (by decide)⟩
  · rw [hostOp_writeStatus, writeStatus_of_bit s hw]
  · rw [hostOp_writeStatus, writeStatus_of_not_bit s hw]

/-- Bit `j` of the STATUS word, by the field it lies in (`10_state.md` R25). -/
theorem getLsbD_statusWord (s : State) (j : Nat) :
    (statusWord s).getLsbD j =
      if j < 1 then (bit s.busy).getLsbD j else if j < 2 then (bit s.done).getLsbD (j - 1)
      else if j < 3 then (bit s.haz).getLsbD (j - 2) else if j < 4 then false
      else if j < 8 then s.err.code.getLsbD (j - 4) else if j < 9 then (bit s.ckMatch).getLsbD (j - 8)
      else if j < 10 then (bit s.hdrValid).getLsbD (j - 9) else false := by
  have hfield : ∀ a b, 0 < b → (j - a < b ↔ j < a + b) := by omega
  simp only [statusWord, BitVec.getLsbD_append]
  simp only [Nat.sub_sub, Nat.reduceAdd, hfield, Nat.zero_lt_succ, BitVec.ofNat_eq_ofNat, BitVec.getLsbD_zero]

/-- Bits 7:4 of the STATUS word are the error code. -/
theorem errField_statusWord (s : State) : (statusWord s).extractLsb' 4 4 = s.err.code := by
  apply BitVec.eq_of_getLsbD_eq
  intro j hj
  rw [BitVec.getLsbD_extractLsb', getLsbD_statusWord, if_neg (by omega), if_neg (by omega), if_neg (by omega),
    if_neg (by omega), if_pos (by omega), Nat.add_sub_cancel_left]
  simp [hj]

/-- Above bit 9 the STATUS word is 0. -/
theorem reserved_statusWord (s : State) {j : Nat} (hj : 10 ≤ j) : (statusWord s).getLsbD j = false := by
  rw [getLsbD_statusWord]
  repeat rw [if_neg (by omega)]

/-- Settles O11: the single bits by `getLsbD_statusWord`, the ERR field and the upper bits by the lemmas about them. -/
theorem statusWordLayout : Obligations.StatusWordLayout := by
  intro s
  have hread : regRead s 0x04 = statusWord s := regRead_regOffset s .status
  have herr : (statusWord s).extractLsb' 4 4 = (match s.err with
      | .none => 0 | .illegal => 1 | .range => 2 | .overlap => 3 | .lane => 4 | .capacity => 5) := by
    rw [errField_statusWord]
    cases s.err <;> rfl
  rw [hread]
  refine ⟨?_, ?_, ?_, ?_, herr, ?_, ?_, fun j hj => reserved_statusWord s hj⟩ <;>
    rw [getLsbD_statusWord] <;> simp [bit, State.busy]

end Sys2Proof.Machine
end

section
/-! PROOFS. The machine right after reset and the reset input (`10_state.md` R46, `70_reset_and_hazards.md` R240). -/

namespace Sys2Proof.Machine

/-- An idle machine with no race meets the invariant when its memory does: the other clauses speak of a command in
flight. -/
theorem State.Inv.of_idle {s : State} (hp : s.pending = none) (hr : s.raced = false) (hwf : s.mem.wf)
    (hwithin : s.mem.within s.memSize) : s.Inv where
  memWf := hwf
  memWithin := hwithin
  pendingLegal := by simp [hp]
  pendingIsCmd := by simp [hp]
  busyNotDone := by simp [State.busy, hp]
  busyNoError := by simp [State.busy, hp]
  idleNotRaced := fun _ => hr

/-- Settles O21: the machine is idle, and no byte of its memory is listed. -/
theorem resetMeetsInvariant : Obligations.ResetMeetsInvariant :=
  .of_idle rfl rfl State.reset_mem_wf (by simp [State.reset])

/-- Right after reset every register but LFSR_STATE reads 0 (`10_state.md` R22). -/
theorem readReg_reset {r : Reg} (hr : r ≠ .lfsrState) : readReg State.reset r = 0 := by
  cases r with
  | lfsrState => exact absurd rfl hr
  | wide q h => cases q <;> cases h <;> decide
  | dict k => revert k; decide
  | _ => decide

/-- Settles O23: an offset reads as its register or, where there is none, as 0. -/
theorem resetStateReadsAsTheMap : Obligations.ResetStateReadsAsTheMap := by
  refine ⟨by decide, fun off hoff => ?_, rfl, rfl⟩
  cases hr : regAt off with
  | none => exact regRead_of_regAt_none hr _
  | some r =>
    obtain ⟨-, -, rfl⟩ := regAt_some hr
    rw [regRead_regOffset, readReg_reset (fun h => hoff (congrArg regOffset h))]

/-- The reset input resets the registers of the machine, its memory kept or, where a command with a destination is
abandoned, that range lost. -/
theorem resetBlock_cases (s : State) :
    resetBlock s = s.resetRegisters ∧ s.running.bind (destRange · s) = none ∨
    ∃ r, resetBlock s = (s.scrambleRange r).drawn.resetRegisters ∧ s.running.bind (destRange · s) = some r := by
  unfold resetBlock
  split
  case h_1 h => exact .inl ⟨rfl, h⟩
  case h_2 r h => exact .inr ⟨r, rfl, h⟩

/-- The reset input changes memory by no more than a lost range. -/
theorem resetBlock_keepsInv {s : State} (h : s.Inv) : (resetBlock s).Inv := by
  obtain ⟨hs, -⟩ | ⟨r, hs, -⟩ := resetBlock_cases s <;> rw [hs]
  · exact .of_idle rfl rfl h.memWf h.memWithin
  · exact .of_idle rfl rfl (Memory.scramble_wf h.memWf r _ _) (Memory.scramble_within h.memWithin r _)

theorem running_of_idle {s : State} (hp : s.pending = none) : s.running = none := by
  rw [State.running, hp, Option.bind_none]

theorem running_of_decode {s : State} {w : Word} {i : Instr} (hp : s.pending = some w) (hd : decode w = .ok i) :
    s.running = some i := by
  rw [State.running, hp, Option.bind_some, hd]
  rfl

/-- The destination range of a command is (DST_ADDR, DST_CAP), where it has one (`30_encoding.md` R84). -/
theorem destRange_eq_some {i : Instr} {s : State} {r : Range} (h : destRange i s = some r) :
    HasDestination i ∧ r = s.dst := by
  cases i with
  | decrypt | decompress | float2 | float3 => exact ⟨trivial, (Option.some.inj h).symm⟩
  | _ => cases h

theorem resetBlock_mem_of_idle {s : State} (hp : s.pending = none) : (resetBlock s).mem = s.mem := by
  rw [resetBlock, running_of_idle hp]
  rfl

/-- The reset input changes no byte outside the destination range of the command it abandons. -/
theorem resetBlock_mem_outside {s : State} {w : Word} {i : Instr} (hp : s.pending = some w) (hd : decode w = .ok i)
    {a : Nat} (ha : ¬(HasDestination i ∧ InRange s.ops.dstAddr s.ops.dstCap a)) :
    (resetBlock s).mem.read a = s.mem.read a := by
  obtain ⟨hs, -⟩ | ⟨r, hs, hr⟩ := resetBlock_cases s <;> rw [hs]
  · rfl
  · rw [running_of_decode hp hd] at hr
    obtain ⟨hdest, rfl⟩ := destRange_eq_some hr
    refine Memory.read_scramble_outside s.mem _ _ ?_
    rw [Bool.eq_false_iff, ne_eq, Range.holds_iff]
    exact fun hin => ha ⟨hdest, hin⟩

/-- The reset input, register by register: those of `State.reset`; the parameters and the host's side are kept. -/
theorem resetBlock_registers (s : State) : ∃ d, resetBlock s =
    { State.reset with params := s.params, host := s.host, mem := (resetBlock s).mem, draws := d } := by
  obtain ⟨hs, -⟩ | ⟨r, hs, -⟩ := resetBlock_cases s <;> rw [hs] <;> exact ⟨_, rfl⟩

/-- Settles O22: the registers by `resetBlock_registers`, memory by the two lemmas about it. -/
theorem resetInputSetsEveryRegister : Obligations.ResetInputSetsEveryRegister := by
  intro s
  obtain ⟨d, hregs⟩ := resetBlock_registers s
  exact ⟨_, congrArg Host.Outcome.next hregs,
    rfl, rfl, rfl, rfl, rfl, rfl, rfl, rfl, rfl, rfl, rfl, rfl, rfl, rfl, rfl, rfl, fun _ => Vector.getElem_replicate _,
    rfl, rfl, resetBlock_mem_of_idle,
    fun _ _ hp hd _ ha => resetBlock_mem_outside hp hd ha⟩

end Sys2Proof.Machine
end

section
/-! PROOFS. Every step keeps the invariant `State.Inv`: one lemma for each kind of step, from `step_next`, which says once
what a step can do. -/

namespace Sys2Proof.Machine

/-- `t` has the fields of `s` that the invariant speaks of. -/
structure KeepsFlight (s t : State) : Prop where
  params : t.params = s.params
  mem : t.mem = s.mem
  cmd : t.cmd = s.cmd
  pending : t.pending = s.pending
  done : t.done = s.done
  err : t.err = s.err
  raced : t.raced = s.raced

theorem State.Inv.of_keepsFlight {s t : State} (hs : s.Inv) (h : KeepsFlight s t) : t.Inv where
  memWf := h.mem ▸ hs.memWf
  memWithin := by
    rw [State.memSize, h.mem, h.params]
    exact hs.memWithin
  pendingLegal w hw := hs.pendingLegal w (h.pending ▸ hw)
  pendingIsCmd w hw := h.cmd.trans (hs.pendingIsCmd w (h.pending ▸ hw))
  busyNotDone hb := h.done.trans (hs.busyNotDone (by rwa [State.busy, h.pending] at hb))
  busyNoError hb := h.err.trans (hs.busyNoError (by rwa [State.busy, h.pending] at hb))
  idleNotRaced hb := h.raced.trans (hs.idleNotRaced (by rwa [State.busy, h.pending] at hb))

/-- The issue step: a legal word is put in flight with a clear record; an illegal one leaves the machine idle
(`60_exceptions.md` R215, R217). -/
theorem issue_keepsInv {s : State} (hp : s.pending = none) (hs : s.Inv) (w : Word) : (issue s w).Inv := by
  unfold issue
  split
  · rename_i hw
    exact {
      memWf := hs.memWf
      memWithin := hs.memWithin
      pendingLegal := fun v hv => Option.some.inj hv ▸ hw
      pendingIsCmd := fun v hv => Option.some.inj hv
      busyNotDone := fun _ => rfl
      busyNoError := fun _ => rfl
      idleNotRaced := fun hb => by cases hb }
  · exact .of_idle hp (hs.idleNotRaced (by rw [State.busy, hp]; rfl)) hs.memWf hs.memWithin

/-- A register write other than an issue step touches nothing that the invariant speaks of. -/
theorem writeReg_keepsFlight (s : State) {r : Reg} (hr : r ≠ .cmd) (w : Word) : KeepsFlight s (writeReg s r w) := by
  cases r with
  | cmd => exact absurd rfl hr
  | wide q h => cases q <;> exact ⟨rfl, rfl, rfl, rfl, rfl, rfl, rfl⟩
  | _ => exact ⟨rfl, rfl, rfl, rfl, rfl, rfl, rfl⟩

theorem pending_eq_none_of_not_busy {s : State} (h : s.busy = false) : s.pending = none := by
  simpa [State.busy] using h

theorem writeReg_keepsInv {s : State} (hp : s.pending = none) (hs : s.Inv) (r : Reg) (w : Word) :
    (writeReg s r w).Inv := by
  by_cases hr : r = .cmd
  · subst hr; exact issue_keepsInv hp hs w
  · exact hs.of_keepsFlight (writeReg_keepsFlight s hr w)

theorem regWrite_keepsInv {s : State} (hs : s.Inv) (off : Nat) (w : Word) : (regWrite s off w).Inv := by
  obtain ⟨-, h⟩ | ⟨-, h⟩ | ⟨r, -, -, ⟨-, h⟩ | ⟨hb, h⟩⟩ := regWrite_cases s off w <;> rw [h]
  · exact hs
  · exact hs.of_keepsFlight ⟨rfl, rfl, rfl, rfl, rfl, rfl, rfl⟩
  · exact hs.of_keepsFlight ⟨rfl, rfl, rfl, rfl, rfl, rfl, rfl⟩
  · exact writeReg_keepsInv (pending_eq_none_of_not_busy hb) hs r w

/-- A host write to buffer memory: the address exists, and on an idle machine no race is marked (log 6). -/
theorem hostMemWrite_keepsInv {s t : State} (hs : s.Inv) {a : Nat} {v : Byte} (h : hostMemWrite a v s = .next t) :
    t.Inv := by
  unfold hostMemWrite at h
  split at h
  · cases h
  · rename_i ha
    cases h
    exact {
      memWf := Memory.write_wf hs.memWf a v
      memWithin := Memory.write_within hs.memWithin (Nat.lt_of_not_le ha) v
      pendingLegal := hs.pendingLegal
      pendingIsCmd := hs.pendingIsCmd
      busyNotDone := hs.busyNotDone
      busyNoError := hs.busyNoError
      idleNotRaced := fun hb => by
        have hidle : s.running = none := running_of_idle (pending_eq_none_of_not_busy hb)
        simp [hs.idleNotRaced hb, hidle] }

/-- A host read notes what it read, and at most draws a free value. -/
theorem hostMemRead_keepsFlight {s t : State} {a : Nat} (h : hostMemRead a s = .next t) : KeepsFlight s t := by
  unfold hostMemRead at h
  split at h
  · cases h
  · split at h <;> cases h <;> exact ⟨rfl, rfl, rfl, rfl, rfl, rfl, rfl⟩

/-- A register write that answers a next state had the width of the bus and did what `regWrite` does. -/
theorem hostRegWrite_next {s t : State} {width off : Nat} {w : Word} (h : hostRegWrite width off w s = .next t) :
    width = 32 ∧ t = regWrite s off w := by
  unfold hostRegWrite at h
  split at h
  · cases h
  · rename_i hok
    cases h
    refine ⟨?_, rfl⟩
    by_contra hwidth
    rw [accessError, if_pos hwidth] at hok
    cases hok

/-- A register read that answers a next state noted the register's value. -/
theorem hostRegRead_next {s t : State} {width off : Nat} (h : hostRegRead width off s = .next t) :
    t = note s (.reg off (regRead s off)) := by
  unfold hostRegRead at h
  split at h
  · cases h
  · cases h; rfl

/-- Every operation of the outside world keeps the invariant: one case for each. -/
theorem hostOp_keepsInv {s t : State} (hs : s.Inv) {op : HostOp} (h : hostOp op s = .next t) : t.Inv := by
  cases op with
  | regWrite width off w =>
    obtain ⟨-, rfl⟩ := hostRegWrite_next h
    exact regWrite_keepsInv hs off w
  | regRead width off =>
    obtain rfl := hostRegRead_next h
    exact hs.of_keepsFlight ⟨rfl, rfl, rfl, rfl, rfl, rfl, rfl⟩
  | memWrite a v => exact hostMemWrite_keepsInv hs h
  | memRead a => exact hs.of_keepsFlight (hostMemRead_keepsFlight h)
  | wait => cases h; exact hs
  | reset => cases h; exact resetBlock_keepsInv hs

/-- What is known of a command's next state: it is a completed one (`exec_completes`). -/
theorem exec_next {i : Instr} {s t : State} (h : exec i s = .next t) : CompletedFrom s t := by
  obtain ⟨u, hu, hcompleted⟩ := exec_completes i s
  rw [hu] at h
  cases h
  exact hcompleted

/-- A command keeps memory canonical and inside MEM_SIZE: what it writes lies in a destination in range
(`exec_memory`). -/
theorem exec_keepsMemory {i : Instr} {s t : State} (h : exec i s = .next t) (hwf : s.mem.wf)
    (hwithin : s.mem.within s.memSize) : t.mem.wf ∧ t.mem.within s.memSize := by
  obtain hmem | ⟨-, hdst, bs, hlen, hmem⟩ | ⟨-, hmem⟩ := exec_memory h <;> rw [hmem]
  · exact ⟨hwf, hwithin⟩
  · have hend := (Range.within_iff _ _).1 hdst
    exact ⟨Memory.writeBytes_wf hwf _ bs, Memory.writeBytes_within hwithin (by omega)⟩
  · exact ⟨Memory.scramble_wf hwf _ _ _, Memory.scramble_within hwithin _ _⟩

theorem exec_keepsInv {i : Instr} {s t : State} (hs : s.Inv) (h : exec i s = .next t) : t.Inv := by
  have hdone := exec_next h
  obtain ⟨hwf, hwithin⟩ := exec_keepsMemory h hs.memWf hs.memWithin
  refine .of_idle hdone.pending hdone.raced hwf ?_
  rwa [State.memSize, hdone.params]

/-- What a step of the core can be: nothing, or the completion step of the command in flight. -/
theorem coreStep_next {s t : State} (h : coreStep s = .next t) :
    t = s ∨ ∃ w i, s.pending = some w ∧ decode w = .ok i ∧ exec i s = .next t := by
  unfold coreStep at h
  split at h
  · cases h; exact .inl rfl
  · rename_i w hp
    split at h
    · rename_i i hd; exact .inr ⟨w, i, hp, hd, h⟩
    · cases h

/-- What a step of the host can be: nothing, or the next operation of its script. -/
theorem hostStep_next {s t : State} (h : hostStep s = .next t) :
    t = s ∨ ∃ op rest, s.host.script = op :: rest ∧
      hostOp op { s with host := { s.host with script := rest } } = .next t := by
  unfold hostStep at h
  split at h
  · cases h; exact .inl rfl
  · rename_i op rest hs; exact .inr ⟨op, rest, hs, h⟩

/-- What a step can be, from `s` with some host side (its turn taken, log 2): nothing, the completion step of the command
in flight, or the host's next operation. -/
theorem step_next {s t : State} (h : step s = .next t) :
    ∃ side : HostSide, t = { s with host := side } ∨
      (∃ w i, s.pending = some w ∧ decode w = .ok i ∧ exec i { s with host := side } = .next t) ∨
      ∃ op rest, s.host.script = op :: rest ∧ hostOp op { s with host := side } = .next t := by
  obtain ⟨q, hturn⟩ := tookTurn_eq s
  unfold step at h
  rw [hturn] at h
  split at h
  · obtain rfl | ⟨w, i, hp, hd, hexec⟩ := coreStep_next h
    · exact ⟨_, .inl rfl⟩
    · exact ⟨_, .inr (.inl ⟨w, i, hp, hd, hexec⟩)⟩
  · obtain rfl | ⟨op, rest, hs, hop⟩ := hostStep_next h
    · exact ⟨_, .inl rfl⟩
    · exact ⟨_, .inr (.inr ⟨op, rest, hs, hop⟩)⟩

/-- Settles O20: what a step can be (`step_next`), each kind of it keeping the invariant. -/
theorem stepKeepsInvariant : Obligations.StepKeepsInvariant := by
  intro s t hs h
  obtain ⟨side, hstep⟩ := step_next h
  have hside : ({ s with host := side } : State).Inv := hs.of_keepsFlight ⟨rfl, rfl, rfl, rfl, rfl, rfl, rfl⟩
  obtain rfl | ⟨w, i, -, -, hexec⟩ | ⟨op, rest, -, hop⟩ := hstep
  · exact hside
  · exact exec_keepsInv hside hexec
  · exact hostOp_keepsInv hside hop

end Sys2Proof.Machine
end

section
/-! PROOFS. HAZ over a step (`10_state.md` R28): what sets it and what clears it. -/

namespace Sys2Proof.Machine

theorem issue_haz (s : State) (w : Word) : (issue s w).haz = s.haz := by
  unfold issue
  split <;> rfl

/-- A write of a register other than STATUS leaves HAZ as it is, the issue step included. -/
theorem writeReg_haz (s : State) {r : Reg} (hr : r ≠ .status) (w : Word) : (writeReg s r w).haz = s.haz := by
  cases r with
  | status => exact absurd rfl hr
  | cmd => exact issue_haz s w
  | wide q h => cases q <;> rfl
  | _ => rfl

/-- A register write and HAZ: kept, set under BUSY at a register other than STATUS, or cleared by bit 2 of a
STATUS write. -/
theorem regWrite_haz (s : State) (off : Nat) (w : Word) :
    (regWrite s off w).haz = s.haz ∨
    ((regWrite s off w).haz = true ∧ s.pending ≠ none ∧ ∃ r, regAt off = some r ∧ r ≠ .status) ∨
    ((regWrite s off w).haz = false ∧ off = 0x04 ∧ w.getLsbD 2 = true) := by
  obtain ⟨-, h⟩ | ⟨hr, h⟩ | ⟨r, hr, hne, ⟨hb, h⟩ | ⟨-, h⟩⟩ := regWrite_cases s off w <;> rw [h]
  · exact .inl rfl
  · obtain ⟨-, -, hoff⟩ := regAt_some hr
    cases hw : w.getLsbD 2 with
    | true => exact .inr (.inr ⟨by rw [writeStatus_of_bit s hw], hoff.symm, rfl⟩)
    | false => exact .inl (by rw [writeStatus_of_not_bit s hw])
  · exact .inr (.inl ⟨rfl, Option.isSome_iff_ne_none.1 hb, r, hr, hne⟩)
  · exact .inl (writeReg_haz s hne w)

/-- An operation of the outside world and HAZ: kept, set as by `regWrite_haz`, or cleared by a STATUS write or
by reset. -/
theorem hostOp_haz {s t : State} {op : HostOp} (h : hostOp op s = .next t) :
    t.haz = s.haz ∨
    (t.haz = true ∧ s.pending ≠ none ∧ ∃ off w r, op = .regWrite 32 off w ∧ regAt off = some r ∧ r ≠ .status) ∨
    (t.haz = false ∧ (op = .reset ∨ ∃ w, op = .regWrite 32 0x04 w ∧ w.getLsbD 2 = true)) := by
  cases op with
  | regWrite width off w =>
    obtain ⟨rfl, rfl⟩ := hostRegWrite_next h
    obtain hkept | ⟨hset, hp, r, hr, hne⟩ | ⟨hclear, rfl, hw⟩ := regWrite_haz s off w
    · exact .inl hkept
    · exact .inr (.inl ⟨hset, hp, off, w, r, rfl, hr, hne⟩)
    · exact .inr (.inr ⟨hclear, .inr ⟨w, rfl, hw⟩⟩)
  | regRead width off => rw [hostRegRead_next h]; exact .inl rfl
  | memWrite a v =>
    simp only [hostOp, hostMemWrite] at h
    split at h <;> cases h
    exact .inl rfl
  | memRead a =>
    simp only [hostOp, hostMemRead] at h
    split at h
    · cases h
    · split at h <;> cases h <;> exact .inl rfl
  | wait => cases h; exact .inl rfl
  | reset =>
    cases h
    obtain ⟨d, hregs⟩ := resetBlock_registers s
    exact .inr (.inr ⟨by rw [hregs]; rfl, .inl rfl⟩)

/-- A step and HAZ: only the host's operations change it, and each only as `hostOp_haz` says. -/
theorem step_haz {s t : State} (h : step s = .next t) :
    t.haz = s.haz ∨
    (t.haz = true ∧ s.pending ≠ none ∧ ∃ off w rest r,
      s.host.script = .regWrite 32 off w :: rest ∧ regAt off = some r ∧ r ≠ .status) ∨
    (t.haz = false ∧ ∃ rest, s.host.script = .reset :: rest ∨
      ∃ w, s.host.script = .regWrite 32 0x04 w :: rest ∧ w.getLsbD 2 = true) := by
  obtain ⟨side, rfl | ⟨w, i, -, -, hexec⟩ | ⟨op, rest, hscript, hop⟩⟩ := step_next h
  · exact .inl rfl
  · exact .inl (exec_next hexec).haz
  · obtain hkept | ⟨hset, hp, off, w, r, rfl, hr, hne⟩ | ⟨hclear, rfl | ⟨w, rfl, hw⟩⟩ := hostOp_haz hop
    · exact .inl hkept
    · exact .inr (.inl ⟨hset, hp, off, w, rest, r, hscript, hr, hne⟩)
    · exact .inr (.inr ⟨hclear, rest, .inl hscript⟩)
    · exact .inr (.inr ⟨hclear, rest, .inr ⟨w, hscript, hw⟩⟩)

/-- Settles O57, by `step_haz`: a step that raises HAZ sets it, and one that lowers it clears it. -/
theorem hazIsSticky : Obligations.HazIsSticky := by
  intro s t h
  obtain hkept | ⟨hset, hby⟩ | ⟨hclear, hby⟩ := step_haz h
  · exact ⟨fun hs ht => by simp [hkept, hs] at ht, fun hs ht => by simp [hkept, hs] at ht⟩
  · exact ⟨fun _ _ => hby, fun _ ht => by simp [hset] at ht⟩
  · exact ⟨fun _ ht => by simp [hclear] at ht, fun _ _ => hby⟩

end Sys2Proof.Machine
end

section
/-! PROOFS. What each command writes: its outputs and the completion record, however it ends (`30_encoding.md` R84,
`60_exceptions.md` R219, R220; `70_reset_and_hazards.md` R252). -/

namespace Sys2Proof.Machine

/-- `s` with the outputs of the command `i`, the free values drawn and the completion record taken from `t`. -/
def withOutputsOf (i : Instr) (s t : State) : State :=
  match i with
  | .lfsrSeed _ | .lfsrStep _ => { s with lfsr := t.lfsr, pending := none, done := true, err := t.err, raced := false }
  | .cksum => { s with
      cksumRes := t.cksumRes, ckMatch := t.ckMatch, draws := t.draws
      pending := none, done := true, err := t.err, raced := false }
  | .decrypt => { s with
      mem := t.mem, lfsr := t.lfsr, outLen := t.outLen, draws := t.draws
      pending := none, done := true, err := t.err, raced := false }
  | .decompress | .float2 | .float3 => { s with
      mem := t.mem, outLen := t.outLen, draws := t.draws, pending := none, done := true, err := t.err, raced := false }
  | .hdrparse => { s with
      flags := t.flags, origSize := t.origSize, dataSize := t.dataSize, hdrLen := t.hdrLen, dict := t.dict
      cksumExp := t.cksumExp, hdrValid := t.hdrValid, draws := t.draws
      pending := none, done := true, err := t.err, raced := false }

/-- The lost outputs of the commands with a destination: some memory and some OUT_LEN. -/
theorem loseDestination_eq (s : State) : ∃ m v, loseDestination s = { s with mem := m, outLen := v } := ⟨_, _, rfl⟩

theorem floatRaced_eq (s : State) : floatRaced s = loseDestination s := rfl

/-- A raced DECRYPT loses LFSR_STATE besides. -/
theorem decryptRaced_eq (s : State) : ∃ m v k, decryptRaced s = { s with mem := m, outLen := v, lfsr := k } :=
  ⟨_, _, _, rfl⟩

/-- What holds of a completed state in each of the three ways a command ends (raced, a fault, a result) holds however it
ends. -/
theorem completion_induct {motive : State → Prop} {s : State} {i : Instr} {outputs : State → State}
    {onFault : ErrCode → State → State} {r : Except ErrCode State}
    (hraced : ∀ e, motive ((outputs s).drawn.complete e)) (hfault : ∀ e, motive ((onFault e s).complete e))
    (hok : ∀ t, r = .ok t → motive (t.complete .none)) :
    motive (if s.raced then s.completeRaced i outputs else s.finish onFault r) := by
  split
  · exact hraced _
  · cases r with
    | ok t => exact hok t rfl
    | error e => exact hfault e

/-- A command writes its outputs and the completion record, and nothing else: one case for each command, and in it one for
each way it ends. -/
theorem exec_writes_outputs {i : Instr} {s t : State} (h : exec i s = .next t) : t = withOutputsOf i s t := by
  cases i with
  | lfsrSeed seed => cases h; rfl
  | lfsrStep count => cases h; rfl
  | cksum =>
    obtain rfl := Host.Outcome.next.inj h
    refine completion_induct (motive := fun t => t = withOutputsOf .cksum s t)
      (fun _ => rfl) (fun _ => rfl) fun t hrun => ?_
    obtain ⟨-, rfl⟩ := cksumRun_ok hrun
    rfl
  | decrypt =>
    obtain rfl := Host.Outcome.next.inj h
    refine completion_induct (motive := fun t => t = withOutputsOf .decrypt s t)
      (fun e => ?_) (fun _ => rfl) fun t hrun => ?_
    · obtain ⟨m, v, k, hraced⟩ := decryptRaced_eq s
      rw [hraced]; rfl
    · obtain ⟨-, -, rfl⟩ := decryptRun_ok hrun
      rfl
  | decompress =>
    obtain rfl := Host.Outcome.next.inj h
    obtain ⟨m, v, hlost⟩ := loseDestination_eq s
    refine completion_induct (motive := fun t => t = withOutputsOf .decompress s t)
      (fun e => ?_) (fun e => ?_) fun t hrun => ?_
    · rw [hlost]; rfl
    · cases e with
      | capacity => rw [decompressFault, hlost]; rfl
      | _ => rfl
    · obtain ⟨-, _, -, rfl⟩ := decompressRun_ok hrun
      rfl
  | float2 =>
    obtain rfl := Host.Outcome.next.inj h
    refine completion_induct (motive := fun t => t = withOutputsOf .float2 s t)
      (fun e => ?_) (fun _ => rfl) fun t hrun => ?_
    · obtain ⟨m, v, hlost⟩ := loseDestination_eq s
      rw [floatRaced_eq, hlost]; rfl
    · obtain ⟨-, -, -, -, rfl⟩ := float2Run_ok hrun
      rfl
  | float3 =>
    obtain rfl := Host.Outcome.next.inj h
    refine completion_induct (motive := fun t => t = withOutputsOf .float3 s t)
      (fun e => ?_) (fun _ => rfl) fun t hrun => ?_
    · obtain ⟨m, v, hlost⟩ := loseDestination_eq s
      rw [floatRaced_eq, hlost]; rfl
    · obtain ⟨-, -, -, -, -, rfl⟩ := float3Run_ok hrun
      rfl
  | hdrparse =>
    obtain rfl := Host.Outcome.next.inj h
    refine completion_induct (motive := fun t => t = withOutputsOf .hdrparse s t)
      (fun _ => rfl) (fun _ => rfl) fun t hrun => ?_
    obtain ⟨-, ⟨-, rfl⟩ | ⟨-, -, -, rfl⟩ | ⟨-, -, -, rfl⟩⟩ := hdrparseRun_ok hrun
    · rfl
    · rfl
    · unfold loadExpected loadDict
      split_ifs <;> rfl

/-- Settles O49: each register against the commands whose outputs it is among. -/
theorem registerWriters : Obligations.RegisterWriters := by
  intro i s t h
  rw [exec_writes_outputs h]
  refine ⟨fun hi => ?_, fun hi => ?_, fun hi => ?_, fun hseed hstep hdecrypt => ?_⟩
  · cases i with
    | cksum => exact absurd rfl hi
    | _ => exact ⟨rfl, rfl⟩
  · cases i with
    | hdrparse => exact absurd rfl hi
    | _ => exact ⟨rfl, rfl, rfl, rfl, rfl, rfl, rfl⟩
  · cases i with
    | decrypt | decompress | float2 | float3 => exact absurd trivial hi
    | _ => rfl
  · cases i with
    | lfsrSeed v => exact absurd rfl (hseed v)
    | lfsrStep n => exact absurd rfl (hstep n)
    | decrypt => exact absurd rfl hdecrypt
    | _ => rfl

end Sys2Proof.Machine
end

section
/-! PROOFS. Buffer memory (`20_memory.md` R60, R69): a host access to one byte, the bytes no command changes, and the bytes a
successful command writes. -/

namespace Sys2Proof.Machine

/-! ## Host accesses -/

/-- A host write to a byte that exists: the byte, and the mark of a race when the command in flight owns it. -/
theorem hostMemWrite_of_lt {s : State} {a : Nat} (ha : a < s.memSize) (v : Byte) :
    hostMemWrite a v s = .next { s with
      mem := s.mem.write a v, raced := s.raced || s.running.any (fun i => ownsByte i s a) } := by
  rw [hostMemWrite, if_neg (Nat.not_le.2 ha)]

theorem hostMemWrite_of_memSize_le {s : State} {a : Nat} (ha : s.memSize ≤ a) (v : Byte) :
    hostMemWrite a v s = .fault .noSuchAddress := by
  rw [hostMemWrite, if_pos ha]

/-- A host read of a byte that exists and that no command in flight is writing. -/
theorem hostMemRead_of_not_dest {s : State} {a : Nat} (ha : a < s.memSize) (hd : inRunningDest s a = false) :
    hostMemRead a s = .next (note s (.mem a (s.mem.read a))) := by
  rw [hostMemRead, if_neg (Nat.not_le.2 ha), hd]
  rfl

theorem hostMemRead_of_memSize_le {s : State} {a : Nat} (ha : s.memSize ≤ a) :
    hostMemRead a s = .fault .noSuchAddress := by
  rw [hostMemRead, if_pos ha]

/-- A host write on an idle machine changes buffer memory alone: no race is marked. -/
theorem hostMemWrite_of_idle {s : State} (hp : s.pending = none) {a : Nat} (ha : a < s.memSize) (v : Byte) :
    hostMemWrite a v s = .next { s with mem := s.mem.write a v } := by
  simp [hostMemWrite_of_lt ha, running_of_idle hp]

theorem inRunningDest_of_idle {s : State} (hp : s.pending = none) (a : Nat) : inRunningDest s a = false := by
  simp [inRunningDest, running_of_idle hp]

/-- Settles O17: the equation of each access, below MEM_SIZE on an idle machine, and at or above it in any state. -/
theorem hostMemoryAccess : Obligations.HostMemoryAccess := by
  intro s a v
  refine ⟨fun hp ha => ?_, fun ha => ⟨hostMemWrite_of_memSize_le ha v, hostMemRead_of_memSize_le ha⟩⟩
  have hlt : a < s.memSize := Nat.lt_succ_of_le ha
  exact ⟨⟨_, hostMemWrite_of_idle hp hlt v, rfl, fun b => Memory.read_write s.mem a b v⟩,
    hostMemRead_of_not_dest hlt (inRunningDest_of_idle hp a)⟩

/-! ## The bytes no command changes -/

theorem dst_holds_eq_false {s : State} {a : Nat} (h : ¬InRange s.ops.dstAddr s.ops.dstCap a) : s.dst.holds a = false := by
  rw [Bool.eq_false_iff]
  exact fun hh => h ((Range.holds_iff _ _).1 hh)

/-- Settles O50, by what a command can do to memory (`exec_memory`): nothing, a write inside the destination, or the loss of
the destination. -/
theorem onlyTheDestinationIsWritten : Obligations.OnlyTheDestinationIsWritten := by
  intro i s t h
  obtain hmem | ⟨hi, -, bs, hlen, hmem⟩ | ⟨hi, hmem⟩ := exec_memory h
  · exact ⟨fun _ => hmem, fun _ _ => by rw [hmem]⟩
  · refine ⟨absurd hi, fun a ha => ?_⟩
    rw [hmem]
    exact Memory.read_writeBytes_outside _ fun ⟨hlo, hhi⟩ =>
      ha ⟨hlo, Nat.lt_of_lt_of_le hhi (Nat.add_le_add_left hlen _)⟩
  · refine ⟨absurd hi, fun a ha => ?_⟩
    rw [hmem]
    exact Memory.read_scramble_outside _ _ _ (dst_holds_eq_false ha)

/-! ## The codes a command raises (`60_exceptions.md` R216) -/

theorem decryptRun_error {s : State} {e : ErrCode} (h : decryptRun s = .error e) :
    e = .range ∨ e = .overlap ∨ e = .capacity := by
  unfold decryptRun at h
  split at h
  next hc => cases h; exact (rangeChecks_code hc).imp_right .inl
  next =>
    split at h <;> cases h
    exact .inr (.inr rfl)

/-- The token loop raises CAPACITY alone (`43_decompress.md` R149). -/
theorem expandInto_error {d : Vector Byte 16} {cap : Nat} {bs : List Byte} {e : ErrCode}
    (h : expandInto d cap bs [] = .error e) : e = .capacity := by
  rw [expandInto_eq _ _ _ _ (Nat.zero_le _)] at h
  split at h <;> cases h
  rfl

theorem decompressRun_error {s : State} {e : ErrCode} (h : decompressRun s = .error e) :
    e = .range ∨ e = .overlap ∨ e = .capacity := by
  unfold decompressRun at h
  split at h
  next hc => cases h; exact (rangeChecks_code hc).imp_right .inl
  next =>
    split at h
    next ho => cases h; exact .inr (.inr (expandInto_error ho))
    next => cases h

theorem float2Run_error {s : State} {e : ErrCode} (h : float2Run s = .error e) :
    e = .range ∨ e = .overlap ∨ e = .lane ∨ e = .capacity := by
  unfold float2Run at h
  split at h
  next hc => cases h; exact (rangeChecks_code hc).imp_right .inl
  next =>
    dsimp only at h
    split_ifs at h <;> cases h
    · exact .inr (.inr (.inl rfl))
    · exact .inr (.inr (.inl rfl))
    · exact .inr (.inr (.inr rfl))

theorem float3Run_error {s : State} {e : ErrCode} (h : float3Run s = .error e) :
    e = .range ∨ e = .overlap ∨ e = .lane ∨ e = .capacity := by
  unfold float3Run at h
  split at h
  next hc => cases h; exact (rangeChecks_code hc).imp_right .inl
  next =>
    dsimp only at h
    split_ifs at h <;> cases h
    · exact .inr (.inr (.inl rfl))
    · exact .inr (.inr (.inl rfl))
    · exact .inr (.inr (.inl rfl))
    · exact .inr (.inr (.inr rfl))

/-! ## The bytes a successful command writes -/

/-- From `s` to `t` an output of at most DST_CAP bytes was written from DST_ADDR on, and OUT_LEN is its length. -/
def WroteOutput (s t : State) : Prop :=
  ∃ out : List Byte, out.length ≤ s.dst.len ∧ t.mem = s.mem.writeBytes s.dst.base out ∧ t.outLen.toNat = out.length

/-- A length up to DST_CAP fits in OUT_LEN's 64 bits. -/
theorem toNat_ofNat_of_le_dstCap {s : State} {n : Nat} (h : n ≤ s.dst.len) : (BitVec.ofNat 64 n).toNat = n := by
  have hcap : s.dst.len < 2 ^ 64 := s.ops.dstCap.isLt
  rw [BitVec.toNat_ofNat, Nat.mod_eq_of_lt (Nat.lt_of_le_of_lt h hcap)]

theorem decryptRun_wroteOutput {s t : State} (h : decryptRun s = .ok t) : WroteOutput s t := by
  obtain ⟨-, hle, rfl⟩ := decryptRun_ok h
  have hlen : (keystreamXor s.lfsr (s.mem.readBytes s.src.base s.src.len)).1.length = s.src.len := by
    rw [length_keystreamXor, Memory.length_readBytes]
  exact ⟨_, hlen.trans_le hle, rfl, hlen.symm⟩

/-- The token loop's output fits in the capacity (`43_decompress.md` R150). -/
theorem length_le_of_expandInto_ok {d : Vector Byte 16} {cap : Nat} {bs out : List Byte}
    (h : expandInto d cap bs [] = .ok out) : out.length ≤ cap := by
  rw [expandInto_eq _ _ _ _ (Nat.zero_le _)] at h
  split at h
  next hle => cases h; simpa using hle
  next => cases h

theorem decompressRun_wroteOutput {s t : State} (h : decompressRun s = .ok t) : WroteOutput s t := by
  obtain ⟨-, out, ho, rfl⟩ := decompressRun_ok h
  have hle := length_le_of_expandInto_ok ho
  exact ⟨out, hle, rfl, toNat_ofNat_of_le_dstCap hle⟩

/-- The output of FLOAT2 and FLOAT3: four bytes for each float. -/
theorem writeFloats_wroteOutput {s : State} {n : Nat} {word : Nat → List Byte} (hword : ∀ k, (word k).length = 4)
    (hle : 4 * n ≤ s.dst.len) : WroteOutput s (writeFloats s n word) := by
  have hlen := length_floats n word hword
  exact ⟨_, hlen.trans_le hle, rfl, (toNat_ofNat_of_le_dstCap hle).trans hlen.symm⟩

/-- An unraced command that ends with NONE raised nothing, so it wrote an output when its pseudocode's result is one. -/
theorem completion_wroteOutput {s : State} {i : Instr} {outputs : State → State} {onFault : ErrCode → State → State}
    {r : Except ErrCode State} (hraced : s.raced = false) (hcodes : r ≠ .error .none)
    (hok : ∀ t, r = .ok t → WroteOutput s t)
    (herr : (if s.raced then s.completeRaced i outputs else s.finish onFault r).err = .none) :
    WroteOutput s (if s.raced then s.completeRaced i outputs else s.finish onFault r) := by
  simp only [hraced, Bool.false_eq_true, if_false] at herr ⊢
  cases r with
  | ok t => exact hok t rfl
  | error e => exact absurd (congrArg Except.error herr) hcodes

theorem exec_wroteOutput {i : Instr} {s t : State} (hi : HasDestination i) (hraced : s.raced = false)
    (h : exec i s = .next t) (herr : t.err = .none) : WroteOutput s t := by
  cases i with
  | lfsrSeed | lfsrStep | cksum | hdrparse => exact hi.elim
  | decrypt =>
    obtain rfl := Host.Outcome.next.inj h
    exact completion_wroteOutput hraced (fun hr => by simpa using decryptRun_error hr)
      (fun _ => decryptRun_wroteOutput) herr
  | decompress =>
    obtain rfl := Host.Outcome.next.inj h
    exact completion_wroteOutput hraced (fun hr => by simpa using decompressRun_error hr)
      (fun _ => decompressRun_wroteOutput) herr
  | float2 =>
    obtain rfl := Host.Outcome.next.inj h
    refine completion_wroteOutput hraced (fun hr => by simpa using float2Run_error hr) (fun t hrun => ?_) herr
    obtain ⟨-, -, -, hle, rfl⟩ := float2Run_ok hrun
    exact writeFloats_wroteOutput (fun _ => rfl) hle
  | float3 =>
    obtain rfl := Host.Outcome.next.inj h
    refine completion_wroteOutput hraced (fun hr => by simpa using float3Run_error hr) (fun t hrun => ?_) herr
    obtain ⟨-, -, -, -, hle, rfl⟩ := float3Run_ok hrun
    exact writeFloats_wroteOutput (fun _ => rfl) hle

/-- Settles O51: a success wrote an output of OUT_LEN bytes (`exec_wroteOutput`), and a write leaves the bytes outside it. -/
theorem successWritesOutLenBytes : Obligations.SuccessWritesOutLenBytes := by
  intro i s t hi hraced h herr
  obtain ⟨out, hle, hmem, hlen⟩ := exec_wroteOutput hi hraced h herr
  refine ⟨hlen.trans_le hle, fun a ha => ?_⟩
  rw [InRange, hlen] at ha
  rw [hmem]
  exact Memory.read_writeBytes_outside _ ha

end Sys2Proof.Machine
end

section
/-! PROOFS. The encoder and the decoder are inverse to each other on the legal words (`30_encoding.md` R81 to R87). -/

namespace Sys2Proof

/-- Settles O1: the fields of the word are those it was put together from (`decode_commandWord`); IMM16 holds a whole step
count. -/
theorem decodeOfEncode : Obligations.DecodeOfEncode := by
  intro i hwf
  cases i with
  | lfsrSeed seed => exact decode_commandWord seed 0x00 0x01
  | lfsrStep count =>
    have hfits : count < 2 ^ 16 := by simpa [Instr.wf] using hwf
    have himm : (BitVec.ofNat 16 count).toNat = count := by rw [BitVec.toNat_ofNat, Nat.mod_eq_of_lt hfits]
    have hdecode : decode (encode (.lfsrStep count)) = .ok (.lfsrStep (BitVec.ofNat 16 count).toNat) :=
      decode_commandWord (BitVec.ofNat 16 count) 0x00 0x02
    rw [hdecode, himm]
  | cksum => exact decode_commandWord 0 0x00 0x10
  | decrypt => exact decode_commandWord 0 0x00 0x20
  | decompress => exact decode_commandWord 0 0x00 0x30
  | float2 => exact decode_commandWord 0 0x00 0x40
  | float3 => exact decode_commandWord 0 0x00 0x41
  | hdrparse => exact decode_commandWord 0 0x00 0x50

/-- The command of three fields is encoded by the word of these fields: one case for each row of R83. -/
theorem encode_of_decodeFields {opc rsvd : Byte} {imm : U16} {i : Instr} (h : decodeFields opc rsvd imm = .ok i) :
    encode i = commandWord imm rsvd opc ∧ i.wf = true := by
  obtain ⟨rfl, ⟨rfl, rfl⟩ | ⟨rfl, rfl⟩ | ⟨rfl, hplain⟩⟩ := decodeFields_ok h
  · exact ⟨rfl, rfl⟩
  · exact ⟨by rw [encode, BitVec.ofNat_toNat, BitVec.setWidth_eq], decide_eq_true imm.isLt⟩
  · obtain ⟨rfl, rfl⟩ | ⟨rfl, rfl⟩ | ⟨rfl, rfl⟩ | ⟨rfl, rfl⟩ | ⟨rfl, rfl⟩ | ⟨rfl, rfl⟩ := hplain <;> exact ⟨rfl, rfl⟩

/-- Settles O2: a word is the command word of its own fields (`commandWord_fields`). -/
theorem encodeOfDecode : Obligations.EncodeOfDecode := by
  intro w i h
  obtain ⟨hencode, hwf⟩ := encode_of_decodeFields h
  exact ⟨hencode.trans (commandWord_fields w), hwf⟩

/-- The word of every command is legal: the lemmas of `Laws.WordIsLegal` together. -/
theorem legal_encode (i : Instr) : legal (encode i) = true := by
  cases i with
  | lfsrSeed seed => exact Laws.WordIsLegal.lfsrSeed seed
  | lfsrStep count => exact Laws.WordIsLegal.lfsrStep count
  | cksum => exact Laws.WordIsLegal.cksum
  | decrypt => exact Laws.WordIsLegal.decrypt
  | decompress => exact Laws.WordIsLegal.decompress
  | float2 => exact Laws.WordIsLegal.float2
  | float3 => exact Laws.WordIsLegal.float3
  | hdrparse => exact Laws.WordIsLegal.hdrparse

/-- The legal words are those that decode: the issue step and the decoder accept the same words. -/
theorem legal_iff_decodes (w : Word) : legal w = true ↔ ∃ i, decode w = .ok i := by
  refine ⟨decode_of_legal, fun ⟨i, hi⟩ => ?_⟩
  obtain ⟨rfl, -⟩ := encodeOfDecode w i hi
  exact legal_encode i

/-- The three conditions of R85. -/
theorem legal_iff (w : Word) :
    legal w = true ↔ opcField w ∈ opcodes ∧ rsvdField w = 0 ∧ (opcField w ∈ immOpcodes ∨ immField w = 0) := by
  simp only [legal, Bool.and_eq_true, Bool.or_eq_true, List.contains_iff_mem, decide_eq_true_eq, and_assoc]

/-- Settles O3, by the two characterisations of `legal`. -/
theorem legalWordsAreTheDecodableOnes : Obligations.LegalWordsAreTheDecodableOnes :=
  fun w => ⟨(legal_iff_decodes w).symm.trans (legal_iff w), legal_iff_decodes w⟩

/-- Settles O4: each word is decoded by evaluation. -/
theorem wordsOfTheOpcodeMapDecode : Obligations.WordsOfTheOpcodeMapDecode :=
  ⟨rfl, rfl, rfl, rfl, rfl, rfl, rfl, rfl, rfl, rfl, rfl⟩

end Sys2Proof
end

section
/-! PROOFS. `wr64` (`30_encoding.md` R89): a low-half write, then a high-half write of one operand register. -/

namespace Sys2Proof.Machine

/-- Settles O16: the first write sets the low half, the second the high half and keeps the low one (`hostOp_halfWrite`), and
a 64-bit value is its two halves. -/
theorem writeSixtyFourSetsTheRegister : Obligations.WriteSixtyFourSetsTheRegister := by
  intro s r v hp hr
  obtain ⟨t, ht, htops, htlo, -, htother⟩ := hostOp_halfWrite (h := .lo) (g := .hi) hp hr (by decide) (getHalf v .lo)
  have hpt : t.pending = none := by rw [htops, hp]
  obtain ⟨u, hu, huops, huhi, hulo, huother⟩ := hostOp_halfWrite (h := .hi) (g := .lo) hpt hr (by decide) (getHalf v .hi)
  refine ⟨_, _, t, u, rfl, ht, hu, ?_, ?_, fun q hq => (huother q hq).trans (htother q hq)⟩
  · rw [huops, htops]
  · refine eq_of_getHalf fun g => ?_
    cases g with
    | lo => exact hulo.trans htlo
    | hi => exact huhi

end Sys2Proof.Machine
end

section
/-! PROOFS. Two machines with the same inputs (`30_encoding.md` R84): what a command computes from them is the same on both. -/

namespace Sys2Proof.Machine

/-! ## What the inputs determine -/

theorem src_congr {s u : State} (ha : s.ops.srcAddr = u.ops.srcAddr) (hl : s.ops.srcLen = u.ops.srcLen) :
    s.src = u.src := by
  rw [State.src, State.src, ha, hl]

theorem src2_congr {s u : State} (ha : s.ops.src2Addr = u.ops.src2Addr) (hl : s.ops.src2Len = u.ops.src2Len) :
    s.src2 = u.src2 := by
  rw [State.src2, State.src2, ha, hl]

theorem dst_congr {s u : State} (ha : s.ops.dstAddr = u.ops.dstAddr) (hc : s.ops.dstCap = u.ops.dstCap) :
    s.dst = u.dst := by
  rw [State.dst, State.dst, ha, hc]

/-- The range checks look at the parameters and at the ranges of the command's row of R84. -/
theorem operandChecks_congr {i : Instr} {s u : State} (h : SameInputs i s u) : operandChecks i s = operandChecks i u := by
  obtain ⟨hparams, -, -, hrow⟩ := h
  have hranges : sourceRanges i s = sourceRanges i u ∧ destRange i s = destRange i u := by
    cases i with
    | lfsrSeed | lfsrStep => exact ⟨rfl, rfl⟩
    | cksum | hdrparse =>
      obtain ⟨hsa, hsl, -⟩ := hrow
      exact ⟨congrArg ([·]) (src_congr hsa hsl), rfl⟩
    | decrypt | decompress =>
      obtain ⟨hsa, hsl, -, hda, hdc, -⟩ := hrow
      exact ⟨congrArg ([·]) (src_congr hsa hsl), congrArg some (dst_congr hda hdc)⟩
    | float2 =>
      obtain ⟨hsa, hsl, -, hsa2, hsl2, -, hda, hdc⟩ := hrow
      exact ⟨congrArg₂ ([·, ·]) (src_congr hsa hsl) (src2_congr hsa2 hsl2), congrArg some (dst_congr hda hdc)⟩
    | float3 =>
      obtain ⟨hops, -⟩ := hrow
      simp only [sourceRanges, destRange, State.src, State.src2, State.src3, State.dst, hops, and_self]
  rw [operandChecks, operandChecks, State.memSize, State.memSize, hparams, hranges.1, hranges.2]

/-- The range checks raise RANGE or OVERLAP, so never NONE. -/
theorem operandChecks_ne_none {i : Instr} {s : State} {e : ErrCode} (h : operandChecks i s = some e) : e ≠ .none := by
  obtain rfl | rfl := rangeChecks_code h <;> decide

theorem readBytes_congr {s u : State} {a l : U64} (h : SameBytes s u a l) :
    s.mem.readBytes a.toNat l.toNat = u.mem.readBytes a.toNat l.toNat :=
  List.map_congr_left fun k hk => h k (List.mem_range.1 hk)

/-! ## Endings and outputs -/

/-- Two runs of a command's pseudocode raise the same code, or both give a result and the results are related. -/
inductive SameEnding (R : State → State → Prop) : Except ErrCode State → Except ErrCode State → Prop
  | fault {e : ErrCode} (he : e ≠ .none) : SameEnding R (.error e) (.error e)
  | result {t v : State} (h : R t v) : SameEnding R (.ok t) (.ok v)

/-- Unraced commands agree on what they end with when their pseudocode's runs do. -/
theorem sameOutputs_of_sameEnding {i : Instr} {s u s' u' : State} {outputs : State → State}
    {onFault : ErrCode → State → State} {r q : Except ErrCode State} {R : State → State → Prop}
    (hs : s.raced = false) (hu : u.raced = false)
    (hs' : Host.Outcome.next (φ := Fault) (ρ := Refusal)
      (if s.raced then s.completeRaced i outputs else s.finish onFault r) = .next s')
    (hu' : Host.Outcome.next (φ := Fault) (ρ := Refusal)
      (if u.raced then u.completeRaced i outputs else u.finish onFault q) = .next u')
    (hrun : SameEnding R r q)
    (hfault : ∀ e, r = .error e → e ≠ .none →
      SameOutputs i s ((onFault e s).complete e) ((onFault e u).complete e))
    (hresult : ∀ t v, R t v → SameOutputs i s (t.complete .none) (v.complete .none)) : SameOutputs i s s' u' := by
  simp only [hs, hu, Bool.false_eq_true, if_false, Host.Outcome.next.injEq] at hs' hu'
  subst hs' hu'
  cases hrun with
  | fault he => exact hfault _ rfl he
  | result h => exact hresult _ _ h

/-- The two machines agree on OUT_LEN and on the OUT_LEN bytes from DST_ADDR on. -/
def SameOutput (t v : State) : Prop := t.outLen = v.outLen ∧ SameBytes t v t.ops.dstAddr t.outLen

/-- The same bytes written into two memories are read back the same. -/
theorem sameBytes_of_writeBytes {t v : State} {m n : Memory} {a l : U64} {out : List Byte}
    (ht : t.mem = m.writeBytes a.toNat out) (hv : v.mem = n.writeBytes a.toNat out) (hl : l.toNat ≤ out.length) :
    SameBytes t v a l := by
  intro k hk
  have hin : a.toNat ≤ a.toNat + k ∧ a.toNat + k < a.toNat + out.length := by omega
  rw [byteOf, byteOf, ht, hv, Memory.read_writeBytes, Memory.read_writeBytes, if_pos hin, if_pos hin]

/-! ## CKSUM, DECRYPT, DECOMPRESS -/

theorem cksumRun_sameEnding {s u : State} (h : SameInputs .cksum s u) :
    SameEnding (fun t v => t.ckMatch = v.ckMatch ∧ t.cksumExp = v.cksumExp ∧ t.cksumRes = v.cksumRes)
      (cksumRun s) (cksumRun u) := by
  have hchecks := operandChecks_congr h
  obtain ⟨-, -, -, hsa, hsl, hbytes, hexp⟩ := h
  have hsrc := src_congr hsa hsl
  have hread : s.mem.readBytes s.src.base s.src.len = u.mem.readBytes s.src.base s.src.len := readBytes_congr hbytes
  unfold cksumRun
  rw [← hchecks, ← hsrc, ← hread, ← hexp]
  split
  next hc => exact .fault (operandChecks_ne_none hc)
  next => exact .result ⟨rfl, rfl, rfl⟩

theorem decryptRun_sameEnding {s u : State} (h : SameInputs .decrypt s u) :
    SameEnding (fun t v => t.lfsr = v.lfsr ∧ SameOutput t v) (decryptRun s) (decryptRun u) := by
  have hchecks := operandChecks_congr h
  obtain ⟨-, -, -, hsa, hsl, hbytes, hda, hdc, hlfsr⟩ := h
  have hsrc := src_congr hsa hsl
  have hdst := dst_congr hda hdc
  have hread : s.mem.readBytes s.src.base s.src.len = u.mem.readBytes s.src.base s.src.len := readBytes_congr hbytes
  unfold decryptRun
  rw [← hchecks, ← hsrc, ← hdst, ← hread, ← hlfsr]
  split
  next hc => exact .fault (operandChecks_ne_none hc)
  next =>
    split
    · exact .fault (by decide)
    · refine .result ⟨rfl, hsl, sameBytes_of_writeBytes rfl rfl ?_⟩
      rw [length_keystreamXor, Memory.length_readBytes]
      exact Nat.le_refl _

theorem decompressRun_sameEnding {s u : State} (h : SameInputs .decompress s u) :
    SameEnding (fun t v => t.dict = v.dict ∧ SameOutput t v) (decompressRun s) (decompressRun u) := by
  have hchecks := operandChecks_congr h
  obtain ⟨-, -, -, hsa, hsl, hbytes, hda, hdc, hdict⟩ := h
  have hsrc := src_congr hsa hsl
  have hdst := dst_congr hda hdc
  have hread : s.mem.readBytes s.src.base s.src.len = u.mem.readBytes s.src.base s.src.len := readBytes_congr hbytes
  unfold decompressRun
  rw [← hchecks, ← hsrc, ← hdst, ← hread, ← hdict]
  split
  next hc => exact .fault (operandChecks_ne_none hc)
  next =>
    split
    next he => exact .fault (by rw [expandInto_error he]; decide)
    next out _ => exact .result ⟨rfl, rfl, sameBytes_of_writeBytes rfl rfl (Nat.mod_le _ _)⟩

/-! ## FLOAT2, FLOAT3 -/

/-- Two float lanes written to the same destination. -/
theorem writeFloats_sameOutput {s u : State} {n : Nat} {f g : Nat → List Byte} (hda : s.ops.dstAddr = u.ops.dstAddr)
    (hlen : ∀ k, (f k).length = 4) (hfg : ∀ k, k < n → f k = g k) :
    SameOutput (writeFloats s n f) (writeFloats u n g) := by
  have hout : (List.range n).flatMap f = (List.range n).flatMap g :=
    List.flatMap_congr fun k hk => hfg k (List.mem_range.1 hk)
  refine ⟨rfl, sameBytes_of_writeBytes (n := u.mem) rfl ?_ ((Nat.mod_le _ _).trans (length_floats n f hlen).ge)⟩
  simp only [writeFloats, State.dst, hda, hout]

theorem float2Word_congr {m m' : Memory} {a b k : Nat} (ha : ∀ j, j < 3 → m.read (a + (3 * k + j)) = m'.read (a + (3 * k + j)))
    (hb : m.read (b + k) = m'.read (b + k)) : float2Word m a b k = float2Word m' a b k := by
  have h0 := ha 0 (by decide)
  have h1 := ha 1 (by decide)
  have h2 := ha 2 (by decide)
  simp only [← Nat.add_assoc, Nat.add_zero] at h0 h1 h2
  simp only [float2Word, h0, h1, h2, hb]

/-- The sign of a float lies in the sign lane (`44_float.md` R175). -/
theorem signBit_congr {m m' : Memory} {lane n k : Nat} (p : SignPack) (hk : k < n)
    (h : ∀ j, j < signLen p n → m.read (lane + j) = m'.read (lane + j)) : signBit p m lane k = signBit p m' lane k := by
  cases p with
  | byteBit0 => simp only [signBit, h k hk]
  | bitsLsbFirst =>
    have hin : k / 8 < (n + 7) / 8 := by omega
    simp only [signBit, h (k / 8) hin]
  | bitsMsbFirst =>
    have hin : k / 8 < (n + 7) / 8 := by omega
    simp only [signBit, h (k / 8) hin]

theorem float3Word_congr {m m' : Memory} {p : SignPack} {a b c k : Nat}
    (ha : ∀ j, j < 3 → m.read (a + (3 * k + j)) = m'.read (a + (3 * k + j))) (hb : m.read (b + k) = m'.read (b + k))
    (hc : signBit p m c k = signBit p m' c k) : float3Word p m a b c k = float3Word p m' a b c k := by
  have h0 := ha 0 (by decide)
  have h1 := ha 1 (by decide)
  have h2 := ha 2 (by decide)
  simp only [← Nat.add_assoc, Nat.add_zero] at h0 h1 h2
  simp only [float3Word, h0, h1, h2, hb, hc]

theorem float2Run_sameEnding {s u : State} (h : SameInputs .float2 s u) :
    SameEnding SameOutput (float2Run s) (float2Run u) := by
  have hchecks := operandChecks_congr h
  obtain ⟨-, -, -, hsa, hsl, hbytes, hsa2, hsl2, hbytes2, hda, hdc⟩ := h
  have hsrc := src_congr hsa hsl
  have hsrc2 := src2_congr hsa2 hsl2
  have hdst := dst_congr hda hdc
  unfold float2Run
  rw [← hchecks, ← hsrc, ← hsrc2, ← hdst]
  split
  next hc => exact .fault (operandChecks_ne_none hc)
  next =>
    dsimp only
    split_ifs with hmod hlane hcap
    · exact .fault (by decide)
    · exact .fault (by decide)
    · exact .fault (by decide)
    · refine .result (writeFloats_sameOutput hda (fun _ => rfl) fun k hk => ?_)
      exact float2Word_congr (fun j hj => hbytes (3 * k + j) (show _ < s.src.len by omega))
        (hbytes2 k (show _ < s.src2.len by omega))

theorem float3Run_sameEnding {s u : State} (h : SameInputs .float3 s u) :
    SameEnding SameOutput (float3Run s) (float3Run u) := by
  have hchecks := operandChecks_congr h
  obtain ⟨hparams, -, -, hops, hbytes, hbytes2, hbytes3⟩ := h
  have hsrc : s.src = u.src := by rw [State.src, State.src, hops]
  have hsrc2 : s.src2 = u.src2 := by rw [State.src2, State.src2, hops]
  have hsrc3 : s.src3 = u.src3 := by rw [State.src3, State.src3, hops]
  have hdst : s.dst = u.dst := by rw [State.dst, State.dst, hops]
  unfold float3Run
  rw [← hchecks, ← hsrc, ← hsrc2, ← hsrc3, ← hdst, ← hparams]
  split
  next hc => exact .fault (operandChecks_ne_none hc)
  next =>
    dsimp only
    split_ifs with hmod hlane hsign hcap
    · exact .fault (by decide)
    · exact .fault (by decide)
    · exact .fault (by decide)
    · exact .fault (by decide)
    · refine .result (writeFloats_sameOutput (congrArg _ hops) (fun _ => rfl) fun k hk => ?_)
      exact float3Word_congr (fun j hj => hbytes (3 * k + j) (show _ < s.src.len by omega))
        (hbytes2 k (show _ < s.src2.len by omega))
        (signBit_congr _ hk fun j hj => hbytes3 j (show _ < s.src3.len by omega))

/-! ## HDRPARSE -/

/-- HDRPARSE reaches step 3 when its checks raise nothing, the source holds 20 bytes, and the magic is there. -/
theorem headerIsParsed_iff (s : State) : HeaderIsParsed s ↔
    operandChecks .hdrparse s = none ∧ 20 ≤ s.src.len ∧ magicMatches (containerByte s) = true := by
  have hchecks : operandChecks .hdrparse s = none ↔ InMemory s s.ops.srcAddr s.ops.srcLen := by
    rw [operandChecks_source (.inr rfl), ← inMemory_iff]
    exact ite_eq_left_iff.trans (by simp [State.src])
  simp only [hchecks, HeaderIsParsed, magicMatches, Bool.and_eq_true, decide_eq_true_eq, and_assoc]
  rfl

theorem headerIsParsed_congr {s u : State} (h : SameInputs .hdrparse s u) : HeaderIsParsed s ↔ HeaderIsParsed u := by
  obtain ⟨hparams, -, -, hsa, hsl, hbytes⟩ := h
  unfold HeaderIsParsed InMemory
  rw [← hparams, ← hsa, ← hsl]
  refine and_congr_right fun _ => and_congr_right fun hlen => ?_
  rw [hbytes 0 (by omega), hbytes 1 (by omega), hbytes 2 (by omega)]

/-- The checks pass and step 3 is not reached: the header registers hold any value (`45_header.md` R198). -/
theorem hdrparseRun_of_not_parsed {s : State} (hchecks : operandChecks .hdrparse s = none) (h : ¬HeaderIsParsed s) :
    hdrparseRun s = .ok (setHdrValid s.freeHeader.drawn false) := by
  simp only [headerIsParsed_iff, hchecks, true_and, not_and, Bool.not_eq_true] at h
  unfold hdrparseRun
  rw [hchecks]
  by_cases hlen : s.src.len < 20
  · simp only [if_pos hlen]
  · simp only [if_neg hlen, h (Nat.not_lt.1 hlen), Bool.not_false, if_true]

/-- Step 3 is reached: the header is valid, or the source too short for what FLAGS promises (`45_header.md` R198). -/
theorem hdrparseRun_of_parsed {s : State} (h : HeaderIsParsed s) :
    hdrparseRun s = .ok (if s.src.len < headerLen (containerByte s 3) then
      setHdrValid (loadFixedHeader s).freeDictAndExpected.drawn false
      else setHdrValid (loadExpected (loadDict (loadFixedHeader s))) true) := by
  obtain ⟨hchecks, hlen, hmagic⟩ := (headerIsParsed_iff s).1 h
  unfold hdrparseRun
  rw [hchecks]
  simp only [if_neg (Nat.not_lt.2 hlen), hmagic, Bool.not_true, Bool.false_eq_true, if_false]
  split <;> rfl

theorem loadDict_eq (s : State) : loadDict s = { s with
    dict := if isCompressed (containerByte s 3) then Vector.ofFn (fun i : Fin 16 => containerByte s (20 + i.val))
      else s.dict } := by
  unfold loadDict
  split <;> rfl

theorem loadExpected_eq (s : State) : loadExpected s = { s with
    cksumExp := if isChecksummed (containerByte s 3) then
        be16 (containerByte s (checksumOffset (containerByte s 3)))
          (containerByte s (checksumOffset (containerByte s 3) + 1))
      else s.cksumExp } := by
  unfold loadExpected
  dsimp only
  split <;> rfl

/-- Steps 3 to 8: the fixed fields, and the dictionary and the checksum where FLAGS has them (`45_header.md` R191). -/
theorem loadHeader_eq (s : State) : loadExpected (loadDict (loadFixedHeader s)) = { loadFixedHeader s with
    dict := if isCompressed (containerByte s 3) then Vector.ofFn (fun i : Fin 16 => containerByte s (20 + i.val))
      else s.dict
    cksumExp := if isChecksummed (containerByte s 3) then
        be16 (containerByte s (checksumOffset (containerByte s 3)))
          (containerByte s (checksumOffset (containerByte s 3) + 1))
      else s.cksumExp } := by
  rw [loadDict_eq, loadExpected_eq]
  rfl

/-- A compressed header holds the 36 bytes up to the end of the dictionary (`45_header.md` R194, R196). -/
theorem headerLen_of_compressed {f : Byte} (h : isCompressed f = true) : 36 ≤ headerLen f := by
  rw [headerLen, h, Bool.toNat_true]
  omega

/-- A checksummed header ends with the two bytes of the checksum (`45_header.md` R194, R197). -/
theorem headerLen_of_checksummed {f : Byte} (h : isChecksummed f = true) : headerLen f = checksumOffset f + 2 := by
  rw [headerLen, checksumOffset, h]
  cases isCompressed f <;> rfl

theorem le64_congr {b c : Nat → Byte} {p : Nat} (h : ∀ j, j < 8 → b (p + j) = c (p + j)) : le64 b p = le64 c p := by
  simp only [le64, h 7 (by decide), h 6 (by decide), h 5 (by decide), h 4 (by decide), h 3 (by decide), h 2 (by decide),
    h 1 (by decide), show b p = c p from h 0 (by decide)]

theorem containerByte_congr {s u : State} (h : SameInputs .hdrparse s u) {k : Nat} (hk : k < s.src.len) :
    containerByte s k = containerByte u k := by
  obtain ⟨-, -, -, hsa, hsl, hbytes⟩ := h
  rw [containerByte, containerByte, ← src_congr hsa hsl]
  exact hbytes k hk

/-- The two machines agree on what steps 3 to 5 of HDRPARSE load. -/
def SameFixedHeader (t v : State) : Prop :=
  t.flags = v.flags ∧ t.hdrLen = v.hdrLen ∧ t.origSize = v.origSize ∧ t.dataSize = v.dataSize

/-- Steps 3 to 5 read nothing but the first 20 bytes of the container. -/
theorem loadFixedHeader_congr {s u : State} (h : ∀ k, k < 20 → containerByte s k = containerByte u k) :
    SameFixedHeader (loadFixedHeader s) (loadFixedHeader u) := by
  have hflags := h 3 (by decide)
  exact ⟨hflags, congrArg (fun f => BitVec.ofNat 32 (headerLen f)) hflags,
    le64_congr fun j hj => h (4 + j) (by omega), le64_congr fun j hj => h (12 + j) (by omega)⟩

/-- What `SameOutputs` says of HDRPARSE's header registers, run from `s` and from a machine with the same inputs. -/
def SameHeader (s t v : State) : Prop :=
  t.hdrValid = v.hdrValid ∧ (HeaderIsParsed s → SameFixedHeader t v) ∧
    (t.hdrValid = true →
      (isCompressed t.flags = true → t.dict = v.dict) ∧ (isChecksummed t.flags = true → t.cksumExp = v.cksumExp))

/-- A valid header: the dictionary and the checksum, where FLAGS has them, lie in the container. -/
theorem loadHeader_congr {s u : State} (hlen : headerLen (containerByte s 3) ≤ s.src.len)
    (hfixed : SameFixedHeader (loadFixedHeader s) (loadFixedHeader u))
    (h : ∀ k, k < s.src.len → containerByte s k = containerByte u k) :
    SameHeader s (setHdrValid (loadExpected (loadDict (loadFixedHeader s))) true)
      (setHdrValid (loadExpected (loadDict (loadFixedHeader u))) true) := by
  have hflags : containerByte s 3 = containerByte u 3 := hfixed.1
  rw [loadHeader_eq, loadHeader_eq, ← hflags]
  refine ⟨rfl, fun _ => hfixed, fun _ => ⟨fun hc => ?_, fun hk => ?_⟩⟩
  · have hcompressed : isCompressed (containerByte s 3) = true := hc
    have hend := headerLen_of_compressed hcompressed
    simp only [setHdrValid_dict, hcompressed, if_true]
    exact congrArg Vector.ofFn (funext fun i => h (20 + i.val) (by omega))
  · have hchecksummed : isChecksummed (containerByte s 3) = true := hk
    have hend := headerLen_of_checksummed hchecksummed
    simp only [setHdrValid_cksumExp, hchecksummed, if_true]
    exact congrArg₂ be16 (h _ (by omega)) (h _ (by omega))

theorem hdrparseRun_sameEnding {s u : State} (h : SameInputs .hdrparse s u) :
    SameEnding (SameHeader s) (hdrparseRun s) (hdrparseRun u) := by
  have hchecks := operandChecks_congr h
  have hparsed := headerIsParsed_congr h
  have hbyte : ∀ k, k < s.src.len → containerByte s k = containerByte u k := fun _ => containerByte_congr h
  obtain ⟨-, -, -, hsa, hsl, -⟩ := h
  have hsrc := src_congr hsa hsl
  by_cases hp : HeaderIsParsed s
  · obtain ⟨-, h20, -⟩ := (headerIsParsed_iff s).1 hp
    have hfixed : SameFixedHeader (loadFixedHeader s) (loadFixedHeader u) :=
      loadFixedHeader_congr fun k hk => hbyte k (by omega)
    rw [hdrparseRun_of_parsed hp, hdrparseRun_of_parsed (hparsed.1 hp), ← hsrc, ← hbyte 3 (by omega)]
    refine .result ?_
    split
    · exact ⟨rfl, fun _ => hfixed, nofun⟩
    next hlen => exact loadHeader_congr (Nat.not_lt.1 hlen) hfixed hbyte
  · cases hc : operandChecks .hdrparse s with
    | some e =>
      simp only [hdrparseRun, ← hchecks, hc]
      exact .fault (operandChecks_ne_none hc)
    | none =>
      rw [hdrparseRun_of_not_parsed hc hp, hdrparseRun_of_not_parsed (hchecks.symm.trans hc) (hparsed.not.1 hp)]
      exact .result ⟨rfl, fun hp' => absurd hp' hp, nofun⟩

/-! ## Every command -/

/-- DECOMPRESS's fault effects leave the dictionary. -/
theorem decompressFault_dict (e : ErrCode) (s : State) : (decompressFault e s).dict = s.dict := by
  cases e <;> rfl

/-- A fault of HDRPARSE comes before its step 3. -/
theorem not_parsed_of_hdrparseRun_error {s : State} {e : ErrCode} (h : hdrparseRun s = .error e) : ¬HeaderIsParsed s := by
  intro hp
  rw [hdrparseRun_of_parsed hp] at h
  cases h

/-- Settles O53: LFSR.SEED and LFSR.STEP by their equations; of each other command the two runs end alike, and its fault
effects are constant or keep what the two machines agree on. -/
theorem commandDependsOnItsOperandsOnly : Obligations.CommandDependsOnItsOperandsOnly := by
  intro i s u s' u' h hs' hu'
  have hin := h
  obtain ⟨-, hs, hu, hrow⟩ := h
  cases i with
  | lfsrSeed seed => cases hs'; cases hu'; exact ⟨rfl, rfl, rfl, rfl⟩
  | lfsrStep count => cases hs'; cases hu'; exact ⟨rfl, rfl, rfl, congrArg (lfsrIterate count) hrow⟩
  | cksum =>
    obtain ⟨-, -, -, hexp⟩ := hrow
    exact sameOutputs_of_sameEnding hs hu hs' hu' (cksumRun_sameEnding hin)
      (fun _ _ he => ⟨rfl, rfl, rfl, rfl, hexp, (absurd · he)⟩)
      (fun _ _ ⟨hmatch, hexp, hres⟩ => ⟨rfl, rfl, rfl, hmatch, hexp, fun _ => hres⟩)
  | decrypt =>
    obtain ⟨-, -, -, -, -, hlfsr⟩ := hrow
    exact sameOutputs_of_sameEnding hs hu hs' hu' (decryptRun_sameEnding hin)
      (fun _ _ he => ⟨rfl, rfl, rfl, hlfsr, (absurd · he)⟩)
      (fun _ _ ⟨hlfsr, hout⟩ => ⟨rfl, rfl, rfl, hlfsr, fun _ => hout⟩)
  | decompress =>
    obtain ⟨-, -, -, -, -, hdict⟩ := hrow
    have hkept (e : ErrCode) : (decompressFault e s).dict = (decompressFault e u).dict := by
      rw [decompressFault_dict, decompressFault_dict, hdict]
    exact sameOutputs_of_sameEnding hs hu hs' hu' (decompressRun_sameEnding hin)
      (fun e _ he => ⟨rfl, rfl, rfl, hkept e, (absurd · he)⟩)
      (fun _ _ ⟨hdict, hout⟩ => ⟨rfl, rfl, rfl, hdict, fun _ => hout⟩)
  | float2 =>
    exact sameOutputs_of_sameEnding hs hu hs' hu' (float2Run_sameEnding hin)
      (fun _ _ he => ⟨rfl, rfl, rfl, (absurd · he)⟩) (fun _ _ hout => ⟨rfl, rfl, rfl, fun _ => hout⟩)
  | float3 =>
    exact sameOutputs_of_sameEnding hs hu hs' hu' (float3Run_sameEnding hin)
      (fun _ _ he => ⟨rfl, rfl, rfl, (absurd · he)⟩) (fun _ _ hout => ⟨rfl, rfl, rfl, fun _ => hout⟩)
  | hdrparse =>
    exact sameOutputs_of_sameEnding hs hu hs' hu' (hdrparseRun_sameEnding hin)
      (fun _ hr _ => ⟨rfl, rfl, rfl, rfl, fun hp => absurd hp (not_parsed_of_hdrparseRun_error hr), nofun⟩)
      (fun _ _ hheader => ⟨rfl, rfl, rfl, hheader⟩)

end Sys2Proof.Machine
end

section
/-! PROOFS. CKSUM (`40_checksum.md` R101 to R104): its ending in range and out of range, and a sum that ignores the order. -/

namespace Sys2Proof.Machine

/-! ## The sum of the source bytes -/

/-- The checksum of the source bytes, byte by byte as the statements name them. -/
def sourceChecksum (s : State) : U16 :=
  checksumFrom 0 ((List.range s.ops.srcLen.toNat).map (byteOf s s.ops.srcAddr))

theorem sourceChecksum_toNat (s : State) : (sourceChecksum s).toNat =
    ((List.range s.ops.srcLen.toNat).map (fun i => (byteOf s s.ops.srcAddr i).toNat)).sum % 65536 := by
  rw [sourceChecksum, checksumFrom_toNat, List.map_map, show (0 : U16).toNat = 0 from rfl, Nat.zero_add]
  rfl

/-- The sum ignores the order of the bytes (R104): as a number it is the sum of the bytes modulo 65536. -/
theorem checksumFrom_perm (sum : U16) {bs cs : List Byte} (h : bs.Perm cs) : checksumFrom sum bs = checksumFrom sum cs := by
  apply BitVec.eq_of_toNat_eq
  rw [checksumFrom_toNat, checksumFrom_toNat, (h.map (·.toNat)).sum_eq]

/-! ## The source check -/

theorem operandChecks_source_of_inMemory {i : Instr} (hi : i = .cksum ∨ i = .hdrparse) {s : State}
    (h : InMemory s s.ops.srcAddr s.ops.srcLen) : operandChecks i s = none := by
  rw [operandChecks_source hi]
  exact if_pos ((inMemory_iff s _ _).2 h)

theorem operandChecks_source_of_not_inMemory {i : Instr} (hi : i = .cksum ∨ i = .hdrparse) {s : State}
    (h : ¬InMemory s s.ops.srcAddr s.ops.srcLen) : operandChecks i s = some .range := by
  rw [operandChecks_source hi]
  exact if_neg (h ∘ (inMemory_iff s _ _).1)

/-! ## The command -/

theorem cksumRun_of_inMemory {s : State} (h : InMemory s s.ops.srcAddr s.ops.srcLen) :
    cksumRun s = .ok { s with cksumRes := sourceChecksum s, ckMatch := decide (sourceChecksum s = s.cksumExp) } := by
  rw [cksumRun, operandChecks_source_of_inMemory (.inl rfl) h]
  rfl

theorem cksumRun_of_not_inMemory {s : State} (h : ¬InMemory s s.ops.srcAddr s.ops.srcLen) :
    cksumRun s = .error .range := by
  rw [cksumRun, operandChecks_source_of_not_inMemory (.inl rfl) h]

theorem exec_cksum_of_not_raced {s : State} (h : s.raced = false) :
    exec .cksum s = .next (s.finish cksumFault (cksumRun s)) := by
  simp only [exec, execCksum, h, Bool.false_eq_true, if_false]

/-- Where no race was marked there is no mark to clear: only the completion record changes (`60_exceptions.md` R219). -/
theorem State.complete_of_not_raced {s : State} (h : s.raced = false) (e : ErrCode) :
    s.complete e = { s with pending := none, done := true, err := e } := by
  rw [State.complete, ← h]

theorem exec_cksum_of_inMemory {s : State} (hraced : s.raced = false) (h : InMemory s s.ops.srcAddr s.ops.srcLen) :
    exec .cksum s = .next { s with
      cksumRes := sourceChecksum s, ckMatch := decide (sourceChecksum s = s.cksumExp),
      pending := none, done := true, err := .none } := by
  rw [exec_cksum_of_not_raced hraced, cksumRun_of_inMemory h, State.finish_ok, State.complete_of_not_raced]
  exact hraced

/-- Settles O29, by `exec_cksum_of_inMemory`: the sum is `sourceChecksum`. -/
theorem checksumResult : Obligations.ChecksumResult :=
  fun s hraced h => ⟨sourceChecksum s, sourceChecksum_toNat s, exec_cksum_of_inMemory hraced h⟩

/-- Settles O30: the source check raises RANGE, and the fault effect clears CK_MATCH alone. -/
theorem checksumRangeFault : Obligations.ChecksumRangeFault := by
  intro s hraced h
  rw [exec_cksum_of_not_raced hraced, cksumRun_of_not_inMemory h, State.finish_error, cksumFault,
    State.complete_of_not_raced]
  exact hraced

/-- Settles O31: both results are `sourceChecksum`, which is the same for a permutation of the bytes. -/
theorem checksumIgnoresOrder : Obligations.ChecksumIgnoresOrder := by
  intro s t s' t' hs ht hsrc htsrc hperm hs' ht'
  rw [exec_cksum_of_inMemory hs hsrc] at hs'
  rw [exec_cksum_of_inMemory ht htsrc] at ht'
  cases hs'
  cases ht'
  exact checksumFrom_perm 0 hperm

end Sys2Proof.Machine
end

section
/-! PROOFS. The LFSR (`41_lfsr.md`): `step16` bit by bit, its inverse, and the commands LFSR.SEED and LFSR.STEP. -/

namespace Sys2Proof.Machine

/-! ## The transition, bit by bit -/

theorem step16_getLsbD (s : U16) (j : Nat) :
    (step16 s).getLsbD j =
      if j = 15 then s.getLsbD 0 ^^ s.getLsbD 6 ^^ s.getLsbD 9 ^^ s.getLsbD 13 else s.getLsbD (j + 1) := by
  simp only [step16, bit, BitVec.getLsbD_append, BitVec.getLsbD_extractLsb', BitVec.getLsbD_ofBool]
  split_ifs <;> grind

theorem step16_zero : step16 0 = 0 := by decide

/-- The taps and the shift are linear over XOR. -/
theorem step16_xor : Function.Semiconj₂ step16 (· ^^^ ·) (· ^^^ ·) := by
  intro a b
  apply BitVec.eq_of_getLsbD_eq
  intro j _
  simp only [step16_getLsbD, BitVec.getLsbD_xor]
  split
  · simp only [Bool.xor_assoc, Bool.xor_left_comm]
  · rfl

/-- The transition as a shift (R111): bit 0 of the shifted XOR is the new bit. -/
theorem step16_eq_shift (s : U16) :
    step16 s = (s >>> 1) ||| (((s ^^^ (s >>> 6) ^^^ (s >>> 9) ^^^ (s >>> 13)) &&& 1) <<< 15) := by
  apply BitVec.eq_of_getLsbD_eq
  intro j hj
  rw [step16_getLsbD]
  by_cases h : j = 15
  · subst h
    simp
  · have hlt : j < 15 := by omega
    simp [h, hlt, Nat.add_comm]

/-- Settles O26, by `step16_getLsbD` at bit 15 and below it, and `step16_eq_shift`. -/
theorem transitionBits : Obligations.TransitionBits := fun s =>
  ⟨step16_getLsbD s 15, fun j hj => (step16_getLsbD s j).trans (if_neg hj.ne), step16_eq_shift s⟩

/-! ## The inverse -/

/-- The state before `t` (R120): bits 14..0 move up, and bit 0 is what the taps must have shifted out. -/
def unstep16 (t : U16) : U16 :=
  t.extractLsb' 0 15 ++ BitVec.ofBool (t.getLsbD 15 ^^ t.getLsbD 5 ^^ t.getLsbD 8 ^^ t.getLsbD 12)

theorem unstep16_getLsbD_zero (t : U16) :
    (unstep16 t).getLsbD 0 = (t.getLsbD 15 ^^ t.getLsbD 5 ^^ t.getLsbD 8 ^^ t.getLsbD 12) := by
  rw [unstep16, BitVec.getLsbD_append, if_pos (by decide), BitVec.getLsbD_ofBool]
  rfl

theorem unstep16_getLsbD_succ (t : U16) {j : Nat} (hj : j < 15) : (unstep16 t).getLsbD (j + 1) = t.getLsbD j := by
  rw [unstep16, BitVec.getLsbD_append, if_neg (by omega), BitVec.getLsbD_extractLsb']
  simp [hj]

/-- The taps a step XORs into the new bit cancel when the step is undone. -/
theorem xor_taps_cancel : ∀ a b c d : Bool, ((a ^^ b ^^ c ^^ d) ^^ b ^^ c ^^ d) = a := by decide

theorem unstep16_step16 (s : U16) : unstep16 (step16 s) = s := by
  apply BitVec.eq_of_getLsbD_eq
  intro j hj
  cases j with
  | zero =>
    simp only [unstep16_getLsbD_zero, step16_getLsbD]
    exact xor_taps_cancel _ _ _ _
  | succ j => rw [unstep16_getLsbD_succ _ (by omega), step16_getLsbD, if_neg (by omega)]

theorem step16_unstep16 (t : U16) : step16 (unstep16 t) = t := by
  apply BitVec.eq_of_getLsbD_eq
  intro j hj
  rw [step16_getLsbD]
  split
  next h =>
    rw [unstep16_getLsbD_zero, unstep16_getLsbD_succ t (j := 5) (by decide), unstep16_getLsbD_succ t (j := 8) (by decide),
      unstep16_getLsbD_succ t (j := 12) (by decide), h]
    exact xor_taps_cancel _ _ _ _
  next h => exact unstep16_getLsbD_succ t (by omega)

theorem step16_eq_iff (s t : U16) : step16 s = t ↔ s = unstep16 t :=
  ⟨fun h => h ▸ (unstep16_step16 s).symm, fun h => h ▸ step16_unstep16 t⟩

theorem step16_injective : Function.Injective step16 :=
  Function.LeftInverse.injective unstep16_step16

theorem step16_eq_zero_iff (s : U16) : step16 s = 0 ↔ s = 0 :=
  step16_eq_iff s 0

/-! ## The commands and the host's write -/

theorem iterate_step16_zero (n : Nat) : step16^[n] 0 = 0 :=
  Function.iterate_fixed step16_zero n

theorem exec_lfsrStep (n : Nat) (s : State) :
    exec (.lfsrStep n) s =
      .next { s with lfsr := step16^[n] s.lfsr, pending := none, done := true, err := .none, raced := false } := by
  rw [← lfsrIterate_eq]
  rfl

/-- Settles O25, by `exec_lfsrStep`. -/
theorem stepAppliesTheTransition : Obligations.StepAppliesTheTransition :=
  exec_lfsrStep

/-- A host write of LFSR_STATE keeps the low half of the word, here the whole seed. -/
theorem writeReg_lfsrState_zeroExtend (s : State) (seed : U16) :
    writeReg s .lfsrState (seed.zeroExtend 32) = { s with lfsr := seed } := by
  have hlow : (seed.zeroExtend 32).extractLsb' 0 16 = seed := by
    apply BitVec.eq_of_getLsbD_eq
    intro j hj
    simp [hj, show j < 32 by omega]
  rw [writeReg, hlow]

/-- Settles O24: LFSR.SEED by its equation, the fixed point by `iterate_step16_zero`, the host's write by the rule for an
idle register write. -/
theorem seedSetsTheState : Obligations.SeedSetsTheState := by
  refine ⟨fun seed s => rfl, fun n s hs => ⟨_, exec_lfsrStep n s, ?_⟩, iterate_step16_zero, fun s seed hp => ?_⟩
  · rw [hs]
    exact iterate_step16_zero n
  · exact (hostOp_regWrite_idle hp .lfsrState _).trans (congrArg _ (writeReg_lfsrState_zeroExtend s seed))

end Sys2Proof.Machine
end

section
/-! PROOFS. The period of the LFSR (`41_lfsr.md` R119, `90_conflicts.md` C2). `step16` is linear, so 257 of its steps are one
XOR of tabulated columns; as 65535 = 255 * 257 = 3 * 5 * 17 * 257, a few such jumps show that 0x1337 returns after 65535
steps and after no quotient of 65535 by a prime. -/

namespace Sys2Proof.Machine

open Function

/-! ## Linear maps by their columns -/

/-- The XOR of the columns that the low `n` bits of `s` select. -/
def xorColumns (column : Nat → U16) (s : U16) : Nat → U16
  | 0 => 0
  | n + 1 => xorColumns column s n ^^^ bif s.getLsbD n then column n else 0

/-- A linear map acts on the selected columns one by one. -/
theorem map_xorColumns {f : U16 → U16} (hf : Semiconj₂ f (· ^^^ ·) (· ^^^ ·)) (s : U16) {c d : Nat → U16} {n : Nat}
    (hcd : ∀ i < n, f (c i) = d i) : f (xorColumns c s n) = xorColumns d s n := by
  have hzero : f 0 = 0 := by simpa using hf.eq 0 0
  induction n with
  | zero => exact hzero
  | succ n ih =>
    rw [xorColumns, xorColumns, hf.eq, ih fun i hi => hcd i (by omega)]
    cases s.getLsbD n with
    | false => rw [cond_false, cond_false, hzero]
    | true => rw [cond_true, cond_true, hcd n (by omega)]

theorem twoPow_selected_getLsbD (s : U16) (n j : Nat) :
    (bif s.getLsbD n then BitVec.twoPow 16 n else 0).getLsbD j = (decide (j = n) && s.getLsbD j) := by
  by_cases h : j = n
  · subst h
    cases hs : s.getLsbD j with
    | false => simp
    | true => simp [BitVec.getLsbD_twoPow, BitVec.lt_of_getLsbD hs, -BitVec.getLsbD_eq_getElem]
  · cases s.getLsbD n <;> simp [BitVec.getLsbD_twoPow, h, Ne.symm h]

theorem xorColumns_twoPow_getLsbD (s : U16) (n j : Nat) :
    (xorColumns (BitVec.twoPow 16) s n).getLsbD j = (decide (j < n) && s.getLsbD j) := by
  induction n with
  | zero => simp [xorColumns]
  | succ n ih =>
    rw [xorColumns, BitVec.getLsbD_xor, ih, twoPow_selected_getLsbD]
    rcases lt_trichotomy j n with h | h | h
    · simp [h, h.ne, Nat.lt_succ_of_lt h]
    · simp [h]
    · simp [h.ne', h.not_gt, h.not_ge]

/-- A state is the XOR of the powers of two at its one bits. -/
theorem xorColumns_twoPow (s : U16) : xorColumns (BitVec.twoPow 16) s 16 = s := by
  apply BitVec.eq_of_getLsbD_eq
  intro j hj
  rw [xorColumns_twoPow_getLsbD, decide_eq_true hj, Bool.true_and]

/-! ## 257 steps at once -/

/-- 257 steps from each power of two. -/
def columns257 : List U16 :=
  [0x8050, 0x00A1, 0x0143, 0x0287, 0x050E, 0x0A1D, 0x946A, 0x28D5,
   0x51AA, 0x2305, 0x460B, 0x8C16, 0x182D, 0xB00A, 0x6014, 0xC028]

theorem columns257_eq : ∀ i < 16, step16^[257] (BitVec.twoPow 16 i) = columns257.getD i 0 := by decide +kernel

/-- 257 steps, from the table. -/
def jump257 (s : U16) : U16 := xorColumns (columns257.getD · 0) s 16

theorem iterate_step16_257 : step16^[257] = jump257 := by
  funext s
  calc step16^[257] s = step16^[257] (xorColumns (BitVec.twoPow 16) s 16) := by rw [xorColumns_twoPow]
    _ = jump257 s := map_xorColumns (step16_xor.iterate 257) s columns257_eq

theorem iterate_step16_257_mul (k : Nat) (s : U16) : step16^[257 * k] s = jump257^[k] s := by
  rw [iterate_mul, iterate_step16_257]

/-! ## The period of 0x1337 -/

/-- A point that returns after `n` steps, and after no quotient of `n` by a prime, has period `n`. -/
theorem minimalPeriod_eq_of_prime_quotients {α : Type} {f : α → α} {x : α} {n : Nat} (hx : IsPeriodicPt f n x)
    (hprime : ∀ p, p.Prime → p ∣ n → ¬IsPeriodicPt f (n / p) x) : minimalPeriod f x = n := by
  obtain ⟨a, ha⟩ := hx.minimalPeriod_dvd
  by_contra hne
  have ha1 : a ≠ 1 := by
    rintro rfl
    exact hne (by rw [ha, Nat.mul_one])
  have hdvd : a.minFac ∣ n := ha ▸ (Nat.minFac_dvd a).mul_left _
  refine hprime _ (Nat.minFac_prime ha1) hdvd ((isPeriodicPt_iff_minimalPeriod_dvd).2 ?_)
  rw [Nat.dvd_div_iff_mul_dvd hdvd, Nat.mul_comm, ha]
  exact Nat.mul_dvd_mul_left _ (Nat.minFac_dvd a)

theorem eq_of_prime_dvd_65535 {p : Nat} (hp : p.Prime) (h : p ∣ 65535) : p = 3 ∨ p = 5 ∨ p = 17 ∨ p = 257 := by
  rw [show 65535 = 3 * (5 * (17 * 257)) from rfl, hp.dvd_mul, hp.dvd_mul, hp.dvd_mul] at h
  rwa [Nat.prime_dvd_prime_iff_eq hp (by norm_num), Nat.prime_dvd_prime_iff_eq hp (by norm_num),
    Nat.prime_dvd_prime_iff_eq hp (by norm_num), Nat.prime_dvd_prime_iff_eq hp (by norm_num)] at h

theorem step16_returns : step16^[65535] 0x1337 = 0x1337 := by
  rw [show 65535 = 257 * 255 from rfl, iterate_step16_257_mul]
  decide +kernel

theorem minimalPeriod_step16_reset : minimalPeriod step16 0x1337 = 65535 := by
  refine minimalPeriod_eq_of_prime_quotients step16_returns fun p hp hdvd hper => ?_
  have hmul (k : Nat) (h : IsPeriodicPt step16 (257 * k) 0x1337) : jump257^[k] 0x1337 = 0x1337 :=
    (iterate_step16_257_mul k _).symm.trans h
  rcases eq_of_prime_dvd_65535 hp hdvd with rfl | rfl | rfl | rfl
  · exact absurd (hmul 85 hper) (by decide +kernel)
  · exact absurd (hmul 51 hper) (by decide +kernel)
  · exact absurd (hmul 15 hper) (by decide +kernel)
  · exact absurd hper.eq (by decide +kernel)

/-! ## Every nonzero state -/

theorem iterate_step16_ne_zero {s : U16} (hs : s ≠ 0) (n : Nat) : step16^[n] s ≠ 0 :=
  fun h => hs (step16_injective.iterate n (h.trans (iterate_step16_zero n).symm))

/-- The 65535 states on the orbit of 0x1337 are different and nonzero, and there are no more nonzero states. -/
theorem orbit_eq_nonzero :
    (Finset.range 65535).image (fun k => step16^[k] 0x1337) = (Finset.univ.erase 0 : Finset U16) := by
  apply Finset.eq_of_subset_of_card_le
  · intro s hs
    obtain ⟨k, -, rfl⟩ := Finset.mem_image.1 hs
    exact Finset.mem_erase.2 ⟨iterate_step16_ne_zero (by decide) k, Finset.mem_univ _⟩
  · have hinj : Set.InjOn (fun k => step16^[k] 0x1337) (Finset.range 65535 : Set Nat) := by
      rw [Finset.coe_range, ← minimalPeriod_step16_reset]
      exact iterate_injOn_Iio_minimalPeriod
    have hcard : Fintype.card U16 = 65536 := by
      rw [← FinEnum.card_eq_fintypeCard, FinEnum.card_bitVec]
      rfl
    rw [Finset.card_image_of_injOn hinj, Finset.card_range, Finset.card_erase_of_mem (Finset.mem_univ 0), Finset.card_univ,
      hcard]

theorem ne_zero_iff_on_orbit (s : U16) : s ≠ 0 ↔ ∃ k, k < 65535 ∧ step16^[k] 0x1337 = s := by
  have h : s ∈ (Finset.range 65535).image (fun k => step16^[k] 0x1337) ↔ s ∈ (Finset.univ.erase 0 : Finset U16) := by
    rw [orbit_eq_nonzero]
  simpa using h.symm

theorem minimalPeriod_step16 {s : U16} (hs : s ≠ 0) : minimalPeriod step16 s = 65535 := by
  obtain ⟨k, -, rfl⟩ := (ne_zero_iff_on_orbit s).1 hs
  rw [minimalPeriod_apply_iterate (mk_mem_periodicPts (by decide) step16_returns), minimalPeriod_step16_reset]

theorem iterate_step16_period (s : U16) : step16^[65535] s = s := by
  by_cases hs : s = 0
  · rw [hs, iterate_step16_zero]
  · rw [← minimalPeriod_step16 hs, iterate_minimalPeriod]

theorem iterate_step16_ne_self {s : U16} (hs : s ≠ 0) {k : Nat} (hpos : 0 < k) (hlt : k < 65535) : step16^[k] s ≠ s :=
  not_isPeriodicPt_of_pos_of_lt_minimalPeriod hpos.ne' (minimalPeriod_step16 hs ▸ hlt)

/-- Settles O28: 0x1337 has period 65535, so its orbit is every nonzero state, and each of them has the same period. -/
theorem maximalPeriod : Obligations.MaximalPeriod := by
  refine ⟨step16_returns, fun _ => iterate_step16_ne_self (by decide), ne_zero_iff_on_orbit,
    fun s hs => ⟨iterate_step16_period s, fun _ => iterate_step16_ne_self hs⟩, fun s => ?_⟩
  rw [exec_lfsrStep, iterate_step16_period]

/-- 0x266F is the predecessor of 0x1337, and the 65535th step from 0x1337 comes back to it. -/
theorem iterate_step16_65534 : step16^[65534] 0x1337 = 0x266F := by
  apply step16_injective
  rw [← iterate_succ_apply' step16]
  exact step16_returns.trans (by decide)

/-- Settles O27: `unstep16` is the stated inverse; the state after 65534 steps is one step short of the period. -/
theorem transitionInverse : Obligations.TransitionInverse :=
  ⟨step16_eq_iff, step16_eq_zero_iff, by decide, iterate_step16_65534⟩

end Sys2Proof.Machine
end

section
/-! PROOFS. DECRYPT (`42_decrypt.md` R131 to R136): its ending when every check passes and when one fails, the keystream byte
by byte, its inverse, and two runs against one over the joined source. -/

namespace Sys2Proof.Machine

/-! ## The keystream, byte by byte -/

/-- What DECRYPT of `n` bytes from LFSR_STATE `k` XORs into byte `i` (`42_decrypt.md` R132). -/
def keystreamByte (k : U16) (n i : Nat) : Byte :=
  if i % 2 = 1 then (step16^[i / 2 + 1] k).extractLsb' 8 8
  else if i + 1 < n then (step16^[i / 2 + 1] k).extractLsb' 0 8
  else (step16^[i / 2] k).extractLsb' 0 8

/-- The second byte of block `b` takes the high byte of the block's word ... -/
theorem keystreamByte_second (k : U16) (n b : Nat) :
    keystreamByte k n (2 * b + 1) = (step16^[b + 1] k).extractLsb' 8 8 := by
  rw [keystreamByte, if_pos (by omega), show (2 * b + 1) / 2 = b by omega]

/-- ... the first byte of a whole block the low byte of that word ... -/
theorem keystreamByte_first {n b : Nat} (k : U16) (h : 2 * b + 1 < n) :
    keystreamByte k n (2 * b) = (step16^[b + 1] k).extractLsb' 0 8 := by
  rw [keystreamByte, if_neg (by omega), if_pos h, show 2 * b / 2 = b by omega]

/-- ... and a dangling byte the low byte of the word before, with no step. -/
theorem keystreamByte_dangling {n b : Nat} (k : U16) (h : n ≤ 2 * b + 1) :
    keystreamByte k n (2 * b) = (step16^[b] k).extractLsb' 0 8 := by
  rw [keystreamByte, if_neg (by omega), if_neg (by omega), show 2 * b / 2 = b by omega]

/-- After whole blocks the keystream goes on as from the state they left. -/
theorem keystreamByte_add {n : Nat} (hn : n % 2 = 0) (k : U16) (m j : Nat) :
    keystreamByte k (n + m) (n + j) = keystreamByte (step16^[n / 2] k) m j := by
  have hsteps : ∀ c, step16^[c + n / 2] k = step16^[c] (step16^[n / 2] k) := fun c =>
    Function.iterate_add_apply step16 c (n / 2) k
  unfold keystreamByte
  rw [show (n + j) % 2 = j % 2 by omega, show (n + j) / 2 = j / 2 + n / 2 by omega,
    show j / 2 + n / 2 + 1 = j / 2 + 1 + n / 2 by omega, hsteps, hsteps]
  simp only [show n + j + 1 < n + m ↔ j + 1 < m by omega]

/-- More source after whole blocks changes nothing in them. -/
theorem keystreamByte_of_lt {n i : Nat} (hn : n % 2 = 0) (hi : i < n) (k : U16) (m : Nat) :
    keystreamByte k (n + m) i = keystreamByte k n i := by
  unfold keystreamByte
  split
  · rfl
  · rw [if_pos (by omega), if_pos (by omega)]

theorem Memory.getD_readBytes (m : Memory) (a : Nat) {n i : Nat} (h : i < n) : (m.readBytes a n).getD i 0 = m.read (a + i) := by
  have hi : i < (m.readBytes a n).length := by rwa [Memory.length_readBytes]
  rw [List.getD_eq_getElem _ _ hi, Memory.getElem_readBytes]

/-- Byte `i` of the keystream's output over a range of memory is byte `i` of the range XOR the keystream's. -/
theorem keystreamXor_readBytes (k : U16) (m : Memory) (a : Nat) {n i : Nat} (h : i < n) :
    (keystreamXor k (m.readBytes a n)).1.getD i 0 = m.read (a + i) ^^^ keystreamByte k n i := by
  have hi : i < (m.readBytes a n).length := by rwa [Memory.length_readBytes]
  rw [keystreamXor_byte k _ i hi, Memory.getD_readBytes m a h, Memory.length_readBytes]
  rfl

/-! ## A DECRYPT that passes every check -/

/-- The machine after a DECRYPT that raises nothing (`42_decrypt.md` R131, R132). -/
def decryptEnd (s : State) : State :=
  { s with
    mem := s.mem.writeBytes s.ops.dstAddr.toNat
      (keystreamXor s.lfsr (s.mem.readBytes s.ops.srcAddr.toNat s.ops.srcLen.toNat)).1
    lfsr := step16^[s.ops.srcLen.toNat / 2] s.lfsr, outLen := s.ops.srcLen
    pending := none, done := true, err := .none }

theorem exec_decrypt_of_not_raced {s : State} (h : s.raced = false) :
    exec .decrypt s = .next (s.finish decryptFault (decryptRun s)) := by
  simp only [exec, execDecrypt, h, Bool.false_eq_true, if_false]

theorem decryptRun_of_ready {s : State} (hready : SrcDstReady s) (hcap : s.ops.srcLen.toNat ≤ s.ops.dstCap.toNat) :
    decryptRun s = .ok { s with
      mem := (decryptEnd s).mem, lfsr := (decryptEnd s).lfsr, outLen := s.ops.srcLen } := by
  rw [decryptRun, (operandChecks_srcDst (.inl rfl) s).2 hready]
  dsimp only
  rw [if_neg (show ¬s.dst.len < s.src.len from Nat.not_lt.2 hcap), keystreamXor_state, Memory.length_readBytes]
  rfl

theorem exec_decrypt_of_ready {s : State} (h : DecryptReady s) : exec .decrypt s = .next (decryptEnd s) := by
  obtain ⟨hraced, hready, hcap⟩ := h
  rw [exec_decrypt_of_not_raced hraced, decryptRun_of_ready hready hcap, State.finish_ok, State.complete_of_not_raced]
  · rfl
  · exact hraced

theorem eq_decryptEnd {s t : State} (h : DecryptReady s) (ht : exec .decrypt s = .next t) : t = decryptEnd s := by
  rw [exec_decrypt_of_ready h] at ht
  exact (Host.Outcome.next.inj ht).symm

/-- Byte `i` of the output is byte `i` of the source XOR the keystream's. -/
theorem byteOf_decryptEnd (s : State) {i : Nat} (hi : i < s.ops.srcLen.toNat) :
    byteOf (decryptEnd s) s.ops.dstAddr i =
      byteOf s s.ops.srcAddr i ^^^ keystreamByte s.lfsr s.ops.srcLen.toNat i := by
  rw [byteOf, decryptEnd, Memory.read_writeBytes, length_keystreamXor, Memory.length_readBytes, if_pos (by omega),
    Nat.add_sub_cancel_left, keystreamXor_readBytes _ _ _ hi]
  rfl

theorem read_decryptEnd_outside (s : State) {a : Nat} (h : ¬InRange s.ops.dstAddr s.ops.srcLen a) :
    (decryptEnd s).mem.read a = s.mem.read a := by
  refine Memory.read_writeBytes_outside _ ?_
  rw [length_keystreamXor, Memory.length_readBytes]
  exact h

/-- Settles O32: the ending is `decryptEnd`. -/
theorem decryptResult : Obligations.DecryptResult :=
  fun s hraced hready hcap => ⟨decryptEnd s, exec_decrypt_of_ready ⟨hraced, hready, hcap⟩, rfl,
    fun _ hi => byteOf_decryptEnd s hi, fun _ ha => read_decryptEnd_outside s ha⟩

/-! ## A DECRYPT that fails a check -/

/-- OVERLAP is what remains when both ranges are in range and the checks do not pass (`60_exceptions.md` R218). -/
theorem operandChecks_srcDst_overlap {i : Instr} (hi : i = .decrypt ∨ i = .decompress) {s : State}
    (hsrc : InMemory s s.ops.srcAddr s.ops.srcLen) (hdst : InMemory s s.ops.dstAddr s.ops.dstCap)
    (hover : Overlap s.ops.dstAddr s.ops.dstCap s.ops.srcAddr s.ops.srcLen) : operandChecks i s = some .overlap := by
  cases hc : operandChecks i s with
  | none =>
    obtain ⟨-, -, hnot⟩ := (operandChecks_srcDst hi s).1 hc
    exact absurd hover hnot
  | some e =>
    obtain rfl | rfl := rangeChecks_code hc
    · exact absurd ⟨hsrc, hdst⟩ ((operandChecks_srcDst_range hi s).1 hc)
    · rfl

theorem decryptRun_of_check {s : State} {e : ErrCode} (h : operandChecks .decrypt s = some e) :
    decryptRun s = .error e := by
  rw [decryptRun, h]

theorem decryptRun_of_short {s : State} (hready : SrcDstReady s) (hcap : ¬s.ops.srcLen.toNat ≤ s.ops.dstCap.toNat) :
    decryptRun s = .error .capacity := by
  rw [decryptRun, (operandChecks_srcDst (.inl rfl) s).2 hready]
  exact if_pos (Nat.lt_of_not_le hcap)

/-- A code raised by DECRYPT is recorded, and OUT_LEN alone takes a free value (`60_exceptions.md` R220). -/
theorem exec_decrypt_of_error {s : State} {e : ErrCode} (hraced : s.raced = false) (h : decryptRun s = .error e) :
    exec .decrypt s = .next { s with
      outLen := Config.freeU64 s.draws .outLen, draws := s.draws + 1, pending := none, done := true, err := e } := by
  rw [exec_decrypt_of_not_raced hraced, h, State.finish_error, State.complete_of_not_raced]
  · rfl
  · exact hraced

/-- Settles O33: ranges ready, only the capacity can have failed; else the range checks answer, and their code is the one
R218 names. -/
theorem decryptFaults : Obligations.DecryptFaults := by
  intro s hraced hfails
  by_cases hready : SrcDstReady s
  · have hrun := decryptRun_of_short hready fun hcap => hfails ⟨hready, hcap⟩
    obtain ⟨hsrc, hdst, hdisjoint⟩ := hready
    exact ⟨_, _, _, exec_decrypt_of_error hraced hrun, absurd ⟨hsrc, hdst⟩, fun _ _ h => absurd h hdisjoint, fun _ => rfl⟩
  · obtain ⟨e, he⟩ := Option.ne_none_iff_exists'.1 (hready ∘ (operandChecks_srcDst (.inl rfl) s).1)
    refine ⟨_, _, e, exec_decrypt_of_error hraced (decryptRun_of_check he), fun hrange => ?_, fun hsrc hdst hover => ?_,
      fun h => absurd h hready⟩
    · exact Option.some.inj (he.symm.trans ((operandChecks_srcDst_range (.inl rfl) s).2 hrange))
    · exact Option.some.inj (he.symm.trans (operandChecks_srcDst_overlap (.inl rfl) hsrc hdst hover))

/-! ## DECRYPT of DECRYPT's output -/

/-- Settles O34: both runs XOR the same keystream byte, which cancels. -/
theorem decryptTwiceRestores : Obligations.DecryptTwiceRestores := by
  intro s s₁ q hraced hready hcap hs₁ haddr hlen hcap' hready'
  obtain rfl := eq_decryptEnd ⟨hraced, hready, hcap⟩ hs₁
  refine ⟨_, exec_decrypt_of_ready ⟨hraced, hready', hcap'⟩, rfl, hlen, fun i hi => ?_⟩
  have hlen' : q.srcLen = s.ops.srcLen := hlen
  calc byteOf (decryptEnd { decryptEnd s with ops := q, lfsr := s.lfsr }) q.dstAddr i
      = byteOf (decryptEnd s) q.srcAddr i ^^^ keystreamByte s.lfsr q.srcLen.toNat i :=
        byteOf_decryptEnd { decryptEnd s with ops := q, lfsr := s.lfsr } (hlen' ▸ hi)
    _ = byteOf s s.ops.srcAddr i := by
        rw [haddr, hlen', byteOf_decryptEnd s hi, BitVec.xor_assoc, BitVec.xor_self, BitVec.xor_zero]

/-! ## DECRYPT of P, then of Q, against DECRYPT of P ++ Q -/

/-- `s` holds P, `v` holds Q and starts from the LFSR_STATE that DECRYPT of P leaves, and `u` holds P ++ Q and starts where `s`
does (`42_decrypt.md` R136). -/
structure DecryptChain (s v u : State) : Prop where
  handedOn : v.lfsr = step16^[s.ops.srcLen.toNat / 2] s.lfsr
  sameStart : u.lfsr = s.lfsr
  length : u.ops.srcLen.toNat = s.ops.srcLen.toNat + v.ops.srcLen.toNat
  firstBytes : ∀ i, i < s.ops.srcLen.toNat → byteOf u u.ops.srcAddr i = byteOf s s.ops.srcAddr i
  secondBytes : ∀ j, j < v.ops.srcLen.toNat →
    byteOf u u.ops.srcAddr (s.ops.srcLen.toNat + j) = byteOf v v.ops.srcAddr j

namespace DecryptChain

variable {s v u : State}

/-- A byte of P in the output for P ++ Q ... -/
theorem byte_first (h : DecryptChain s v u) {i : Nat} (hi : i < s.ops.srcLen.toNat) :
    byteOf (decryptEnd u) u.ops.dstAddr i = byteOf s s.ops.srcAddr i ^^^
      keystreamByte s.lfsr (s.ops.srcLen.toNat + v.ops.srcLen.toNat) i := by
  have hlen := h.length
  rw [byteOf_decryptEnd u (by omega), h.firstBytes i hi, h.sameStart, hlen]

/-- ... and a byte of Q. -/
theorem byte_second (h : DecryptChain s v u) {j : Nat} (hj : j < v.ops.srcLen.toNat) :
    byteOf (decryptEnd u) u.ops.dstAddr (s.ops.srcLen.toNat + j) = byteOf v v.ops.srcAddr j ^^^
      keystreamByte s.lfsr (s.ops.srcLen.toNat + v.ops.srcLen.toNat) (s.ops.srcLen.toNat + j) := by
  have hlen := h.length
  rw [byteOf_decryptEnd u (by omega), h.secondBytes j hj, h.sameStart, hlen]

/-- P of whole blocks: the two runs write the bytes of the one ... -/
theorem outputs_agree (h : DecryptChain s v u) (heven : s.ops.srcLen.toNat % 2 = 0) :
    (∀ i, i < s.ops.srcLen.toNat →
      byteOf (decryptEnd u) u.ops.dstAddr i = byteOf (decryptEnd s) s.ops.dstAddr i) ∧
    (∀ j, j < v.ops.srcLen.toNat → byteOf (decryptEnd u) u.ops.dstAddr (s.ops.srcLen.toNat + j) =
      byteOf (decryptEnd v) v.ops.dstAddr j) := by
  refine ⟨fun i hi => ?_, fun j hj => ?_⟩
  · rw [h.byte_first hi, byteOf_decryptEnd s hi, keystreamByte_of_lt heven hi]
  · rw [h.byte_second hj, byteOf_decryptEnd v hj, keystreamByte_add heven, h.handedOn]

/-- ... and leave its LFSR_STATE. -/
theorem states_agree (h : DecryptChain s v u) (heven : s.ops.srcLen.toNat % 2 = 0) :
    (decryptEnd u).lfsr = (decryptEnd v).lfsr := by
  have hsteps : u.ops.srcLen.toNat / 2 = v.ops.srcLen.toNat / 2 + s.ops.srcLen.toNat / 2 := by
    have hlen := h.length
    omega
  rw [decryptEnd, decryptEnd, h.handedOn, ← Function.iterate_add_apply, ← hsteps, h.sameStart]

/-- The first byte of Q on its own: dangling when Q is that byte alone. -/
theorem first_byte_of_second (h : DecryptChain s v u) (hv : 0 < v.ops.srcLen.toNat) :
    byteOf (decryptEnd v) v.ops.dstAddr 0 = byteOf v v.ops.srcAddr 0 ^^^
      (step16^[if v.ops.srcLen.toNat = 1 then s.ops.srcLen.toNat / 2 else s.ops.srcLen.toNat / 2 + 1]
        s.lfsr).extractLsb' 0 8 := by
  rw [byteOf_decryptEnd v hv, h.handedOn]
  split
  next hone => rw [keystreamByte_dangling (b := 0) _ (by omega), Function.iterate_zero_apply]
  next hmore =>
    rw [keystreamByte_first (b := 0) _ (by omega), ← Function.iterate_add_apply, Nat.zero_add, Nat.add_comm 1]

end DecryptChain

/-- Settles O35: P of whole blocks by `outputs_agree` and `states_agree`; else P's last byte, at `2 * k`, dangles alone and is
the first of a whole block in P ++ Q, whose second byte is the first of Q. -/
theorem keystreamContinues : Obligations.KeystreamContinues := by
  intro s v u s' v' u' hs hv hu hs' hvlfsr hv' hulfsr hlen hfirst hsecond hu'
  obtain rfl := eq_decryptEnd hs hs'
  obtain rfl := eq_decryptEnd hv hv'
  obtain rfl := eq_decryptEnd hu hu'
  have chain : DecryptChain s v u := ⟨hvlfsr, hulfsr, hlen, hfirst, hsecond⟩
  refine ⟨fun heven => ?_, fun hodd hpos => ?_⟩
  · obtain ⟨hP, hQ⟩ := chain.outputs_agree heven
    exact ⟨hP, hQ, chain.states_agree heven, hlen⟩
  · intro k
    have hk : s.ops.srcLen.toNat = 2 * k + 1 := by omega
    refine ⟨?_, ?_, chain.first_byte_of_second hpos, ?_⟩
    · rw [byteOf_decryptEnd s (by omega), keystreamByte_dangling _ hk.le]
    · rw [chain.byte_first (by omega), keystreamByte_first _ (by omega)]
    · have hbyte := chain.byte_second hpos
      rwa [Nat.add_zero, hk, keystreamByte_second] at hbyte

end Sys2Proof.Machine
end

section
/-! PROOFS. DECOMPRESS (`43_decompress.md` R145 to R153): its ending when the output fits, when it does not, and when a range
check fails; a stream of literals. -/

namespace Sys2Proof.Machine

/-! ## The output -/

/-- The source bytes, one by one as the statements name them. -/
def sourceBytes (s : State) : List Byte := (List.range s.ops.srcLen.toNat).map (byteOf s s.ops.srcAddr)

/-- The token table's output for the source (R146). -/
def decompressOutput (s : State) : List Byte := expandTokens s.dict (sourceBytes s)

theorem readBytes_src (s : State) : s.mem.readBytes s.src.base s.src.len = sourceBytes s := rfl

theorem length_decompressOutput (s : State) : (decompressOutput s).length = tokenSum (sourceBytes s) :=
  length_expandTokens _ _

/-- Without an escape marker every byte is a literal token (R147, R152). -/
theorem expandTokens_of_literals {d : Vector Byte 16} {bs : List Byte} (h : ∀ b ∈ bs, b ≠ escapeMarker) :
    expandTokens d bs = bs := by
  fun_induction expandTokens d bs with
  | case1 => rfl
  | case2 c => rfl
  | case3 c x rest hc ih => rw [ih fun b hb => h b (List.mem_cons_of_mem c hb)]
  | case4 c rest hc | case5 c x rest hc => exact absurd (h c List.mem_cons_self) hc

/-! ## The token loop on ready ranges -/

theorem exec_decompress_of_not_raced {s : State} (h : s.raced = false) :
    exec .decompress s = .next (s.finish decompressFault (decompressRun s)) := by
  simp only [exec, execDecompress, h, Bool.false_eq_true, if_false]

/-- The token loop over the source: the whole output where it fits, CAPACITY where it does not (R150). -/
theorem expandInto_sourceBytes (s : State) : expandInto s.dict s.dst.len (sourceBytes s) [] =
    if (decompressOutput s).length ≤ s.ops.dstCap.toNat then .ok (decompressOutput s) else .error .capacity := by
  have h := expandInto_eq s.dict s.dst.len (sourceBytes s) [] (Nat.zero_le _)
  rwa [List.length_nil, Nat.zero_add] at h

/-- On ready ranges the token loop decides. -/
theorem decompressRun_of_ready {s : State} (hready : SrcDstReady s) :
    decompressRun s = if (decompressOutput s).length ≤ s.ops.dstCap.toNat then
        .ok { s with
          mem := s.mem.writeBytes s.ops.dstAddr.toNat (decompressOutput s)
          outLen := BitVec.ofNat 64 (decompressOutput s).length }
      else .error .capacity := by
  rw [decompressRun, (operandChecks_srcDst (.inr rfl) s).2 hready]
  dsimp only
  rw [readBytes_src, expandInto_sourceBytes]
  split_ifs <;> rfl

/-! ## A DECOMPRESS whose output fits -/

/-- The machine after a DECOMPRESS that raises nothing (R147, R148). -/
def decompressEnd (s : State) : State :=
  { s with
    mem := s.mem.writeBytes s.ops.dstAddr.toNat (decompressOutput s)
    outLen := BitVec.ofNat 64 (decompressOutput s).length
    pending := none, done := true, err := .none }

section Fits

variable {s : State} (hfits : (decompressOutput s).length ≤ s.ops.dstCap.toNat)
include hfits

theorem exec_decompress_of_fits (hraced : s.raced = false) (hready : SrcDstReady s) :
    exec .decompress s = .next (decompressEnd s) := by
  rw [exec_decompress_of_not_raced hraced, decompressRun_of_ready hready, if_pos hfits, State.finish_ok,
    State.complete_of_not_raced]
  · rfl
  · exact hraced

theorem decompressEnd_outLen_toNat : (decompressEnd s).outLen.toNat = (decompressOutput s).length :=
  toNat_ofNat_of_le_dstCap hfits

theorem read_decompressEnd_outside {a : Nat} (ha : ¬InRange s.ops.dstAddr (decompressEnd s).outLen a) :
    (decompressEnd s).mem.read a = s.mem.read a := by
  refine Memory.read_writeBytes_outside _ ?_
  rwa [InRange, decompressEnd_outLen_toNat hfits] at ha

end Fits

theorem byteOf_decompressEnd (s : State) {i : Nat} (hi : i < (decompressOutput s).length) :
    byteOf (decompressEnd s) s.ops.dstAddr i = (decompressOutput s)[i] := by
  rw [byteOf, decompressEnd, Memory.read_writeBytes, if_pos (by omega), Nat.add_sub_cancel_left,
    List.getD_eq_getElem _ _ hi]

/-- Settles O36: the ending is `decompressEnd`. -/
theorem decompressResult : Obligations.DecompressResult := by
  rintro s out hraced hready rfl hfits
  exact ⟨decompressEnd s, exec_decompress_of_fits hfits hraced hready, rfl, decompressEnd_outLen_toNat hfits,
    fun _ hi => byteOf_decompressEnd s hi, fun _ ha => read_decompressEnd_outside hfits ha⟩

/-! ## A DECOMPRESS that raises a code -/

/-- The mid-stream CAPACITY loses the destination and OUT_LEN (`60_exceptions.md` R220). -/
theorem exec_decompress_of_not_fits {s : State} (hraced : s.raced = false) (hready : SrcDstReady s)
    (hcap : s.ops.dstCap.toNat < (decompressOutput s).length) :
    exec .decompress s = .next ((loseDestination s).drawn.complete .capacity) := by
  rw [exec_decompress_of_not_raced hraced, decompressRun_of_ready hready, if_neg (Nat.not_le.2 hcap), State.finish_error]
  rfl

theorem read_loseDestination_outside {s : State} {a : Nat} (ha : ¬InRange s.ops.dstAddr s.ops.dstCap a) :
    (loseDestination s).mem.read a = s.mem.read a :=
  Memory.read_scramble_outside _ _ _ (dst_holds_eq_false ha)

/-- Before any write OUT_LEN alone takes a free value (`60_exceptions.md` R220). -/
theorem decompressFault_of_ne_capacity {e : ErrCode} (h : e ≠ .capacity) (s : State) :
    decompressFault e s = s.loseOutLen := by
  cases e with
  | capacity => exact absurd rfl h
  | none | illegal | range | overlap | lane => rfl

/-- A failed range check is recorded with its code. -/
theorem exec_decompress_of_check {s : State} {e : ErrCode} (hraced : s.raced = false)
    (h : operandChecks .decompress s = some e) :
    exec .decompress s = .next { s with
      outLen := Config.freeU64 s.draws .outLen, draws := s.draws + 1, pending := none, done := true, err := e } := by
  have hrun : decompressRun s = .error e := by rw [decompressRun, h]
  have hcode : e ≠ .capacity := by obtain rfl | rfl := rangeChecks_code h <;> decide
  rw [exec_decompress_of_not_raced hraced, hrun, State.finish_error, decompressFault_of_ne_capacity hcode,
    State.complete_of_not_raced]
  · rfl
  · exact hraced

/-- Settles O37: the ending is `decompressEnd` or the mid-stream CAPACITY, as the sum over the tokens fits or not. -/
theorem decompressCapacityIsExact : Obligations.DecompressCapacityIsExact := by
  intro s hraced hready
  rw [← sourceBytes, ← length_decompressOutput]
  by_cases hfits : (decompressOutput s).length ≤ s.ops.dstCap.toNat
  · exact ⟨decompressEnd s, exec_decompress_of_fits hfits hraced hready,
      iff_of_false (by simp [decompressEnd]) (Nat.not_lt.2 hfits), iff_of_true rfl hfits,
      fun _ => decompressEnd_outLen_toNat hfits⟩
  · exact ⟨_, exec_decompress_of_not_fits hraced hready (Nat.lt_of_not_le hfits),
      iff_of_true rfl (Nat.lt_of_not_le hfits), iff_of_false (by simp) hfits, fun h => by simp at h⟩

/-- Settles O38: ranges not ready, a range check answers, with the code R218 names; else the output does not fit. -/
theorem decompressFaults : Obligations.DecompressFaults := by
  intro s hraced
  refine ⟨fun hready => ?_, fun hready hcap => ?_⟩
  · obtain ⟨e, he⟩ := Option.ne_none_iff_exists'.1 (hready ∘ (operandChecks_srcDst (.inr rfl) s).1)
    refine ⟨_, _, e, exec_decompress_of_check hraced he, fun hrange => ?_, fun hsrc hdst => ?_⟩
    · exact Option.some.inj (he.symm.trans ((operandChecks_srcDst_range (.inr rfl) s).2 hrange))
    · have hover : Overlap s.ops.dstAddr s.ops.dstCap s.ops.srcAddr s.ops.srcLen :=
        not_not.1 fun h => hready ⟨hsrc, hdst, h⟩
      exact Option.some.inj (he.symm.trans (operandChecks_srcDst_overlap (.inr rfl) hsrc hdst hover))
  · refine ⟨_, exec_decompress_of_not_fits hraced hready hcap, ?_, fun _ => read_loseDestination_outside⟩
    rw [State.complete_of_not_raced]
    · rfl
    · exact hraced

/-! ## A stream of literals -/

theorem decompressOutput_of_literals {s : State} (h : ∀ i, i < s.ops.srcLen.toNat → byteOf s s.ops.srcAddr i ≠ 0x07) :
    decompressOutput s = sourceBytes s := by
  refine expandTokens_of_literals fun b hb => ?_
  obtain ⟨i, hi, rfl⟩ := List.mem_map.1 hb
  exact h i (List.mem_range.1 hi)

theorem length_sourceBytes (s : State) : (sourceBytes s).length = s.ops.srcLen.toNat := by
  rw [sourceBytes, List.length_map, List.length_range]

/-- Settles O39: the output of `decompressEnd` is the source. -/
theorem literalsPassThrough : Obligations.LiteralsPassThrough := by
  intro s hraced hready hliteral hcap
  have hout := decompressOutput_of_literals hliteral
  have hlen : (decompressOutput s).length = s.ops.srcLen.toNat := by rw [hout, length_sourceBytes]
  have hfits := hlen.trans_le hcap
  refine ⟨decompressEnd s, exec_decompress_of_fits hfits hraced hready, rfl, ?_, fun i hi => ?_⟩
  · exact BitVec.eq_of_toNat_eq ((decompressEnd_outLen_toNat hfits).trans hlen)
  · rw [byteOf_decompressEnd s (hlen ▸ hi)]
    simp [hout, sourceBytes]

end Sys2Proof.Machine
end

section
/-! PROOFS. FLOAT2 and FLOAT3 (`44_float.md` R165 to R180): the checks of both in R218's order, the word of a float, and the
two commands when every check passes and when one fails. -/

namespace Sys2Proof.Machine

/-! ## The range checks of a command -/

/-- Every range of the command's row of R84 is in range (`60_exceptions.md` R218, item 2). -/
def RangesInMemory (i : Instr) (s : State) : Prop :=
  ∀ r ∈ sourceRanges i s ++ (destRange i s).toList, r.within s.memSize = true

/-- The destination overlaps a source (`60_exceptions.md` R218, item 3). -/
def RangesClash (i : Instr) (s : State) : Prop := ∃ d ∈ destRange i s, ∃ r ∈ sourceRanges i s, d.overlaps r = true

section Ranges

variable {i : Instr} {s : State}

theorem operandChecks_eq_none_iff : operandChecks i s = none ↔ RangesInMemory i s ∧ ¬RangesClash i s := by
  rw [operandChecks, rangeChecks_eq_none, RangesInMemory, RangesClash]
  simp only [not_exists, not_and, Bool.not_eq_true]

theorem operandChecks_of_not_inMemory (h : ¬RangesInMemory i s) : operandChecks i s = some .range := by
  simp only [RangesInMemory, not_forall, Bool.not_eq_true, exists_prop] at h
  exact rangeChecks_eq_range.2 h

/-- OVERLAP is what remains when the ranges are in range and the checks do not pass. -/
theorem operandChecks_of_clash (hmem : RangesInMemory i s) (hclash : RangesClash i s) :
    operandChecks i s = some .overlap := by
  cases hc : operandChecks i s with
  | none => exact absurd hclash (operandChecks_eq_none_iff.1 hc).2
  | some e =>
    obtain rfl | rfl := rangeChecks_code hc
    · obtain ⟨r, hr, hout⟩ := rangeChecks_eq_range.1 hc
      exact absurd (hmem r hr) (Bool.eq_false_iff.1 hout)
    · rfl

end Ranges

theorem rangesInMemory_float2 (s : State) : RangesInMemory .float2 s ↔
    InMemory s s.ops.srcAddr s.ops.srcLen ∧ InMemory s s.ops.src2Addr s.ops.src2Len ∧
      InMemory s s.ops.dstAddr s.ops.dstCap := by
  simp [RangesInMemory, sourceRanges, destRange, State.src, State.src2, State.dst, inMemory_iff]

theorem rangesClash_float2 (s : State) : RangesClash .float2 s ↔
    Overlap s.ops.dstAddr s.ops.dstCap s.ops.srcAddr s.ops.srcLen ∨
      Overlap s.ops.dstAddr s.ops.dstCap s.ops.src2Addr s.ops.src2Len := by
  simp [RangesClash, sourceRanges, destRange, State.src, State.src2, State.dst, overlap_iff]

theorem rangesInMemory_float3 (s : State) : RangesInMemory .float3 s ↔
    InMemory s s.ops.srcAddr s.ops.srcLen ∧ InMemory s s.ops.src2Addr s.ops.src2Len ∧
      InMemory s s.ops.src3Addr s.ops.src3Len ∧ InMemory s s.ops.dstAddr s.ops.dstCap := by
  simp [RangesInMemory, sourceRanges, destRange, State.src, State.src2, State.src3, State.dst, inMemory_iff]

theorem rangesClash_float3 (s : State) : RangesClash .float3 s ↔
    Overlap s.ops.dstAddr s.ops.dstCap s.ops.srcAddr s.ops.srcLen ∨
      Overlap s.ops.dstAddr s.ops.dstCap s.ops.src2Addr s.ops.src2Len ∨
      Overlap s.ops.dstAddr s.ops.dstCap s.ops.src3Addr s.ops.src3Len := by
  simp [RangesClash, sourceRanges, destRange, State.src, State.src2, State.src3, State.dst, overlap_iff]

/-! ## The common pseudocode -/

/-- What the pseudocode of FLOAT2 and FLOAT3 has in common (R168, R176): the range checks, the lengths of the lanes, the
capacity, then the words. -/
def floatRun (i : Instr) (s : State) (lanes : Prop) [Decidable lanes] (word : Nat → List Byte) : Except ErrCode State :=
  match operandChecks i s with
  | some e => .error e
  | none =>
    if lanes then
      if 4 * (s.src.len / 3) ≤ s.dst.len then .ok (writeFloats s (s.src.len / 3) word) else .error .capacity
    else .error .lane

theorem float2Run_eq (s : State) : float2Run s =
    floatRun .float2 s (s.src.len % 3 = 0 ∧ s.src2.len = s.src.len / 3) (float2Word s.mem s.src.base s.src2.base) := by
  unfold float2Run floatRun
  cases operandChecks .float2 s with
  | some e => rfl
  | none => simp only [ne_eq, ite_not, ite_and, ← not_le]

theorem float3Run_eq (s : State) : float3Run s =
    floatRun .float3 s
      (s.src.len % 3 = 0 ∧ s.src2.len = s.src.len / 3 ∧ s.src3.len = signLen s.params.signPack (s.src.len / 3))
      (float3Word s.params.signPack s.mem s.src.base s.src2.base s.src3.base) := by
  unfold float3Run floatRun
  cases operandChecks .float3 s with
  | some e => rfl
  | none => simp only [ne_eq, ite_not, ite_and, ← not_le]

/-- `e` is the code of the first check that fails, in the order of `60_exceptions.md` R218. -/
def NamesFirstFailure (inMem clash lanes : Prop) (e : ErrCode) : Prop :=
  (¬inMem → e = .range) ∧ (inMem → clash → e = .overlap) ∧ (inMem → ¬clash → ¬lanes → e = .lane) ∧
    (inMem → ¬clash → lanes → e = .capacity)

section Checks

variable {i : Instr} {s : State} {lanes : Prop} [Decidable lanes] {word : Nat → List Byte}

theorem floatRun_of_check {e : ErrCode} (h : operandChecks i s = some e) : floatRun i s lanes word = .error e := by
  rw [floatRun, h]

theorem floatRun_of_ready (hmem : RangesInMemory i s) (hclash : ¬RangesClash i s) : floatRun i s lanes word =
    if lanes then
      if 4 * (s.src.len / 3) ≤ s.dst.len then .ok (writeFloats s (s.src.len / 3) word) else .error .capacity
    else .error .lane := by
  rw [floatRun, operandChecks_eq_none_iff.2 ⟨hmem, hclash⟩]

/-- When some check fails, the pseudocode raises the code of the first that does. -/
theorem floatRun_error {inMem clash : Prop} (hmem : RangesInMemory i s ↔ inMem) (hclash : RangesClash i s ↔ clash)
    (hfails : ¬(inMem ∧ ¬clash ∧ lanes ∧ 4 * (s.src.len / 3) ≤ s.dst.len)) :
    ∃ e, floatRun i s lanes word = .error e ∧ NamesFirstFailure inMem clash lanes e := by
  by_cases hm : inMem
  · by_cases hc : clash
    · have hrun := floatRun_of_check (lanes := lanes) (word := word) (operandChecks_of_clash (hmem.2 hm) (hclash.2 hc))
      exact ⟨_, hrun, by simp [NamesFirstFailure, hm, hc]⟩
    · have hrun := floatRun_of_ready (lanes := lanes) (word := word) (hmem.2 hm) (hc ∘ hclash.1)
      by_cases hl : lanes
      · rw [if_pos hl, if_neg fun hfits => hfails ⟨hm, hc, hl, hfits⟩] at hrun
        exact ⟨_, hrun, by simp [NamesFirstFailure, hm, hc, hl]⟩
      · rw [if_neg hl] at hrun
        exact ⟨_, hrun, by simp [NamesFirstFailure, hm, hc, hl]⟩
  · exact ⟨_, floatRun_of_check (operandChecks_of_not_inMemory (hm ∘ hmem.1)), by simp [NamesFirstFailure, hm]⟩

theorem floatRun_ok {n : Nat} (hmem : RangesInMemory i s) (hclash : ¬RangesClash i s) (hlanes : lanes)
    (hn : s.src.len / 3 = n) (hfits : 4 * n ≤ s.dst.len) : floatRun i s lanes word = .ok (writeFloats s n word) := by
  subst hn
  rw [floatRun_of_ready hmem hclash, if_pos hlanes, if_pos hfits]

end Checks

/-! ## How the commands end -/

theorem exec_float2_of_not_raced {s : State} (h : s.raced = false) :
    exec .float2 s = .next (s.finish floatFault (float2Run s)) := by
  simp only [exec, execFloat2, h, Bool.false_eq_true, if_false]

theorem exec_float3_of_not_raced {s : State} (h : s.raced = false) :
    exec .float3 s = .next (s.finish floatFault (float3Run s)) := by
  simp only [exec, execFloat3, h, Bool.false_eq_true, if_false]

/-- A raised code is recorded, and OUT_LEN alone takes a free value (`60_exceptions.md` R220). -/
theorem finish_floatFault_error {s : State} (hraced : s.raced = false) (e : ErrCode) :
    s.finish floatFault (.error e) = { s with
      outLen := Config.freeU64 s.draws .outLen, draws := s.draws + 1, pending := none, done := true, err := e } := by
  rw [State.finish_error, State.complete_of_not_raced]
  · rfl
  · exact hraced

/-- The machine after `n` floats were written and nothing was raised (R172, R177). -/
def floatEnd (s : State) (n : Nat) (word : Nat → List Byte) : State :=
  { writeFloats s n word with pending := none, done := true, err := .none }

theorem finish_floatFault_ok {s : State} (hraced : s.raced = false) (n : Nat) (word : Nat → List Byte) :
    s.finish floatFault (.ok (writeFloats s n word)) = floatEnd s n word := by
  rw [State.finish_ok, State.complete_of_not_raced]
  · rfl
  · exact hraced

/-- Settles O41: the first failing check is the one `floatRun_error` names. -/
theorem float2Faults : Obligations.Float2Faults := by
  intro s hraced inMem clash lanes fits hfails
  obtain ⟨e, hrun, hcode⟩ := floatRun_error (word := float2Word s.mem s.src.base s.src2.base)
    (rangesInMemory_float2 s) (rangesClash_float2 s) hfails
  refine ⟨Config.freeU64 s.draws .outLen, s.draws + 1, e, ?_, hcode⟩
  rw [exec_float2_of_not_raced hraced, float2Run_eq]
  exact congrArg _ ((congrArg _ hrun).trans (finish_floatFault_error hraced e))

/-- Settles O43: as for FLOAT2, with the sign lane's length among the lanes'. -/
theorem float3Faults : Obligations.Float3Faults := by
  intro s hraced n inMem clash lanes fits hfails
  obtain ⟨e, hrun, hcode⟩ := floatRun_error (word := float3Word s.params.signPack s.mem s.src.base s.src2.base s.src3.base)
    (rangesInMemory_float3 s) (rangesClash_float3 s) hfails
  refine ⟨Config.freeU64 s.draws .outLen, s.draws + 1, e, ?_, hcode⟩
  rw [exec_float3_of_not_raced hraced, float3Run_eq]
  exact congrArg _ ((congrArg _ hrun).trans (finish_floatFault_error hraced e))

/-! ## The word of a float -/

/-- The exponent's upper seven bits below the sign: the top byte of the word. -/
theorem signByte_or_shiftRight (e : Byte) (sign : BitVec 1) :
    (e >>> 1) ||| (sign ++ (0 : BitVec 7)) = (sign ++ e.extractLsb' 1 7 : BitVec (1 + 7)) := by
  apply BitVec.eq_of_getLsbD_eq
  intro j hj
  simp only [BitVec.getLsbD_or, BitVec.getLsbD_append, BitVec.getLsbD_ushiftRight, BitVec.getLsbD_extractLsb']
  split_ifs with h
  · simp [h]
  · rw [BitVec.getLsbD_of_ge e (1 + j) (by omega), Bool.false_or]

/-- The fraction's upper seven bits below the exponent's lowest: the byte under the top one. -/
theorem lowBits_or_shiftLeft (f e : Byte) : (f &&& (0x7F : Byte)) ||| ((e &&& (0x01 : Byte)) <<< 7) =
    (e.extractLsb' 0 1 ++ f.extractLsb' 0 7 : BitVec (1 + 7)) := by
  have hmask : ∀ j < 8, (0x7F : Byte).getLsbD j = decide (j < 7) := by decide
  apply BitVec.eq_of_getLsbD_eq
  intro j hj
  simp only [BitVec.getLsbD_append, BitVec.getLsbD_or, BitVec.getLsbD_and, hmask j hj, BitVec.getLsbD_shiftLeft]
  split_ifs with h
  · simp [h]
  · obtain rfl : j = 7 := by omega
    simp

theorem and_signMask (a : Byte) : a &&& 0x80 = (a.extractLsb' 7 1 ++ (0 : BitVec 7) : BitVec (1 + 7)) := by
  have hmask : ∀ j < 8, (0x80 : Byte).getLsbD j = decide (j = 7) := by decide
  apply BitVec.eq_of_getLsbD_eq
  intro j hj
  simp only [BitVec.getLsbD_append, BitVec.getLsbD_and, hmask j hj]
  split_ifs with h
  · simp [h.ne]
  · obtain rfl : j = 7 := by omega
    simp

/-- The exponent is whole again across the two bytes it is split over. -/
theorem append_split_exponent (sign : BitVec 1) (e : Byte) (f : BitVec 7) :
    (sign ++ e.extractLsb' 1 7) ++ (e.extractLsb' 0 1 ++ f) = sign ++ e ++ f := by
  apply BitVec.eq_of_getLsbD_eq
  intro j hj
  simp only [BitVec.getLsbD_append, BitVec.getLsbD_extractLsb', Nat.sub_sub]
  grind

/-- The little-endian word of four bytes. -/
def littleEndianWord (b : Nat → Byte) : BitVec 32 := b 3 ++ b 2 ++ b 1 ++ b 0

/-- R168, R176: the word is {sign, exponent, fraction}. -/
theorem littleEndianWord_floatBytes (f0 f1 f2 e : Byte) (sign : BitVec 1) :
    littleEndianWord (fun j => (floatBytes f0 f1 f2 e (sign ++ (0 : BitVec 7))).getD j 0) =
      (sign ++ e ++ f2.extractLsb' 0 7 ++ f1 ++ f0 : BitVec 32) :=
  calc
    _ = ((sign ++ e.extractLsb' 1 7) ++ (e.extractLsb' 0 1 ++ f2.extractLsb' 0 7) ++ f1 ++ f0 : BitVec 32) := by
      rw [← signByte_or_shiftRight, ← lowBits_or_shiftLeft]
      rfl
    _ = _ := congrArg (fun w : BitVec 16 => (w ++ f1 ++ f0 : BitVec 32)) (append_split_exponent sign e (f2.extractLsb' 0 7))

theorem float2Word_eq (m : Memory) (a b k : Nat) : float2Word m a b k =
    floatBytes (m.read (a + 3 * k)) (m.read (a + 3 * k + 1)) (m.read (a + 3 * k + 2)) (m.read (b + k))
      ((m.read (a + 3 * k + 2)).extractLsb' 7 1 ++ (0 : BitVec 7)) := by
  rw [← and_signMask]
  rfl

section Ending

variable {s : State} {n : Nat} {word : Nat → List Byte} (hword : ∀ k, (word k).length = 4)
include hword

theorem littleEndianWord_floatEnd {k : Nat} (hk : k < n) :
    littleEndianWord (fun j => byteOf (floatEnd s n word) s.ops.dstAddr (4 * k + j)) =
      littleEndianWord (fun j => (word k).getD j 0) := by
  have hbyte : ∀ j, j < 4 → byteOf (floatEnd s n word) s.ops.dstAddr (4 * k + j) = (word k).getD j 0 := fun j hj =>
    read_writeFloats s.mem s.ops.dstAddr.toNat n word hword k j hk hj
  simp only [littleEndianWord, hbyte, Nat.reduceLT]

theorem read_floatEnd_outside {a : Nat} (ha : ¬(s.ops.dstAddr.toNat ≤ a ∧ a < s.ops.dstAddr.toNat + 4 * n)) :
    (floatEnd s n word).mem.read a = s.mem.read a := by
  refine Memory.read_writeBytes_outside _ ?_
  rwa [length_floats n word hword]

end Ending

/-! ## FLOAT2 and FLOAT3 that pass every check -/

/-- Settles O40: the ending is `floatEnd`. -/
theorem float2Words : Obligations.Float2Words := by
  intro s n hraced hsrc hsrc2 hdst hdisj hdisj2 hlen hlen2 hcap
  have hsrcLen : s.src.len = 3 * n := hlen
  have hn : s.src.len / 3 = n := by omega
  have hlanes : s.src.len % 3 = 0 ∧ s.src2.len = s.src.len / 3 := ⟨by omega, hlen2.trans hn.symm⟩
  have hrun : float2Run s = .ok (writeFloats s n (float2Word s.mem s.src.base s.src2.base)) := by
    rw [float2Run_eq]
    exact floatRun_ok ((rangesInMemory_float2 s).2 ⟨hsrc, hsrc2, hdst⟩)
      (fun h => ((rangesClash_float2 s).1 h).elim hdisj hdisj2) hlanes hn hcap
  refine ⟨floatEnd s n (float2Word s.mem s.src.base s.src2.base), ?_, rfl, fun k hk => ?_,
    fun a ha => read_floatEnd_outside (fun _ => rfl) ha⟩
  · rw [exec_float2_of_not_raced hraced, hrun, finish_floatFault_ok hraced]
  · refine (littleEndianWord_floatEnd (fun _ => rfl) hk).trans ?_
    rw [float2Word_eq, littleEndianWord_floatBytes]
    rfl

/-- Settles O42: the ending is `floatEnd`, for every SIGN_PACK. -/
theorem float3Words : Obligations.Float3Words := by
  intro s n hraced hsrc hsrc2 hsrc3 hdst hdisj hdisj2 hdisj3 hlen hlen2 hlen3 hcap
  have hsrcLen : s.src.len = 3 * n := hlen
  have hn : s.src.len / 3 = n := by omega
  have hlanes : s.src.len % 3 = 0 ∧ s.src2.len = s.src.len / 3 ∧
      s.src3.len = signLen s.params.signPack (s.src.len / 3) := by
    rw [hn]
    exact ⟨by omega, hlen2, hlen3⟩
  have hrun : float3Run s =
      .ok (writeFloats s n (float3Word s.params.signPack s.mem s.src.base s.src2.base s.src3.base)) := by
    rw [float3Run_eq]
    exact floatRun_ok ((rangesInMemory_float3 s).2 ⟨hsrc, hsrc2, hsrc3, hdst⟩)
      (fun h => ((rangesClash_float3 s).1 h).elim hdisj fun h => h.elim hdisj2 hdisj3) hlanes hn hcap
  refine ⟨floatEnd s n (float3Word s.params.signPack s.mem s.src.base s.src2.base s.src3.base), ?_, rfl, fun k hk => ?_,
    fun a ha => read_floatEnd_outside (fun _ => rfl) ha⟩
  · rw [exec_float3_of_not_raced hraced, hrun, finish_floatFault_ok hraced]
  · refine (littleEndianWord_floatEnd (fun _ => rfl) hk).trans ?_
    rw [float3Word, littleEndianWord_floatBytes]
    rfl

end Sys2Proof.Machine
end

section
/-! PROOFS. HDRPARSE (`45_header.md` R191 to R200): its ending for each kind of header, and out of range. -/

namespace Sys2Proof.Machine

/-! ## The values of the fields -/

theorem toNat_append_byte {w : Nat} (x : BitVec w) (y : Byte) : (x ++ y).toNat = x.toNat * 256 + y.toNat := by
  rw [BitVec.toNat_append, ← Nat.shiftLeft_add_eq_or_of_lt y.isLt, Nat.shiftLeft_eq]

theorem be16_toNat (hi lo : Byte) : (be16 hi lo).toNat = hi.toNat * 256 + lo.toNat := toNat_append_byte hi lo

/-- A digit sum in base 256, one step in Horner's form: the digit of weight 1 is the last one added. -/
theorem sum_range_succ_base256 (a : Nat → Nat) (n : Nat) :
    ((List.range (n + 1)).map (fun j => a j * 256 ^ j)).sum =
      ((List.range n).map (fun j => a (j + 1) * 256 ^ j)).sum * 256 + a 0 := by
  rw [List.sum_range_succ', ← List.sum_map_mul_right, Nat.add_comm, pow_zero, Nat.mul_one]
  simp only [Nat.succ_eq_add_one, pow_succ, Nat.mul_assoc]

/-- The least significant of the eight bytes is the one at the lowest offset (R193): each byte appended is a Horner step. -/
theorem le64_toNat (b : Nat → Byte) (p : Nat) :
    (le64 b p).toNat = ((List.range 8).map (fun j => (b (p + j)).toNat * 256 ^ j)).sum := by
  simp only [le64, toNat_append_byte]
  iterate 8 rw [sum_range_succ_base256]
  simp

theorem headerLen_eq (f : Byte) :
    headerLen f = 20 + (if f.getLsbD 7 then 16 else 0) + (if f.getLsbD 5 then 2 else 0) := by
  rw [headerLen, isCompressed, isChecksummed]
  cases f.getLsbD 7 <;> cases f.getLsbD 5 <;> rfl

/-- HDR_LEN is wide enough: a header is at most 38 bytes long (R194). -/
theorem loadFixedHeader_hdrLen_toNat (s : State) :
    (loadFixedHeader s).hdrLen.toNat = headerLen (containerByte s 3) := by
  refine BitVec.toNat_ofNat _ _ |>.trans (Nat.mod_eq_of_lt ?_)
  rw [headerLen_eq]
  split_ifs <;> decide

/-! ## What steps 3 to 8 load -/

/-- Loading the dictionary and the checksum keeps what steps 3 to 5 loaded. -/
theorem loadHeader_sameFixedHeader (s : State) :
    SameFixedHeader (loadExpected (loadDict (loadFixedHeader s))) (loadFixedHeader s) := by
  rw [loadHeader_eq]
  exact ⟨rfl, rfl, rfl, rfl⟩

theorem loadHeader_dict_getElem (s : State) (i : Fin 16) :
    (loadExpected (loadDict (loadFixedHeader s))).dict[i.val] =
      if isCompressed (containerByte s 3) then containerByte s (20 + i.val) else s.dict[i.val] := by
  rw [loadHeader_eq]
  dsimp only
  split
  · exact Vector.getElem_ofFn _
  · rfl

theorem loadHeader_cksumExp_of_not_checksummed {s : State} (h : isChecksummed (containerByte s 3) = false) :
    (loadExpected (loadDict (loadFixedHeader s))).cksumExp = s.cksumExp := by
  rw [loadHeader_eq]
  exact if_neg (Bool.eq_false_iff.1 h)

theorem loadHeader_cksumExp_toNat {s : State} {p : Nat} (h : isChecksummed (containerByte s 3) = true)
    (hp : checksumOffset (containerByte s 3) = p) :
    (loadExpected (loadDict (loadFixedHeader s))).cksumExp.toNat =
      (containerByte s p).toNat * 256 + (containerByte s (p + 1)).toNat := by
  rw [loadHeader_eq, ← be16_toNat, ← hp]
  exact congrArg BitVec.toNat (if_pos h)

/-! ## The command -/

theorem exec_hdrparse_of_not_raced {s : State} (h : s.raced = false) :
    exec .hdrparse s = .next (s.finish hdrparseFault (hdrparseRun s)) := by
  simp only [exec, execHdrparse, h, Bool.false_eq_true, if_false]

/-- Marking a race, or clearing its mark, is no part of the pseudocode. -/
theorem hdrparseRun_raced {s t : State} (h : hdrparseRun s = .ok t) : t.raced = s.raced := by
  obtain ⟨-, ⟨-, rfl⟩ | ⟨-, -, -, rfl⟩ | ⟨-, -, -, rfl⟩⟩ := hdrparseRun_ok h
  · rfl
  · rfl
  · rw [loadHeader_eq]
    rfl

theorem exec_hdrparse_of_ok {s t : State} (hraced : s.raced = false) (hrun : hdrparseRun s = .ok t) :
    exec .hdrparse s = .next { t with pending := none, done := true, err := .none } := by
  rw [exec_hdrparse_of_not_raced hraced, hrun, State.finish_ok, State.complete_of_not_raced]
  exact (hdrparseRun_raced hrun).trans hraced

theorem hdrparseRun_of_short {s : State} (hparsed : HeaderIsParsed s)
    (hlen : s.ops.srcLen.toNat < headerLen (containerByte s 3)) :
    hdrparseRun s = .ok (setHdrValid (loadFixedHeader s).freeDictAndExpected.drawn false) := by
  rw [hdrparseRun_of_parsed hparsed, if_pos (show s.src.len < _ from hlen)]

theorem hdrparseRun_of_valid {s : State} (hparsed : HeaderIsParsed s)
    (hlen : headerLen (containerByte s 3) ≤ s.ops.srcLen.toNat) :
    hdrparseRun s = .ok (setHdrValid (loadExpected (loadDict (loadFixedHeader s))) true) := by
  rw [hdrparseRun_of_parsed hparsed, if_neg (show ¬s.src.len < _ from Nat.not_lt.2 hlen)]

/-! ## A valid header -/

/-- Settles O44: step 6 passes, and the registers are those of steps 3 to 8. -/
theorem validHeaderIsLoaded : Obligations.ValidHeaderIsLoaded := by
  intro s b hraced hsrc hb h20 h0 h1 h2 hlen
  subst hb
  rw [← headerLen_eq] at hlen
  have hrun := hdrparseRun_of_valid ⟨hsrc, h20, h0, h1, h2⟩ hlen
  obtain ⟨-, hhdrLen, horigSize, hdataSize⟩ := loadHeader_sameFixedHeader s
  refine ⟨_, exec_hdrparse_of_ok hraced hrun, ?frame, ?origSize, ?dataSize, ?hdrLen, loadHeader_dict_getElem s,
    loadHeader_cksumExp_of_not_checksummed, fun hchecksummed hcompressed => ?compressed, fun hchecksummed hraw => ?raw⟩
  case frame =>
    rw [loadHeader_eq]
    rfl
  case origSize => exact (congrArg BitVec.toNat horigSize).trans (le64_toNat _ 4)
  case dataSize => exact (congrArg BitVec.toNat hdataSize).trans (le64_toNat _ 12)
  case hdrLen => exact (congrArg BitVec.toNat hhdrLen).trans ((loadFixedHeader_hdrLen_toNat s).trans (headerLen_eq _))
  case compressed => exact loadHeader_cksumExp_toNat hchecksummed (if_pos hcompressed)
  case raw => exact loadHeader_cksumExp_toNat hchecksummed (if_neg (Bool.eq_false_iff.1 hraw))

/-! ## An invalid header -/

/-- Settles O45: step 3 is not reached, and the header registers may hold any value. -/
theorem shortOrForeignHeaderIsInvalid : Obligations.ShortOrForeignHeaderIsInvalid := by
  intro s hraced hsrc hbad
  have hnot : ¬HeaderIsParsed s := by
    rintro ⟨-, h20, h0, h1, h2⟩
    obtain hshort | hbad0 | hbad1 | hbad2 := hbad
    · exact Nat.not_lt.2 h20 hshort
    · exact hbad0 h0
    · exact hbad1 h1
    · exact hbad2 h2
  have hrun := hdrparseRun_of_not_parsed (operandChecks_source_of_inMemory (.inr rfl) hsrc) hnot
  exact ⟨_, _, _, _, _, _, _, exec_hdrparse_of_ok hraced hrun⟩

/-- Settles O46: steps 3 to 5 have loaded the fixed fields when step 6 finds the source too short. -/
theorem headerLongerThanSourceIsInvalid : Obligations.HeaderLongerThanSourceIsInvalid := by
  intro s b hraced hsrc hb h20 h0 h1 h2 hlen
  subst hb
  rw [← headerLen_eq] at hlen
  have hrun := hdrparseRun_of_short ⟨hsrc, h20, h0, h1, h2⟩ hlen
  exact ⟨_, _, _, _, _, _, exec_hdrparse_of_ok hraced hrun, le64_toNat _ 4, le64_toNat _ 12,
    (loadFixedHeader_hdrLen_toNat s).trans (headerLen_eq _)⟩

/-- Settles O47: the source check raises RANGE, and the fault effect clears HDR_VALID alone. -/
theorem headerRangeFault : Obligations.HeaderRangeFault := by
  intro s hraced hsrc
  have hrun : hdrparseRun s = .error .range := by
    rw [hdrparseRun, operandChecks_source_of_not_inMemory (.inr rfl) hsrc]
  rw [exec_hdrparse_of_not_raced hraced, hrun, State.finish_error, hdrparseFault, State.complete_of_not_raced]
  · rfl
  · exact hraced

end Sys2Proof.Machine
end

section
/-! PROOFS. The issue step (`60_exceptions.md` R215, R217): a legal word is put in flight, any other only recorded. -/

namespace Sys2Proof.Machine

theorem issue_of_legal {w : Word} (h : legal w = true) (s : State) :
    issue s w = { s with cmd := w, done := false, err := .none, pending := some w, raced := false } := by
  rw [issue, if_pos h]

theorem issue_of_not_legal {w : Word} (h : ¬legal w = true) (s : State) :
    issue s w = { s with cmd := w, done := true, err := .illegal } := by
  rw [issue, if_neg h]

/-- A host write to CMD, at offset 0, runs the issue step while no command is in flight (`10_state.md` R24). -/
theorem hostOp_writeCmd_idle {s : State} (hp : s.pending = none) (w : Word) :
    hostOp (.regWrite 32 0x00 w) s = .next (issue s w) :=
  hostOp_regWrite_idle hp .cmd w

/-- Settles O5: an idle machine's step is the host's CMD write, and its issue step goes by whether the word is legal. -/
theorem issueStepOfCmdWrite : Obligations.IssueStepOfCmdWrite := by
  intro s w rest hp hs
  have hstep : step s = .next (issue { s with host := { s.host with script := rest } } w) := by
    rw [step_idle hp, hostStep_cons hs]
    exact hostOp_writeCmd_idle (s := { s with host := { s.host with script := rest } }) hp w
  rw [hstep, ← legal_iff_decodes]
  exact ⟨fun hw => congrArg _ (issue_of_legal hw _), fun hw => congrArg _ (issue_of_not_legal hw _)⟩

/-- A word that encodes no command is not legal: a legal word decodes, and it is the word of what it decodes to. -/
theorem not_legal_of_not_encoded {w : Word} (h : ∀ i, encode i ≠ w) : ¬legal w = true := by
  intro hw
  obtain ⟨i, hi⟩ := decode_of_legal hw
  exact h i (encodeOfDecode w i hi).1

/-- Settles O6: the issue step of a word that is not legal. -/
theorem illegalWordDoesNothingElse : Obligations.IllegalWordDoesNothingElse := by
  intro s w hp hw
  rw [hostOp_writeCmd_idle hp, issue_of_not_legal (not_legal_of_not_encoded hw)]

end Sys2Proof.Machine
end

section
/-! PROOFS. A placed word (log 10): it stands in flight as its issue step leaves it, and the core moves next. -/

namespace Sys2Proof.Machine

theorem decodeTableWord_eq_some {w : Nat} {i : Instr} (hw : w < 2 ^ 32) (h : decodeTableWord 32 w = some i) :
    tableWord 32 w = BitVec.ofNat 32 w ∧ decode (BitVec.ofNat 32 w) = .ok i := by
  have hword : tableWord 32 w = BitVec.ofNat 32 w := by rw [tableWord, Nat.mod_eq_of_lt hw]
  rw [decodeTableWord, if_pos (Nat.le_refl 32), hword] at h
  refine ⟨hword, ?_⟩
  cases hd : decode (BitVec.ofNat 32 w) with
  | error e => rw [hd] at h; cases h
  | ok j => rw [hd] at h; cases h; rfl

/-- With a command in flight and the core next in the schedule, the core moves, whatever the host has left to do; only the
schedule may differ after the turn. -/
theorem step_flight_coreNext {s : State} {w : Word} {q : List Agent} (hp : s.pending = some w)
    (hq : s.host.sched = .core :: q) : ∃ side, step s = coreStep { s with host := side } := by
  cases hs : s.host.script with
  | nil => exact ⟨_, step_flight_nil hp hs⟩
  | cons op rest =>
    by_cases hop : op = .wait
    · subst hop
      exact ⟨_, step_flight_wait hp hs⟩
    · exact ⟨_, step_flight_coreTurn hp hs hop hq⟩

/-- Settles O19: the placed word is in flight as the issue step leaves it, and the core takes the next turn. -/
theorem placedWordRunsNext : Obligations.PlacedWordRunsNext := by
  intro s w i hw h
  obtain ⟨hword, hd⟩ := decodeTableWord_eq_some hw h
  have hlegal : legal (BitVec.ofNat 32 w) = true := (legal_iff_decodes _).2 ⟨i, hd⟩
  rw [State.withFetchWord, hword, placeWord, if_pos hlegal, issue_of_legal hlegal]
  obtain ⟨side, hstep⟩ := step_flight_coreNext (s := { s with
    cmd := BitVec.ofNat 32 w, pending := some (BitVec.ofNat 32 w), done := false, err := .none, raced := false
    host := { s.host with sched := .core :: s.host.sched } }) rfl rfl
  exact ⟨side, hstep.trans (coreStep_of_decode rfl hd)⟩

end Sys2Proof.Machine
end

section
/-! PROOFS. What stops the machine (`30_encoding.md` R80, `20_memory.md` R60, `60_exceptions.md` R233): an operation of the host
that is not well formed, and nothing else. -/

namespace Sys2Proof.Machine

theorem accessError_eq_none_iff (width off : Nat) :
    accessError width off = none ↔ width = 32 ∧ off % 4 = 0 ∧ off < 0x100 := by
  unfold accessError
  split_ifs with hwidth halign hspace
  · exact iff_of_false nofun fun ⟨h, _, _⟩ => hwidth h
  · exact iff_of_false nofun fun ⟨_, h, _⟩ => halign h
  · exact iff_of_false nofun fun ⟨_, _, h⟩ => Nat.not_lt.2 hspace h
  · exact iff_of_true rfl ⟨not_not.1 hwidth, not_not.1 halign, Nat.not_le.1 hspace⟩

/-- Settles O15: a bad access has an access error, which both accesses answer; any other is served. -/
theorem badAccessesAreRefused : Obligations.BadAccessesAreRefused := by
  intro s width off w
  refine ⟨fun hbad => ?_, fun hgood => ?_⟩
  · rw [← accessError_eq_none_iff] at hbad
    obtain ⟨e, he⟩ := Option.ne_none_iff_exists'.1 hbad
    simp only [hostOp, hostRegWrite, hostRegRead, he]
    exact ⟨⟨e, rfl⟩, e, rfl⟩
  · obtain ⟨rfl, h4, hlt⟩ := hgood
    exact ⟨⟨_, hostOp_regWrite_of_aligned s w h4 hlt⟩, hostOp_regRead_of_aligned s h4 hlt⟩

/-- The operation is not well formed, and the outcome is a stop for a bad access (logs 8, 9). -/
def StopsOnBadAccess (op : HostOp) (s : State) (r : Host.Outcome State Fault Refusal) : Prop :=
  op.wf s.memSize = false ∧ (r = .fault .noSuchAddress ∨ ∃ x, r = .refused (.hostAccess x))

/-- A register write and a register read with the same width and offset are both well formed, or both refused. -/
theorem regAccess_wf_or_refused (width off : Nat) (w : Word) (s : State) :
    (width = 32 ∧ off % 4 = 0 ∧ off < 0x100) ∨
      StopsOnBadAccess (.regWrite width off w) s (hostOp (.regWrite width off w) s) ∧
      StopsOnBadAccess (.regRead width off) s (hostOp (.regRead width off) s) := by
  by_cases h : width = 32 ∧ off % 4 = 0 ∧ off < 0x100
  · exact .inl h
  · obtain ⟨hwrite, hread⟩ := (badAccessesAreRefused s width off w).1 h
    have hwf : (decide (width = 32) && decide (off % 4 = 0) && decide (off < 0x100)) = false := by
      simpa [and_assoc] using h
    exact .inr ⟨⟨hwf, .inr hwrite⟩, hwf, .inr hread⟩

/-- An operation of the outside world answers a next state, or it is a bad access and stops as one. -/
theorem hostOp_next_or_badAccess (op : HostOp) (s : State) :
    (∃ t, hostOp op s = .next t) ∨ StopsOnBadAccess op s (hostOp op s) := by
  cases op with
  | regWrite width off w =>
    obtain h | ⟨hbad, -⟩ := regAccess_wf_or_refused width off w s
    · exact .inl ((badAccessesAreRefused s width off w).2 h).1
    · exact .inr hbad
  | regRead width off =>
    obtain h | ⟨-, hbad⟩ := regAccess_wf_or_refused width off 0 s
    · exact .inl ⟨_, ((badAccessesAreRefused s width off 0).2 h).2⟩
    · exact .inr hbad
  | memWrite a v =>
    by_cases ha : a < s.memSize
    · exact .inl ⟨_, hostMemWrite_of_lt ha v⟩
    · exact .inr ⟨decide_eq_false ha, .inl (hostMemWrite_of_memSize_le (Nat.not_lt.1 ha) v)⟩
  | memRead a =>
    by_cases ha : a < s.memSize
    · cases hd : inRunningDest s a with
      | false => exact .inl ⟨_, hostMemRead_of_not_dest ha hd⟩
      | true => exact .inl ⟨_, by rw [hostOp, hostMemRead, if_neg (Nat.not_le.2 ha), if_pos hd]⟩
    · exact .inr ⟨decide_eq_false ha, .inl (hostMemRead_of_memSize_le (Nat.not_lt.1 ha))⟩
  | wait => exact .inl ⟨_, rfl⟩
  | reset => exact .inl ⟨_, rfl⟩

/-- What a step is, its outcome whatever it may be: the core's step, or the host's, from `s` with some host side whose script
is that of `s` (its turn taken, log 2). -/
theorem step_eq_agent (s : State) : ∃ side : HostSide, side.script = s.host.script ∧
    (step s = coreStep { s with host := side } ∨ step s = hostStep { s with host := side }) := by
  obtain ⟨q, hturn⟩ := tookTurn_eq s
  refine ⟨{ s.host with sched := q }, rfl, ?_⟩
  rw [step, hturn]
  cases mover s with
  | core => exact .inl rfl
  | host => exact .inr rfl

/-- In a state of the invariant the core's step answers a next state: what is in flight is legal, so it decodes, and every
command completes. -/
theorem coreStep_next_of_inv {s : State} (hs : s.Inv) : ∃ t, coreStep s = .next t := by
  cases hp : s.pending with
  | none => exact ⟨s, by simp only [coreStep, hp]⟩
  | some w =>
    obtain ⟨i, hi⟩ := decode_of_legal (hs.pendingLegal w hp)
    obtain ⟨t, ht, -⟩ := exec_completes i s
    exact ⟨t, (coreStep_of_decode hp hi).trans ht⟩

/-- A step from a state of the invariant answers a next state, or the host's next operation is a bad access. -/
theorem step_next_or_badAccess {s : State} (hs : s.Inv) :
    (∃ t, step s = .next t) ∨ ∃ op rest, s.host.script = op :: rest ∧ StopsOnBadAccess op s (step s) := by
  obtain ⟨side, hside, hcore | hhost⟩ := step_eq_agent s
  · rw [hcore]
    exact .inl (coreStep_next_of_inv (hs.of_keepsFlight ⟨rfl, rfl, rfl, rfl, rfl, rfl, rfl⟩))
  · rw [hhost, ← hside]
    cases hscript : side.script with
    | nil => exact .inl ⟨_, hostStep_nil hscript⟩
    | cons op rest =>
      rw [hostStep_cons (s := { s with host := side }) hscript]
      exact (hostOp_next_or_badAccess op _).imp_right fun hbad => ⟨op, rest, rfl, hbad⟩

/-- Settles O60, by `step_next_or_badAccess`: the two stops of a bad access are the only ones. -/
theorem onlyBadHostAccessesStop : Obligations.OnlyBadHostAccessesStop := by
  intro s hs
  obtain ⟨t, ht⟩ | ⟨op, rest, hscript, hwf, hfault | ⟨x, hrefused⟩⟩ := step_next_or_badAccess hs
  · rw [ht]
    exact ⟨nofun, nofun⟩
  · rw [hfault]
    exact ⟨fun f hf => ⟨(Host.Outcome.fault.inj hf).symm, op, rest, hscript, hwf⟩, nofun⟩
  · rw [hrefused]
    exact ⟨nofun, fun e he => ⟨⟨x, (Host.Outcome.refused.inj he).symm⟩, op, rest, hscript, hwf⟩⟩

end Sys2Proof.Machine
end

section
/-! PROOFS. The codes a command completes with (`60_exceptions.md` R216), raced or not (`70_reset_and_hazards.md` R252). -/

namespace Sys2Proof.Machine

/-- The check of one source raises RANGE alone. -/
theorem operandChecks_source_code {i : Instr} (hi : i = .cksum ∨ i = .hdrparse) {s : State} {e : ErrCode}
    (h : operandChecks i s = some e) : e = .range := by
  rw [operandChecks_source hi] at h
  split at h <;> cases h
  rfl

theorem cksumRun_error {s : State} {e : ErrCode} (h : cksumRun s = .error e) : e = .range := by
  unfold cksumRun at h
  split at h <;> cases h
  next hc => exact operandChecks_source_code (.inl rfl) hc

/-- Past its source check HDRPARSE raises nothing: a bad header is a result (`45_header.md` R198). -/
theorem hdrparseRun_error {s : State} {e : ErrCode} (h : hdrparseRun s = .error e) : e = .range := by
  unfold hdrparseRun at h
  split at h
  next hc => cases h; exact operandChecks_source_code (.inr rfl) hc
  next => split_ifs at h

theorem none_mem_completionCodes (i : Instr) : ErrCode.none ∈ completionCodes i := by
  cases i <;> exact List.mem_cons_self

/-- A command ends with one of its codes when what its pseudocode raises is one: raced, it is a free choice among them, and
after a result it is NONE. -/
theorem completion_err_mem {s t : State} {i : Instr} {outputs : State → State} {onFault : ErrCode → State → State}
    {r : Except ErrCode State}
    (h : Host.Outcome.next (φ := Fault) (ρ := Refusal)
      (if s.raced then s.completeRaced i outputs else s.finish onFault r) = .next t)
    (hraises : ∀ e, r = .error e → e ∈ completionCodes i) : t.err ∈ completionCodes i := by
  have hnone := none_mem_completionCodes i
  obtain rfl := Host.Outcome.next.inj h
  split
  · exact State.freeErr_mem s (List.ne_nil_of_mem hnone)
  · cases r with
    | ok t => exact hnone
    | error e => exact hraises e rfl

/-- The code a command completes with is one of its codes: one case for each command, by what its pseudocode raises. -/
theorem exec_err_mem {i : Instr} {s t : State} (h : exec i s = .next t) : t.err ∈ completionCodes i := by
  cases i with
  | lfsrSeed seed => cases h; exact none_mem_completionCodes (.lfsrSeed seed)
  | lfsrStep count => cases h; exact none_mem_completionCodes (.lfsrStep count)
  | cksum =>
    refine completion_err_mem h fun e he => ?_
    obtain rfl := cksumRun_error he
    decide
  | decrypt =>
    refine completion_err_mem h fun e he => ?_
    obtain rfl | rfl | rfl := decryptRun_error he <;> decide
  | decompress =>
    refine completion_err_mem h fun e he => ?_
    obtain rfl | rfl | rfl := decompressRun_error he <;> decide
  | float2 =>
    refine completion_err_mem h fun e he => ?_
    obtain rfl | rfl | rfl | rfl := float2Run_error he <;> decide
  | float3 =>
    refine completion_err_mem h fun e he => ?_
    obtain rfl | rfl | rfl | rfl := float3Run_error he <;> decide
  | hdrparse =>
    refine completion_err_mem h fun e he => ?_
    obtain rfl := hdrparseRun_error he
    decide

/-- Settles O52: the lists of the statement are the model's lists of codes. -/
theorem completionCodesOfEachCommand : Obligations.CompletionCodesOfEachCommand := by
  intro i s t h
  have hmem := exec_err_mem h
  cases i <;> exact hmem

end Sys2Proof.Machine
end

section
/-! PROOFS. The host's register accesses while a command is in flight (`70_reset_and_hazards.md` R250): a write is dropped and
sets HAZ, a read changes nothing, and a write after the completion takes effect. -/

namespace Sys2Proof.Machine

/-- The busy rule: a write of any named register but STATUS is dropped and sets HAZ. -/
theorem hostOp_regWrite_busy {s : State} (hp : s.pending ≠ none) {r : Reg} (hr : r ≠ .status) (w : Word) :
    hostOp (.regWrite 32 (regOffset r) w) s = .next { s with haz := true } := by
  have hb : s.busy = true := Option.isSome_iff_ne_none.2 hp
  simp only [hostOp, hostRegWrite, accessError_regOffset, regWrite, regAt_regOffset, hb, if_true]

/-- Settles O7: the busy rule at the register's offset, and a read of an aligned offset, which only notes. -/
theorem busyRegisterWriteIsDropped : Obligations.BusyRegisterWriteIsDropped := by
  intro s off w
  refine ⟨fun hp r hr hne => ?_, fun h4 hlt => hostOp_regRead_of_aligned s h4 hlt⟩
  obtain ⟨-, -, rfl⟩ := regAt_some hr
  exact hostOp_regWrite_busy hp hne w

/-- A half of an operand register reads as it was written (`10_state.md` R40). -/
theorem readReg_writeReg_half (s : State) {r : Reg64} (hr : r ∉ ([.outLen, .origSize, .dataSize] : List Reg64)) (h : Half)
    (v : Word) : readReg (writeReg s (.wide r h) v) (.wide r h) = v := by
  rw [readReg, writeReg, getWide_setWide_same s hr, getHalf_setHalf_same]

section
variable {s : State} {w v : Word} {i : Instr} {r : Reg} {rest : List HostOp} {q : List Agent} (hp : s.pending = some w)
  (hs : s.host.script = .regWrite 32 (regOffset r) v :: rest)
include hp hs

/-- The host's turn first: its write is dropped with HAZ set. -/
theorem step_hostTurn_regWrite (hq : s.host.sched = .host :: q) (hr : r ≠ .status) :
    step s = .next { s with haz := true, host := { s.host with script := rest, sched := q } } := by
  rw [step_flight_hostTurn hp hs nofun hq]
  exact hostOp_regWrite_busy (s := { s with host := { s.host with script := rest, sched := q } })
    (Option.ne_none_iff_exists'.2 ⟨w, hp⟩) hr v

/-- The core's turn first: the command completes, and the host's write then finds an idle machine. -/
theorem step_coreTurn_regWrite (hq : s.host.sched = .core :: q) (hd : decode w = .ok i) :
    ∃ b, step s = .next b ∧ exec i { s with host := { s.host with sched := q } } = .next b ∧
      step b = .next (writeReg { b with host := { b.host with script := rest } } r v) := by
  obtain ⟨b, hb, hdone⟩ := exec_completes i { s with host := { s.host with sched := q } }
  have hscript : b.host.script = .regWrite 32 (regOffset r) v :: rest := by rw [hdone.host, ← hs]
  refine ⟨b, ?_, hb, ?_⟩
  · rw [step_flight_coreTurn hp hs nofun hq]
    exact (coreStep_of_decode (s := { s with host := { s.host with sched := q } }) hp hd).trans hb
  · rw [step_idle hdone.pending, hostStep_cons hscript]
    exact hostOp_regWrite_idle (s := { b with host := { b.host with script := rest } }) hdone.pending r v

end

/-- Settles O58: one lemma for each order; after the host's turn nothing is left for the host, so the core moves. -/
theorem bothOrdersAreAdmitted : Obligations.BothOrdersAreAdmitted := by
  intro s w v i r h hp hd hr
  have hnext : ({ s with haz := true, host := { s.host with script := [], sched := [] } } : State).pending = some w := hp
  obtain ⟨b, hb, hexec, hc⟩ := step_coreTurn_regWrite (r := .wide r h) (s := { s with host := { s.host with
    script := [.regWrite 32 (regOffset (.wide r h)) v], sched := [.core] } }) hp rfl rfl hd
  refine ⟨⟨_, ?_, rfl, (step_flight_nil hnext rfl).trans (coreStep_of_decode hnext hd)⟩,
    b, _, hb, hexec, hc, writeReg_haz _ (r := .wide r h) nofun v, readReg_writeReg_half _ hr h v⟩
  exact step_hostTurn_regWrite (r := .wide r h) (s := { s with host := { s.host with
    script := [.regWrite 32 (regOffset (.wide r h)) v], sched := [.host] } }) hp rfl rfl nofun

end Sys2Proof.Machine
end

section
/-! PROOFS. The owned ranges of a command in flight (`70_reset_and_hazards.md` R251), the host's accesses to buffer memory under
BUSY, and what a command that was raced may change (R252). -/

namespace Sys2Proof.Machine

/-! ## Owned bytes -/

theorem holds_iff_inRange (a l : U64) (x : Nat) : Range.holds ⟨a.toNat, l.toNat⟩ x = true ↔ InRange a l x :=
  Range.holds_iff _ _

/-- The model's owned bytes are those of the ranges of `30_encoding.md` R84: one case for each command. -/
theorem ownsByte_iff (i : Instr) (s : State) (a : Nat) : ownsByte i s a = true ↔ Owns i s a := by
  cases i <;> simp [ownsByte, sourceRanges, destRange, State.src, State.src2, State.src3, State.dst, Owns, holds_iff_inRange]

/-- A byte of the destination of the command in flight lies in (DST_ADDR, DST_CAP), and the command has a destination. -/
theorem inRunningDest_eq_false {s : State} {w : Word} {i : Instr} (hp : s.pending = some w) (hd : decode w = .ok i) {a : Nat}
    (ha : ¬(HasDestination i ∧ InRange s.ops.dstAddr s.ops.dstCap a)) : inRunningDest s a = false := by
  rw [inRunningDest, running_of_decode hp hd, Option.bind_some]
  cases hr : destRange i s with
  | none => rfl
  | some r =>
    obtain ⟨hdest, rfl⟩ := destRange_eq_some hr
    exact dst_holds_eq_false fun hin => ha ⟨hdest, hin⟩

/-- A host read of a byte that exists notes some byte, and may draw a free value; nothing else changes. -/
theorem hostMemRead_of_lt {s : State} {a : Nat} (ha : a < s.memSize) : ∃ x d, hostMemRead a s =
    .next { s with host := { s.host with log := .mem a x :: s.host.log }, draws := d } := by
  cases hd : inRunningDest s a with
  | false => exact ⟨_, _, hostMemRead_of_not_dest ha hd⟩
  | true => exact ⟨_, _, by rw [hostMemRead, if_neg (Nat.not_le.2 ha), if_pos hd]; rfl⟩

/-- Settles O54: the equation of a write, whose race mark is ownership (`ownsByte_iff`), and of a read outside the destination
and anywhere. -/
theorem ownedRangesUnderBusy : Obligations.OwnedRangesUnderBusy := by
  intro s w i a v hp hd ha
  have hlt : a < s.memSize := Nat.lt_succ_of_le ha
  refine ⟨⟨_, hostMemWrite_of_lt hlt v, rfl, fun howns => ?_, fun hfree => ?_, fun b => Memory.read_write s.mem a b v⟩,
    fun hout => hostMemRead_of_not_dest hlt (inRunningDest_eq_false hp hd hout), hostMemRead_of_lt hlt⟩
  · simp [running_of_decode hp hd, (ownsByte_iff i s a).2 howns]
  · simp [running_of_decode hp hd, mt (ownsByte_iff i s a).1 hfree]

/-! ## What the host can change under BUSY -/

/-- A register write under BUSY changes HAZ or nothing, at whatever offset. -/
theorem regWrite_busy_eq {s : State} (hp : s.pending ≠ none) (off : Nat) (w : Word) :
    regWrite s off w = { s with haz := (regWrite s off w).haz } := by
  have hb : s.busy = true := Option.isSome_iff_ne_none.2 hp
  obtain ⟨-, h⟩ | ⟨-, h⟩ | ⟨r, -, -, ⟨-, h⟩ | ⟨hidle, -⟩⟩ := regWrite_cases s off w
  · rw [h]
  · rw [h]; rfl
  · rw [h]
  · rw [hb] at hidle; cases hidle

/-- An operation of the outside world under BUSY, short of reset, changes no register but HAZ: one case for each. -/
theorem hostOp_busy_eq {s t : State} {op : HostOp} (hp : s.pending ≠ none) (hop : op ≠ .reset) (h : hostOp op s = .next t) :
    t = { s with haz := t.haz, mem := t.mem, raced := t.raced, host := t.host, draws := t.draws } := by
  cases op with
  | regWrite width off w =>
    obtain ⟨-, rfl⟩ := hostRegWrite_next h
    rw [regWrite_busy_eq hp off w]
  | regRead width off => rw [hostRegRead_next h]; rfl
  | memWrite a v =>
    obtain hlt | hge := Nat.lt_or_ge a s.memSize
    · rw [hostOp, hostMemWrite_of_lt hlt] at h; cases h; rfl
    · rw [hostOp, hostMemWrite_of_memSize_le hge] at h; cases h
  | memRead a =>
    obtain hlt | hge := Nat.lt_or_ge a s.memSize
    · obtain ⟨x, d, hread⟩ := hostMemRead_of_lt hlt
      rw [hostOp, hread] at h; cases h; rfl
    · rw [hostOp, hostMemRead_of_memSize_le hge] at h; cases h
  | wait => cases h; rfl
  | reset => exact absurd rfl hop

/-- Settles O56: the registers by `hostOp_busy_eq`; HAZ by `hostOp_haz`, whose two ways to clear it are excluded here. -/
theorem busyRegistersAreStable : Obligations.BusyRegistersAreStable := by
  intro s t op hp hop h
  refine ⟨hostOp_busy_eq hp hop h, fun hs hstatus => ?_⟩
  obtain hkept | ⟨hset, -⟩ | ⟨-, hreset | ⟨w, hw, -⟩⟩ := hostOp_haz h
  · exact hkept.trans hs
  · exact hset
  · exact absurd hreset hop
  · exact absurd hw (hstatus w)

/-! ## A raced command -/

/-- Settles O55: no command, raced or not, writes more than its outputs (`exec_writes_outputs`), nor memory outside its
destination; the two LFSR commands have no ending but one. -/
theorem raceStaysInsideTheOutputs : Obligations.RaceStaysInsideTheOutputs := by
  intro i s t _ h
  have houtputs := exec_writes_outputs h
  have hmem := (onlyTheDestinationIsWritten i s t h).2
  cases i with
  | lfsrSeed v => exact (Host.Outcome.next.inj h).symm
  | lfsrStep n => exact Host.Outcome.next.inj (h.symm.trans (exec_lfsrStep n s))
  | cksum | hdrparse => exact houtputs
  | decrypt | decompress | float2 | float3 => exact ⟨houtputs, hmem⟩

end Sys2Proof.Machine
end
